-- ==== Sys2Proof/Word.lean ====
section
/-! DEFINITION. The word types of the engine (R8, R10 00_scope.md; R75 30_encoding.md; R195 46_hash.md). -/

namespace Sys2Proof

/-- One byte of the scratchpad, the hash buffer or the digest registers. -/
abbrev Byte := BitVec 8

/-- A 32-bit word: a command word (R75), a CSR (R34), a word of the hash core (R195). -/
abbrev Word := BitVec 32

/-- A 256-bit unsigned integer: an X register, a coordinate, a modulus (R8 with W = 256, R20). -/
abbrev Big := BitVec 256

/-- A register number of the X file or of the point file (NX = NP = 16, R8). -/
abbrev Reg := Fin 16

end Sys2Proof
end

