-- ==== Sys2Proof/Syntax.lean ====
section
/-! DEFINITION. The commands of the engine: one constructor per row of spec/opcode_table.json (R87 30_encoding.md).
A register operand is a number of the X file or of the point file, as R87 says for each field. -/

namespace Sys2Proof

/-- The modulus selector (R83): `@p`, `@n`, `@m`. The fourth encoding, 3, is illegal and has no value here. -/
inductive ModSel where
  | p
  | n
  | m
deriving DecidableEq, Repr

inductive Instr where
  /-- R100. -/
  | nop
  /-- R101: X destination, 22-bit immediate. -/
  | ldi (rd : Reg) (imm : BitVec 22)
  /-- R102: X destination, X source. -/
  | movx (rd rs1 : Reg)
  /-- R103: two X sources. -/
  | cmpx (rs1 rs2 : Reg)
  /-- R104: X destination, byte count, SPM address. -/
  | ldn (r : Reg) (len : BitVec 7) (addr : BitVec 12)
  /-- R105: X source, byte count, SPM address. -/
  | stn (r : Reg) (len : BitVec 7) (addr : BitVec 12)
  /-- R113: X source. -/
  | setm (rs1 : Reg)
  /-- R114. -/
  | modadd (rd rs1 rs2 : Reg) (sel : ModSel)
  /-- R115. -/
  | modsub (rd rs1 rs2 : Reg) (sel : ModSel)
  /-- R116. -/
  | modneg (rd rs1 : Reg) (sel : ModSel)
  /-- R117. -/
  | modred (rd rs1 : Reg) (sel : ModSel)
  /-- R118. -/
  | modmul (rd rs1 rs2 : Reg) (sel : ModSel)
  /-- R120. -/
  | montmul (rd rs1 rs2 : Reg) (sel : ModSel)
  /-- R121: `rs1` is the high half, `rs2` the low half. -/
  | montred (rd rs1 rs2 : Reg) (sel : ModSel)
  /-- R122. -/
  | tomont (rd rs1 : Reg) (sel : ModSel)
  /-- R123. -/
  | modinv (rd rs1 : Reg) (sel : ModSel)
  /-- R135. -/
  | modsqrt (rd rs1 : Reg) (sel : ModSel)
  /-- R145: X sources p, a, b. -/
  | domcrv (rs1 rs2 rs3 : Reg)
  /-- R148: X sources n, h. -/
  | domord (rs1 rs2 : Reg)
  /-- R151: point source. -/
  | domgen (rs1 : Reg)
  /-- R159: point destination. -/
  | pinf (rd : Reg)
  /-- R160: point destination. -/
  | pgen (rd : Reg)
  /-- R161: point destination, X sources x and y. -/
  | pset (rd rs1 rs2 : Reg)
  /-- R162: X destination, point source. -/
  | pgetx (rd rs1 : Reg)
  /-- R163: X destination, point source. -/
  | pgety (rd rs1 : Reg)
  /-- R164: point destination, point source. -/
  | pmov (rd rs1 : Reg)
  /-- R165: two point sources. -/
  | peq (rs1 rs2 : Reg)
  /-- R166: point source. -/
  | pisinf (rs1 : Reg)
  /-- R167: point destination, two point sources. -/
  | padd (rd rs1 rs2 : Reg)
  /-- R168: point destination, point source. -/
  | pdbl (rd rs1 : Reg)
  /-- R169: point destination, point source. -/
  | pneg (rd rs1 : Reg)
  /-- R170: point destination, point source, X scalar, negate bit. -/
  | pmul (rd rs1 rs2 : Reg) (neg : Bool)
  /-- R187: point destination, byte count, SPM address. -/
  | pdec (r : Reg) (len : BitVec 7) (addr : BitVec 12)
  /-- R188: point source, SPM address. -/
  | penc (r : Reg) (addr : BitVec 12)
  /-- R209: output length in bits. -/
  | hinit (imm : BitVec 22)
  /-- R210: X register with the bit count, SPM address. -/
  | hupd (r : Reg) (addr : BitVec 12)
  /-- R211: SPM address. -/
  | hfin (addr : BitVec 12)
  /-- R212: X destination. -/
  | htoe (rd : Reg)
  /-- R230: point register Q, X registers e, r, s. -/
  | ecdsav (rd rs1 rs2 rs3 : Reg)
deriving DecidableEq, Repr

end Sys2Proof
end

