-- ==== Sys2Proof/WellFormed.lean ====
section
/-! DEFINITION. Which terms of `Instr` some command word encodes. Register numbers, immediates, addresses and
selectors are legal at every value their types admit (R81, R82); only the byte counts of R85 are restricted. -/

namespace Sys2Proof

/-- The byte counts LDN and STN admit (R85): 1 to 32. -/
def integerLenOk (len : BitVec 7) : Bool := 1 ≤ len.toNat && len.toNat ≤ 32

/-- The byte counts PDEC admits (R85): 1 to 65. -/
def pointLenOk (len : BitVec 7) : Bool := 1 ≤ len.toNat && len.toNat ≤ 65

/-- The instruction has an encoding (R85). -/
def Instr.wellFormed : Instr → Bool
  | .ldn _ len _ => integerLenOk len
  | .stn _ len _ => integerLenOk len
  | .pdec _ len _ => pointLenOk len
  | .nop => true
  | .ldi _ _ => true
  | .movx _ _ => true
  | .cmpx _ _ => true
  | .setm _ => true
  | .modadd _ _ _ _ => true
  | .modsub _ _ _ _ => true
  | .modneg _ _ _ => true
  | .modred _ _ _ => true
  | .modmul _ _ _ _ => true
  | .montmul _ _ _ _ => true
  | .montred _ _ _ _ => true
  | .tomont _ _ _ => true
  | .modinv _ _ _ => true
  | .modsqrt _ _ _ => true
  | .domcrv _ _ _ => true
  | .domord _ _ => true
  | .domgen _ => true
  | .pinf _ => true
  | .pgen _ => true
  | .pset _ _ _ => true
  | .pgetx _ _ => true
  | .pgety _ _ => true
  | .pmov _ _ => true
  | .peq _ _ => true
  | .pisinf _ => true
  | .padd _ _ _ => true
  | .pdbl _ _ => true
  | .pneg _ _ => true
  | .pmul _ _ _ _ => true
  | .penc _ _ => true
  | .hinit _ => true
  | .hupd _ _ => true
  | .hfin _ => true
  | .htoe _ => true
  | .ecdsav _ _ _ _ => true

end Sys2Proof
end

