-- ==== Sys2Proof/Decode.lean ====
section
/-! DEFINITION. Decoding of command words and their encoding (R75 to R89, 30_encoding.md). The decoder is total on
all 2^32 words and names why it refuses one; the engine answers every refusal with EILLEGAL (R86). -/

namespace Sys2Proof

/-- Why a word is illegal (R86). -/
inductive DecodeError where
  /-- Condition (1): the opcode is not assigned (R88). -/
  | unassignedOpcode
  /-- Condition (2): a field that must be zero is not (R77 to R81). -/
  | nonzeroField
  /-- Condition (3): the modulus selector is 3 (R83). -/
  | modulusSelector
  /-- Condition (4): the byte count is outside the range of R85. -/
  | byteCount
deriving DecidableEq, Repr

/-! ## The fields of a word (R76 to R80) -/

def opField (w : Word) : BitVec 6 := w.extractLsb' 26 6
def rdField (w : Word) : BitVec 4 := w.extractLsb' 22 4
def rs1Field (w : Word) : BitVec 4 := w.extractLsb' 18 4
def rs2Field (w : Word) : BitVec 4 := w.extractLsb' 14 4
def rs3Field (w : Word) : BitVec 4 := w.extractLsb' 10 4
def selField (w : Word) : BitVec 2 := w.extractLsb' 8 2
def negField (w : Word) : BitVec 1 := w.extractLsb' 7 1
def lowField (w : Word) : BitVec 7 := w.extractLsb' 0 7
def immField (w : Word) : BitVec 22 := w.extractLsb' 0 22
def lenField (w : Word) : BitVec 7 := w.extractLsb' 15 7
def gapField (w : Word) : BitVec 3 := w.extractLsb' 12 3
def addrField (w : Word) : BitVec 12 := w.extractLsb' 0 12

/-- The register number a 4-bit field holds (R81). -/
def regOf (b : BitVec 4) : Reg := b.toFin

/-- The 4-bit field that holds a register number. -/
def regBits (r : Reg) : BitVec 4 := BitVec.ofFin r

/-- The selector a 2-bit field holds (R83); 3 holds none. -/
def selOf (b : BitVec 2) : Option ModSel :=
  if b = 0 then some .p else if b = 1 then some .n else if b = 2 then some .m else none

/-- The 2-bit field of a selector (R83). -/
def selBits : ModSel → BitVec 2
  | .p => 0
  | .n => 1
  | .m => 2

/-! ## Decoding -/

/-- The instruction, if the fields that must be zero are. -/
def decodeZero (zero : Bool) (i : Instr) : Except DecodeError Instr :=
  if zero then .ok i else .error .nonzeroField

/-- The instruction with the modulus selector of `w`, if the fields that must be zero are and the selector is legal. -/
def decodeSel (zero : Bool) (w : Word) (k : ModSel → Instr) : Except DecodeError Instr :=
  if zero then
    match selOf (selField w) with
    | some sel => .ok (k sel)
    | none => .error .modulusSelector
  else .error .nonzeroField

/-- The instruction, if bits [14:12] are zero and the byte count is legal. -/
def decodeLen (w : Word) (lenOk : Bool) (i : Instr) : Except DecodeError Instr :=
  if gapField w = 0 then
    if lenOk then .ok i else .error .byteCount
  else .error .nonzeroField

/-- Format R, bits [13:0] (rs3, msel, neg and the low bits) are zero. -/
def zeroFromRs3 (w : Word) : Bool :=
  rs3Field w == 0 && selField w == 0 && negField w == 0 && lowField w == 0

/-- Format R, bits [17:0] are zero. -/
def zeroFromRs2 (w : Word) : Bool := rs2Field w == 0 && zeroFromRs3 w

/-- Format R, bits [21:0] are zero. -/
def zeroFromRs1 (w : Word) : Bool := rs1Field w == 0 && zeroFromRs2 w

/-- Format R with msel, three registers: rs3, neg and the low bits are zero. -/
def zeroSel3 (w : Word) : Bool := rs3Field w == 0 && negField w == 0 && lowField w == 0

/-- Format R with msel, two registers: rs2 too is zero. -/
def zeroSel2 (w : Word) : Bool := rs2Field w == 0 && zeroSel3 w

/-- The command a word holds, or why it is illegal (R86 to R89). -/
def decode (w : Word) : Except DecodeError Instr :=
  match (opField w).toNat with
  | 0x00 => decodeZero (rdField w == 0 && immField w == 0) .nop
  | 0x01 => .ok (.ldi (regOf (rdField w)) (immField w))
  | 0x02 => decodeZero (zeroFromRs2 w) (.movx (regOf (rdField w)) (regOf (rs1Field w)))
  | 0x03 => decodeZero (rdField w == 0 && zeroFromRs3 w) (.cmpx (regOf (rs1Field w)) (regOf (rs2Field w)))
  | 0x04 => decodeLen w (integerLenOk (lenField w)) (.ldn (regOf (rdField w)) (lenField w) (addrField w))
  | 0x05 => decodeLen w (integerLenOk (lenField w)) (.stn (regOf (rdField w)) (lenField w) (addrField w))
  | 0x06 => decodeZero (rdField w == 0 && zeroFromRs2 w) (.setm (regOf (rs1Field w)))
  | 0x08 => decodeSel (zeroSel3 w) w (.modadd (regOf (rdField w)) (regOf (rs1Field w)) (regOf (rs2Field w)))
  | 0x09 => decodeSel (zeroSel3 w) w (.modsub (regOf (rdField w)) (regOf (rs1Field w)) (regOf (rs2Field w)))
  | 0x0A => decodeSel (zeroSel2 w) w (.modneg (regOf (rdField w)) (regOf (rs1Field w)))
  | 0x0B => decodeSel (zeroSel2 w) w (.modred (regOf (rdField w)) (regOf (rs1Field w)))
  | 0x0C => decodeSel (zeroSel3 w) w (.modmul (regOf (rdField w)) (regOf (rs1Field w)) (regOf (rs2Field w)))
  | 0x0D => decodeSel (zeroSel3 w) w (.montmul (regOf (rdField w)) (regOf (rs1Field w)) (regOf (rs2Field w)))
  | 0x0E => decodeSel (zeroSel3 w) w (.montred (regOf (rdField w)) (regOf (rs1Field w)) (regOf (rs2Field w)))
  | 0x0F => decodeSel (zeroSel2 w) w (.tomont (regOf (rdField w)) (regOf (rs1Field w)))
  | 0x10 => decodeSel (zeroSel2 w) w (.modinv (regOf (rdField w)) (regOf (rs1Field w)))
  | 0x11 => decodeSel (zeroSel2 w) w (.modsqrt (regOf (rdField w)) (regOf (rs1Field w)))
  | 0x18 => decodeZero (rdField w == 0 && selField w == 0 && negField w == 0 && lowField w == 0)
      (.domcrv (regOf (rs1Field w)) (regOf (rs2Field w)) (regOf (rs3Field w)))
  | 0x19 => decodeZero (rdField w == 0 && zeroFromRs3 w) (.domord (regOf (rs1Field w)) (regOf (rs2Field w)))
  | 0x1A => decodeZero (rdField w == 0 && zeroFromRs2 w) (.domgen (regOf (rs1Field w)))
  | 0x20 => decodeZero (zeroFromRs1 w) (.pinf (regOf (rdField w)))
  | 0x21 => decodeZero (zeroFromRs1 w) (.pgen (regOf (rdField w)))
  | 0x22 => decodeZero (zeroFromRs3 w) (.pset (regOf (rdField w)) (regOf (rs1Field w)) (regOf (rs2Field w)))
  | 0x23 => decodeZero (zeroFromRs2 w) (.pgetx (regOf (rdField w)) (regOf (rs1Field w)))
  | 0x24 => decodeZero (zeroFromRs2 w) (.pgety (regOf (rdField w)) (regOf (rs1Field w)))
  | 0x25 => decodeZero (zeroFromRs2 w) (.pmov (regOf (rdField w)) (regOf (rs1Field w)))
  | 0x26 => decodeZero (rdField w == 0 && zeroFromRs3 w) (.peq (regOf (rs1Field w)) (regOf (rs2Field w)))
  | 0x27 => decodeZero (rdField w == 0 && zeroFromRs2 w) (.pisinf (regOf (rs1Field w)))
  | 0x28 => decodeZero (zeroFromRs3 w) (.padd (regOf (rdField w)) (regOf (rs1Field w)) (regOf (rs2Field w)))
  | 0x29 => decodeZero (zeroFromRs2 w) (.pdbl (regOf (rdField w)) (regOf (rs1Field w)))
  | 0x2A => decodeZero (zeroFromRs2 w) (.pneg (regOf (rdField w)) (regOf (rs1Field w)))
  | 0x2B => decodeZero (rs3Field w == 0 && selField w == 0 && lowField w == 0)
      (.pmul (regOf (rdField w)) (regOf (rs1Field w)) (regOf (rs2Field w)) (negField w == 1))
  | 0x2C => decodeLen w (pointLenOk (lenField w)) (.pdec (regOf (rdField w)) (lenField w) (addrField w))
  | 0x2D => decodeLen w (lenField w == 0) (.penc (regOf (rdField w)) (addrField w))
  | 0x30 => decodeZero (rdField w == 0) (.hinit (immField w))
  | 0x31 => decodeLen w (lenField w == 0) (.hupd (regOf (rdField w)) (addrField w))
  | 0x32 => if rdField w = 0 then decodeLen w (lenField w == 0) (.hfin (addrField w)) else .error .nonzeroField
  | 0x33 => decodeZero (zeroFromRs1 w) (.htoe (regOf (rdField w)))
  | 0x38 => decodeZero (selField w == 0 && negField w == 0 && lowField w == 0)
      (.ecdsav (regOf (rdField w)) (regOf (rs1Field w)) (regOf (rs2Field w)) (regOf (rs3Field w)))
  | _ => .error .unassignedOpcode

/-- The command word of a table word of `nbits` bits. Every command is one 32-bit word (R75); the bits above `nbits`
are 0. -/
def tableWord (nbits w : Nat) : Word := BitVec.ofNat 32 (w % 2 ^ nbits)

/-- The instruction the decoder reads from a table word of `nbits` bits. -/
def decodeTableWord (nbits w : Nat) : Option Instr := (decode (tableWord nbits w)).toOption

/-! ## Encoding -/

/-- Format I (R78); format N (R77) is format I with both operand fields zero. -/
def packI (op : BitVec 6) (rd : BitVec 4) (imm : BitVec 22) : Word := op ++ rd ++ imm

/-- Format R (R79). -/
def packR (op : BitVec 6) (rd rs1 rs2 rs3 : BitVec 4) (sel : BitVec 2) (neg : BitVec 1) (low : BitVec 7) : Word :=
  op ++ rd ++ rs1 ++ rs2 ++ rs3 ++ sel ++ neg ++ low

/-- Format M (R80). -/
def packM (op : BitVec 6) (r : BitVec 4) (len : BitVec 7) (gap : BitVec 3) (addr : BitVec 12) : Word :=
  op ++ r ++ len ++ gap ++ addr

/-- Format R with register operands only; an unused register field is given as 0. -/
def encodeRegs (op : BitVec 6) (rd rs1 rs2 rs3 : Reg) : Word :=
  packR op (regBits rd) (regBits rs1) (regBits rs2) (regBits rs3) 0 0 0

/-- Format R with a modulus selector. -/
def encodeSel (op : BitVec 6) (rd rs1 rs2 : Reg) (sel : ModSel) : Word :=
  packR op (regBits rd) (regBits rs1) (regBits rs2) 0 (selBits sel) 0 0

/-- The word of an instruction, from the opcode map of R87. Every instruction is one word (R75). -/
def encode : Instr → Word
  | .nop => packI 0x00 0 0
  | .ldi rd imm => packI 0x01 (regBits rd) imm
  | .movx rd rs1 => encodeRegs 0x02 rd rs1 0 0
  | .cmpx rs1 rs2 => encodeRegs 0x03 0 rs1 rs2 0
  | .ldn r len addr => packM 0x04 (regBits r) len 0 addr
  | .stn r len addr => packM 0x05 (regBits r) len 0 addr
  | .setm rs1 => encodeRegs 0x06 0 rs1 0 0
  | .modadd rd rs1 rs2 sel => encodeSel 0x08 rd rs1 rs2 sel
  | .modsub rd rs1 rs2 sel => encodeSel 0x09 rd rs1 rs2 sel
  | .modneg rd rs1 sel => encodeSel 0x0A rd rs1 0 sel
  | .modred rd rs1 sel => encodeSel 0x0B rd rs1 0 sel
  | .modmul rd rs1 rs2 sel => encodeSel 0x0C rd rs1 rs2 sel
  | .montmul rd rs1 rs2 sel => encodeSel 0x0D rd rs1 rs2 sel
  | .montred rd rs1 rs2 sel => encodeSel 0x0E rd rs1 rs2 sel
  | .tomont rd rs1 sel => encodeSel 0x0F rd rs1 0 sel
  | .modinv rd rs1 sel => encodeSel 0x10 rd rs1 0 sel
  | .modsqrt rd rs1 sel => encodeSel 0x11 rd rs1 0 sel
  | .domcrv rs1 rs2 rs3 => encodeRegs 0x18 0 rs1 rs2 rs3
  | .domord rs1 rs2 => encodeRegs 0x19 0 rs1 rs2 0
  | .domgen rs1 => encodeRegs 0x1A 0 rs1 0 0
  | .pinf rd => encodeRegs 0x20 rd 0 0 0
  | .pgen rd => encodeRegs 0x21 rd 0 0 0
  | .pset rd rs1 rs2 => encodeRegs 0x22 rd rs1 rs2 0
  | .pgetx rd rs1 => encodeRegs 0x23 rd rs1 0 0
  | .pgety rd rs1 => encodeRegs 0x24 rd rs1 0 0
  | .pmov rd rs1 => encodeRegs 0x25 rd rs1 0 0
  | .peq rs1 rs2 => encodeRegs 0x26 0 rs1 rs2 0
  | .pisinf rs1 => encodeRegs 0x27 0 rs1 0 0
  | .padd rd rs1 rs2 => encodeRegs 0x28 rd rs1 rs2 0
  | .pdbl rd rs1 => encodeRegs 0x29 rd rs1 0 0
  | .pneg rd rs1 => encodeRegs 0x2A rd rs1 0 0
  | .pmul rd rs1 rs2 neg => packR 0x2B (regBits rd) (regBits rs1) (regBits rs2) 0 0 (if neg then 1 else 0) 0
  | .pdec r len addr => packM 0x2C (regBits r) len 0 addr
  | .penc r addr => packM 0x2D (regBits r) 0 0 addr
  | .hinit imm => packI 0x30 0 imm
  | .hupd r addr => packM 0x31 (regBits r) 0 0 addr
  | .hfin addr => packM 0x32 0 0 0 addr
  | .htoe rd => encodeRegs 0x33 rd 0 0 0
  | .ecdsav rd rs1 rs2 rs3 => encodeRegs 0x38 rd rs1 rs2 rs3

/-! ## The opcode table -/

/-- A row of the opcode table: its mask and match, whether it uses msel, and the byte counts it admits if it uses
len (R85, R86). Rows whose len must be 0 have it in their mask. -/
structure OpcodeRow where
  mask : Word
  pattern : Word
  usesSel : Bool
  lens : Option (Nat × Nat)
deriving DecidableEq, Repr

/-- The rows NOP to MODSQRT of spec/opcode_table.json. -/
def integerRows : List OpcodeRow :=
  [ ⟨0xFFFFFFFF, 0x00000000, false, none⟩
  , ⟨0xFC000000, 0x04000000, false, none⟩
  , ⟨0xFC03FFFF, 0x08000000, false, none⟩
  , ⟨0xFFC03FFF, 0x0C000000, false, none⟩
  , ⟨0xFC007000, 0x10000000, false, some (1, 32)⟩
  , ⟨0xFC007000, 0x14000000, false, some (1, 32)⟩
  , ⟨0xFFC3FFFF, 0x18000000, false, none⟩
  , ⟨0xFC003CFF, 0x20000000, true, none⟩
  , ⟨0xFC003CFF, 0x24000000, true, none⟩
  , ⟨0xFC03FCFF, 0x28000000, true, none⟩
  , ⟨0xFC03FCFF, 0x2C000000, true, none⟩
  , ⟨0xFC003CFF, 0x30000000, true, none⟩
  , ⟨0xFC003CFF, 0x34000000, true, none⟩
  , ⟨0xFC003CFF, 0x38000000, true, none⟩
  , ⟨0xFC03FCFF, 0x3C000000, true, none⟩
  , ⟨0xFC03FCFF, 0x40000000, true, none⟩
  , ⟨0xFC03FCFF, 0x44000000, true, none⟩ ]

/-- The rows DOMCRV to ECDSAV of spec/opcode_table.json. -/
def curveRows : List OpcodeRow :=
  [ ⟨0xFFC003FF, 0x60000000, false, none⟩
  , ⟨0xFFC03FFF, 0x64000000, false, none⟩
  , ⟨0xFFC3FFFF, 0x68000000, false, none⟩
  , ⟨0xFC3FFFFF, 0x80000000, false, none⟩
  , ⟨0xFC3FFFFF, 0x84000000, false, none⟩
  , ⟨0xFC003FFF, 0x88000000, false, none⟩
  , ⟨0xFC03FFFF, 0x8C000000, false, none⟩
  , ⟨0xFC03FFFF, 0x90000000, false, none⟩
  , ⟨0xFC03FFFF, 0x94000000, false, none⟩
  , ⟨0xFFC03FFF, 0x98000000, false, none⟩
  , ⟨0xFFC3FFFF, 0x9C000000, false, none⟩
  , ⟨0xFC003FFF, 0xA0000000, false, none⟩
  , ⟨0xFC03FFFF, 0xA4000000, false, none⟩
  , ⟨0xFC03FFFF, 0xA8000000, false, none⟩
  , ⟨0xFC003F7F, 0xAC000000, false, none⟩
  , ⟨0xFC007000, 0xB0000000, false, some (1, 65)⟩
  , ⟨0xFC3FF000, 0xB4000000, false, none⟩
  , ⟨0xFFC00000, 0xC0000000, false, none⟩
  , ⟨0xFC3FF000, 0xC4000000, false, none⟩
  , ⟨0xFFFFF000, 0xC8000000, false, none⟩
  , ⟨0xFC3FFFFF, 0xCC000000, false, none⟩
  , ⟨0xFC0003FF, 0xE0000000, false, none⟩ ]

/-- The rows of spec/opcode_table.json, in its order. -/
def opcodeTable : List OpcodeRow := integerRows ++ curveRows

/-- A word matches a row: conditions (2) to (4) of R86; the opcode of condition (1) is part of every mask. -/
def OpcodeRow.admits (row : OpcodeRow) (w : Word) : Bool :=
  w &&& row.mask == row.pattern && (!row.usesSel || selField w != 3) &&
    match row.lens with
    | none => true
    | some (low, high) => low ≤ (lenField w).toNat && (lenField w).toNat ≤ high

end Sys2Proof
end

