-- ==== Sys2Proof/Machine/Bytes.lean ====
section
/-! DEFINITION. Octet strings and integers: the primitives `be`, `be_n`, `bitlen` and `ceil8` of R11 and R12
(00_scope.md), and the little-endian words of the hash core (R57 20_memory.md). -/

namespace Sys2Proof.Machine

/-- `bitlen(v)`, the number of bits of v; `bitlen(0) = 0` (R11). -/
def bitlen (v : Nat) : Nat := if v = 0 then 0 else Nat.log2 v + 1

/-- `ceil8(k) = (k + 7) div 8` (R11). -/
def ceil8 (k : Nat) : Nat := (k + 7) / 8

/-- `be(s)`: the integer whose big-endian octet string is s (R12). -/
def beNat (bytes : List Byte) : Nat := bytes.foldl (fun acc b => acc * 256 + b.toNat) 0

/-- `be_n(v)`: the n-byte big-endian octet string of v (R12). Every caller establishes v < 2^(8n) first, as R12
requires, in all states the invariant admits; where v is larger these are its low n bytes (entry 12). -/
def beBytes : Nat → Nat → List Byte
  | 0, _ => []
  | n + 1, v => beBytes n (v / 256) ++ [BitVec.ofNat 8 v]

/-- `le32(s)`: the word whose little-endian bytes are b0, b1, b2, b3 (R12, R57, R197). -/
def leWord (b0 b1 b2 b3 : Byte) : Word := b3 ++ b2 ++ b1 ++ b0

/-- `le32bytes(w)`, the inverse of `leWord` (R12, R205). -/
def leBytes (w : Word) : List Byte :=
  [w.extractLsb' 0 8, w.extractLsb' 8 8, w.extractLsb' 16 8, w.extractLsb' 24 8]

/-- `rotl(w, r)` (R14). -/
def rotl (w : Word) (r : Nat) : Word := w.rotateLeft r

/-- A byte with its `8 - bits` low bits cleared: `v AND (0xFF << (8 - bits)) AND 0xFF` (R205, R210). -/
def keepHighBits (bits : Nat) (v : Byte) : Byte := v &&& (0xFF#8 <<< (8 - bits))

end Sys2Proof.Machine
end

