-- ==== Sys2Proof/Config.lean ====
section
/-! DEFINITION. What an implementation fixes and what the spec leaves free. The constants are those of R8
(00_scope.md). The `opaque` constants have no body: nothing can evaluate them, and a claim holds whatever they are. -/

namespace Sys2Proof.Config

/-- SPM_SIZE, the bytes of the scratchpad (R8, R50). -/
def spmSize : Nat := 4096

/-- QDEPTH, the entries of the command queue (R8, R31). -/
def queueDepth : Nat := 16

/-- The size in bytes of the host window (R34). -/
def windowSize : Nat := 8192

/-- The 8 KiB block of the system address map that holds the window (R9; OPEN in 92_eei_decisions.md D39).
DESIGN CHOICE (entry 4), safe: a constant without a value. -/
opaque windowBlock : Nat

/-- MMR_BASE, 8 KiB aligned (R8, 93_implementation_defined.md I4). -/
def mmrBase : Nat := windowSize * windowBlock

/-- The free draw of the SPM byte at an address that nothing has written since power-on number `powerOn`
(R73; I2). Entry 5, safe. -/
opaque powerOnByte (powerOn address : Nat) : Byte

/-- The free choice of R282 for one byte of an abandoned store: `true` when the byte holds its new value.
`draw` numbers the abandoned stores (I3). Entry 6, safe. -/
opaque abandonedByteIsNew (draw address : Nat) : Bool

end Sys2Proof.Config
end

