-- ==== Sys2Proof/Machine/State.lean ====
section
/-! DEFINITION. The state of the engine: every item of R47 (10_state.md), and the model's own fields (`FreeDraws`,
`BusState`) that hold the inputs of R45 and number the free draws of R73 and R282. Plain data throughout. -/

namespace Sys2Proof.Machine

/-- What stops a step: nothing does. Every command of the engine ends by retiring or by taking a fault of R240,
which is a next state with the error registers written (R244, R290). Entry 20, safe: the type is empty, so a proof
that a step ends this way cannot exist. -/
inductive Fault
deriving DecidableEq, Repr

/-- Why the model gives an instruction no meaning. -/
inductive Refusal where
  /-- Raised only by an arm of `exec` whose instruction has no meaning yet (there is none). Safe. -/
  | notModelled (mnemonic : String)
deriving DecidableEq, Repr

/-- The fault causes of R240 (60_exceptions.md), in the order of their codes 1 to 13. -/
inductive Cause where
  | eillegal
  | ebounds
  | erange
  | edomunset
  | emodulus
  | esingular
  | enoinv
  | enonresidue
  | esqrt
  | epoint
  | edecode
  | ehashseq
  | ehashlen
deriving DecidableEq, Repr

/-- What a point register holds (R22): no point, the point at infinity, or an affine value, which need not lie on
the curve. -/
inductive PointReg where
  | empty
  | inf
  | aff (x y : Big)
deriving DecidableEq, Repr

/-- The curve-domain registers DP, DA, DB, DN, DH, DG and the valid bits CRV, ORD, GEN (R25). -/
structure Domain where
  dp : Big
  da : Big
  db : Big
  dn : Big
  dh : Big
  dg : PointReg
  crv : Bool
  ord : Bool
  gen : Bool
deriving DecidableEq, Repr

/-- The general modulus M and its valid bit MV (R28). -/
structure GenMod where
  m : Big
  mv : Bool
deriving DecidableEq, Repr

/-- The states of the hash core (R29). -/
inductive HashPhase where
  | idle
  | absorb
  | finalbits
deriving DecidableEq, Repr

/-- The hash-core state HSTATE, CV, BUF, BPOS, RB, HL (R29), each with the value set of the rule. -/
structure HashState where
  phase : HashPhase
  cv : Vector Word 16
  buf : Vector Byte 128
  bpos : Fin 128
  rb : Fin 8
  hl : Fin 257
deriving DecidableEq, Repr

/-- The digest registers HD, HDLEN, HDV (R30). -/
structure Digest where
  hd : Vector Byte 32
  hdlen : Fin 257
  hdv : Bool
deriving DecidableEq, Repr

/-- The error state ERR, ERRCAUSE, ERRCMD, ERRIDX (R33). -/
structure ErrorState where
  err : Bool
  cause : Byte
  cmd : Word
  idx : Word
deriving DecidableEq, Repr

/-- The two bits of IRQ_EN (DONE_EN, ERR_EN) or of IRQ_STATUS (DONE, ERRP), bit 0 first (R38). -/
structure IrqBits where
  done : Bool
  err : Bool
deriving DecidableEq, Repr

/-- The scratchpad (R50): the bytes written since power-on, addresses strictly rising. An address that is not listed
holds the free draw of R73 (entry 5). -/
abbrev Memory := List Host.Cell

/-- The width of a host access: 1, 2 or 4 bytes (R53, R58). -/
inductive AccessWidth where
  | byte
  | half
  | word
deriving DecidableEq, Repr

/-- A host access to the window, at an offset below 8 KiB (R34, R51). -/
inductive BusAccess where
  | read (offset : BitVec 13) (width : AccessWidth)
  /-- A narrow write takes its bytes from the low end of `data` (R53). -/
  | write (offset : BitVec 13) (width : AccessWidth) (data : Word)
deriving DecidableEq, Repr

/-- An access and the bus master that makes it (R257). -/
structure BusRequest where
  master : Nat
  access : BusAccess
deriving DecidableEq, Repr

/-- The answer to a completed access: a bus error or not (R54, R58), and the data of a read. -/
structure BusResponse where
  master : Nat
  busError : Bool
  data : Word
deriving DecidableEq, Repr

/-- What comes from outside the engine (R45), in the order it comes, and the turns the engine gets in between
(entry 2). -/
inductive Input where
  /-- A host access (R34, R52). -/
  | bus (request : BusRequest)
  /-- The engine makes one move here: it starts a command, or ends the one in execution. -/
  | engineTurn
  /-- A hardware reset that is not a power-on (R277). -/
  | hardwareReset
  /-- A power-on (R277). -/
  | powerOn
deriving DecidableEq, Repr

/-- The bus side, the MODEL's own: the inputs to come, the accesses that wait (R64, R65), the answers given. -/
structure BusState where
  inputs : List Input
  stalled : List BusRequest
  responses : List BusResponse
deriving DecidableEq, Repr

/-- The counters that number the free draws, the MODEL's own: power-ons (R73) and abandoned stores (R282). -/
structure FreeDraws where
  powerOns : Nat
  abandons : Nat
deriving DecidableEq, Repr

/-- The state of the engine (R47). -/
structure State where
  /-- X1 to X15 (R20); X0 is not stored (R21). -/
  x : Vector Big 15
  /-- PT0 to PT15 (R22). -/
  pt : Vector PointReg 16
  /-- The flag F (R24). -/
  f : Bool
  dom : Domain
  gmod : GenMod
  hash : HashState
  digest : Digest
  spm : Memory
  /-- The command queue, the oldest word first (R31). -/
  queue : List Word
  /-- The command in execution, which has left the queue (R31, R47). -/
  inExec : Option Word
  /-- The program counter CMDIDX (R32). -/
  cmdidx : Word
  errs : ErrorState
  irqEn : IrqBits
  irqStatus : IrqBits
  free : FreeDraws
  bus : BusState
deriving DecidableEq, Repr

/-- The machine right after reset: the reset table R278 (70_reset_and_hazards.md); the SPM lists nothing (R73) and
the model's own fields are empty or 0 (entries 2, 5, 6, 18). -/
def State.reset : State where
  x := Vector.replicate 15 0
  pt := Vector.replicate 16 .empty
  f := false
  dom := { dp := 0, da := 0, db := 0, dn := 0, dh := 0, dg := .empty, crv := false, ord := false, gen := false }
  gmod := { m := 0, mv := false }
  hash := { phase := .idle, cv := Vector.replicate 16 0, buf := Vector.replicate 128 0, bpos := 0, rb := 0, hl := 0 }
  digest := { hd := Vector.replicate 32 0, hdlen := 0, hdv := false }
  spm := []
  queue := []
  inExec := none
  cmdidx := 0
  errs := { err := false, cause := 0, cmd := 0, idx := 0 }
  irqEn := { done := false, err := false }
  irqStatus := { done := false, err := false }
  free := { powerOns := 0, abandons := 0 }
  bus := { inputs := [], stalled := [], responses := [] }

end Sys2Proof.Machine
end

