-- ==== Sys2Proof/Machine/Arith.lean ====
section
/-! DEFINITION. Exact modular arithmetic on unbounded integers (R11 00_scope.md): difference, power, inverse and the
square root of R137 (42_sqrt.md). A function that may `raise` answers an `Except`. -/

namespace Sys2Proof.Machine

/-- `(a − b) mod m`, the mathematical residue in [0, m − 1] also for a negative difference (R11). -/
def subMod (a b m : Nat) : Nat := (((a : Int) - (b : Int)) % (m : Int)).toNat

/-- One pass over the `count` low bits of the exponent, most significant first. -/
def powLoop (m base e : Nat) : Nat → Nat → Nat
  | 0, acc => acc
  | i + 1, acc =>
    if e.testBit i then powLoop m base e i (acc * acc % m * base % m)
    else powLoop m base e i (acc * acc % m)

/-- `base^e mod m` (R11), by squaring; `powMod_eq` in Laws/Arith.lean says that it is the power. -/
def powMod (base e m : Nat) : Nat := powLoop m base e (bitlen e) (1 % m)

/-- The extended Euclidean algorithm on (r0, r1), with the cofactors t0, t1 of the operand kept modulo m. -/
def invLoop (m : Nat) : Nat → Nat → Nat → Nat → Nat → Nat
  | 0, _, _, t0, _ => t0
  | fuel + 1, r0, r1, t0, t1 =>
    if r1 = 0 then t0
    else invLoop m fuel r1 (r0 % r1) t1 (subMod t0 (r0 / r1 * t1) m)

/-- `inv(a, m)` (R11): the unique x in [1, m − 1] with a·x mod m = 1, when gcd(a mod m, m) = 1
(`invMod_spec` in Laws/Arith.lean). -/
def invMod (a m : Nat) : Nat := invLoop m (m + 1) m (a % m) 0 (1 % m)

/-- `Inv(v)` of R155 and the inverse of R123 and R231: the operand is reduced first, and a value that shares a factor
with the modulus raises ENOINV. -/
def inverse (v m : Nat) : Except Cause Nat :=
  if Nat.gcd (v % m) m = 1 then .ok (invMod (v % m) m) else .error .enoinv

/-- `n = Q · 2^S` with Q odd: answers (Q, S) after at most `fuel` halvings. -/
def splitTwos : Nat → Nat → Nat → Nat × Nat
  | 0, n, s => (n, s)
  | fuel + 1, n, s => if n % 2 = 0 then splitTwos fuel (n / 2) (s + 1) else (n, s)

/-- The least z, from `z` on and at most `fuel` candidates, with z^((m−1)/2) mod m = m − 1 (R137). -/
def findNonResidue (m : Nat) : Nat → Nat → Option Nat
  | 0, _ => none
  | fuel + 1, z =>
    if powMod z ((m - 1) / 2) m = m - 1 then some z else findNonResidue m fuel (z + 1)

/-- The least i with 1 ≤ i < mv and t^(2^i) mod m = 1 (R137). -/
def leastOrder (m t mv : Nat) : Option Nat :=
  (List.range' 1 (mv - 1)).find? (fun i => powMod t (2 ^ i) m == 1)

/-- The `while` loop of R137 on (Mv, c, t, r); ESQRT is raised when no i exists. Mv strictly decreases, so `fuel`,
which starts at Mv, does not run out while the loop has an i (`tonelliLoop` on fuel 0 is then never asked for one). -/
def tonelliLoop (m : Nat) : Nat → Nat → Nat → Nat → Nat → Except Cause Nat
  | 0, _, _, t, r => if t = 1 then .ok r else .error .esqrt
  | fuel + 1, mv, c, t, r =>
    if t = 1 then .ok r
    else
      match leastOrder m t mv with
      | none => .error .esqrt
      | some i =>
        let b := powMod c (2 ^ (mv - i - 1)) m
        let c' := b * b % m
        tonelliLoop m fuel i c' (t * c' % m) (r * b % m)

/-- The function Sqrt, normative for this hardware (R136, R137). -/
def sqrtMod (v m : Nat) : Except Cause Nat :=
  let a := v % m
  if a = 0 then .ok 0
  else if powMod a ((m - 1) / 2) m ≠ 1 then .error .enonresidue
  else
    let qs := splitTwos (bitlen (m - 1)) (m - 1) 0
    match findNonResidue m (m - 2) 2 with
    | none => .error .esqrt
    | some z =>
      match tonelliLoop m qs.2 qs.2 (powMod z qs.1 m) (powMod a qs.1 m) (powMod a ((qs.1 + 1) / 2) m) with
      | .error c => .error c
      | .ok r => if r * r % m = a then .ok r else .error .esqrt

end Sys2Proof.Machine
end

