-- ==== Sys2Proof/Machine/Curve.lean ====
section
/-! DEFINITION. The point functions PointAdd, PointNeg and ScalarMul, normative for this hardware (R155, R158
44_point.md). Coordinates are integers; `p` and `a` are those of the domain. -/

namespace Sys2Proof.Machine

/-- The values the point functions work on (R155): the point at infinity, or affine coordinates. -/
inductive Point where
  | inf
  | aff (x y : Nat)
deriving DecidableEq, Repr

/-- The last two lines of R155: the third point of the chord or tangent of slope `l`. -/
def chordPoint (p l x1 y1 x2 : Nat) : Point :=
  let x3 := subMod (l * l) (x1 + x2) p
  .aff x3 (subMod (l * subMod x1 x3 p) y1 p)

/-- PointAdd (R155, R156). -/
def pointAdd (p a : Nat) : Point → Point → Except Cause Point
  | .inf, q => .ok q
  | q, .inf => .ok q
  | .aff x1 y1, .aff x2 y2 =>
    if x1 ≠ x2 then
      match inverse (subMod x2 x1 p) p with
      | .error c => .error c
      | .ok d => .ok (chordPoint p (subMod y2 y1 p * d % p) x1 y1 x2)
    else if y1 ≠ y2 then .ok .inf
    else if y1 = 0 then .ok .inf
    else
      match inverse (2 * y1) p with
      | .error c => .error c
      | .ok d => .ok (chordPoint p ((3 * x1 * x1 + a) * d % p) x1 y1 x2)

/-- PointNeg (R158): INF is its own negative. -/
def pointNeg (p : Nat) : Point → Point
  | .inf => .inf
  | .aff x y => .aff x (subMod 0 y p)

/-- The loop of ScalarMul over the `count` low bits of k, most significant first (R158). -/
def scalarLoop (p a : Nat) (q : Point) (k : Nat) : Nat → Point → Except Cause Point
  | 0, r => .ok r
  | i + 1, r =>
    match pointAdd p a r r with
    | .error c => .error c
    | .ok r2 =>
      if k.testBit i then
        match pointAdd p a r2 q with
        | .error c => .error c
        | .ok r3 => scalarLoop p a q k i r3
      else scalarLoop p a q k i r2

/-- ScalarMul (R158): double-and-add, the scalar not reduced by anything. -/
def scalarMul (p a : Nat) (q : Point) (k : Nat) : Except Cause Point := scalarLoop p a q k (bitlen k) .inf

/-- Verify (R231), with the order of evaluation the rule fixes: range check, inverse, the two scalar
multiplications, the addition. `g` is the base point, `n` the group order. -/
def verifySignature (p a n : Nat) (g : Point) (e r s : Nat) (q : Point) : Except Cause Bool :=
  if 1 ≤ r ∧ r ≤ n - 1 ∧ 1 ≤ s ∧ s ≤ n - 1 then
    match inverse s n with
    | .error c => .error c
    | .ok w =>
      match scalarMul p a g (e * w % n) with
      | .error c => .error c
      | .ok p1 =>
        match scalarMul p a q (r * w % n) with
        | .error c => .error c
        | .ok p2 =>
          match pointAdd p a p1 p2 with
          | .error c => .error c
          | .ok .inf => .ok false
          | .ok (.aff x _) => .ok (x % n == r)
  else .ok false

end Sys2Proof.Machine
end

