-- ==== Sys2Proof/Machine/HashCore.lean ====
section
/-! DEFINITION. The functions of the hash core, section 1 of 46_hash.md (R195 to R207). -/

namespace Sys2Proof.Machine

/-- A chaining value or a sub-message: sixteen words (R195). -/
abbrev Words16 := Vector Word 16

/-- The eight step constants of one step (R196). -/
abbrev StepConsts := Vector Word 8

/-- SC_0 (R196). -/
def stepConst0 : StepConsts :=
  #v[0x917caf90, 0x6c1b10a2, 0x6f352943, 0xcf778243, 0x2ceb7472, 0x29e96ff2, 0x8a9ba428, 0x2eeb2642]

/-- SC_j from SC_{j−1} (R196). -/
def nextStepConst (c : StepConsts) : StepConsts := c.map fun v => v + rotl v 8

/-- The expansion permutation τ (R197). -/
def tau : Vector (Fin 16) 16 := #v[3, 2, 0, 1, 7, 4, 5, 6, 11, 10, 8, 9, 15, 12, 13, 14]

/-- The word permutation σ (R200). -/
def sigma : Vector (Fin 16) 16 := #v[6, 4, 5, 7, 12, 15, 14, 13, 2, 0, 1, 3, 8, 11, 10, 9]

/-- The rotation amounts γ (R199). -/
def gamma : Vector Nat 8 := #v[0, 8, 16, 24, 24, 16, 8, 0]

/-- Word i of a block, read little-endian (R197, R57). -/
def blockWord (block : Vector Byte 128) (i : Fin 32) : Word :=
  leWord block[4 * i.val] block[4 * i.val + 1] block[4 * i.val + 2] block[4 * i.val + 3]

/-- The sub-message M_0 of a block (R197). -/
def subMessage0 (block : Vector Byte 128) : Words16 := Vector.ofFn fun l => blockWord block ⟨l.val, by omega⟩

/-- The sub-message M_1 of a block (R197). -/
def subMessage1 (block : Vector Byte 128) : Words16 := Vector.ofFn fun l => blockWord block ⟨16 + l.val, by omega⟩

/-- The recurrence of R197: M_j from M_{j−2} and M_{j−1}. -/
def nextSubMessage (m2 m1 : Words16) : Words16 := Vector.ofFn fun l => m1[l] + m2[tau[l]]

/-- Mix (R199). -/
def mix (x y : Word) (alpha beta : Nat) (c : Word) (gam : Nat) : Word × Word :=
  let x1 := rotl (x + y) alpha ^^^ c
  let y1 := rotl (x1 + y) beta
  (x1 + y1, rotl y1 gam)

/-- The mix of all eight word pairs of a step (R198), from the words after the message addition. -/
def mixAll (t : Words16) (alpha beta : Nat) (sc : StepConsts) : Words16 :=
  Vector.ofFn fun l =>
    if h : l.val < 8 then (mix t[l] t[l.val + 8] alpha beta sc[l.val] gamma[l.val]).1
    else (mix t[l.val - 8] t[l] alpha beta sc[l.val - 8] gamma[l.val - 8]).2

/-- The word permutation (R200): new T[l] = old T[σ(l)]. -/
def permuteWords (t : Words16) : Words16 := Vector.ofFn fun l => t[sigma[l]]

/-- The exclusive or of two arrays of words. -/
def xorWords (a b : Words16) : Words16 := Vector.ofFn fun l => a[l] ^^^ b[l]

/-- Step j of Compress (R198): message addition, mix with the rotation pair of j's parity, permutation. -/
def hashStep (j : Nat) (m : Words16) (c : StepConsts) (t : Words16) : Words16 :=
  if j % 2 = 0 then permuteWords (mixAll (xorWords t m) 29 1 c)
  else permuteWords (mixAll (xorWords t m) 5 17 c)

/-- The `count` steps that start at step j, with M_j = m0, M_{j+1} = m1 and SC_j = c; at the end the next
sub-message (M_26) is exclusive-ored into the words (R198). -/
def hashSteps : Nat → Nat → Words16 → Words16 → StepConsts → Words16 → Words16
  | 0, _, m0, _, _, t => xorWords t m0
  | count + 1, j, m0, m1, c, t =>
    hashSteps count (j + 1) m1 (nextSubMessage m0 m1) (nextStepConst c) (hashStep j m0 c t)

/-- Compress (R198): 26 steps, sub-messages M_0 to M_26. -/
def compress (cv : Words16) (block : Vector Byte 128) : Words16 :=
  hashSteps 26 0 (subMessage0 block) (subMessage1 block) stepConst0 cv

/-- The seed (32, L, 0, …) of R201. -/
def ivSeed (len : Nat) : Words16 := #v[32, BitVec.ofNat 32 len, 0, 0, 0, 0, 0, 0, 0, 0, 0, 0, 0, 0, 0, 0]

/-- IV(L) (R201). R202 lists its values for L = 256 and L = 224; one rule serves every length (C3, entry 21). -/
def iv (len : Nat) : Words16 := compress (ivSeed len) (Vector.replicate 128 0)

/-- Pad (R204): the set bit after the message, then zeros to the end of the block. -/
def pad (buf : Vector Byte 128) (bpos : Fin 128) (rb : Nat) : Vector Byte 128 :=
  Vector.ofFn fun k =>
    if k < bpos then buf[k]
    else if k = bpos then
      if rb = 0 then 0x80 else keepHighBits rb buf[k] ||| (0x80#8 >>> rb)
    else 0

/-- The fold of sixteen words to eight (R205). -/
def fold8 (cv : Words16) : Vector Word 8 :=
  Vector.ofFn fun i => cv[i.val] ^^^ cv[i.val + 8]

/-- Finish (R205): fold, serialize little-endian, truncate to ceil8(L) bytes, mask the last byte when L is not a
multiple of 8. -/
def finish (cv : Words16) (len : Nat) : List Byte :=
  let bytes := ((fold8 cv).toList.flatMap leBytes).take (ceil8 len)
  if len % 8 = 0 then bytes else bytes.modify (ceil8 len - 1) (keepHighBits (len % 8))

/-- Absorb (R206) one byte: store it; the 128th byte compresses the block at once. -/
def absorb (h : HashState) (v : Byte) : HashState :=
  let buf := h.buf.set h.bpos.val v
  if room : h.bpos.val + 1 < 128 then { h with buf := buf, bpos := ⟨h.bpos.val + 1, room⟩ }
  else { h with cv := compress h.cv buf, buf := buf, bpos := 0 }

/-- Absorb a string of bytes in order (R210). -/
def absorbAll (h : HashState) (bytes : List Byte) : HashState := bytes.foldl absorb h

/-- The partial last byte of R210: its `bits` high bits go to BUF[BPOS] and the state becomes FINALBITS. -/
def absorbBits (h : HashState) (v : Byte) (bits : Fin 8) : HashState :=
  { h with buf := h.buf.set h.bpos.val (keepHighBits bits.val v), rb := bits, phase := .finalbits }

/-- The hash state HINIT leaves (R209). -/
def startedHash (len : Fin 257) : HashState where
  phase := .absorb
  cv := iv len.val
  buf := Vector.replicate 128 0
  bpos := 0
  rb := 0
  hl := len

/-- The hash state HFIN and reset leave (R211, R278). -/
def idleHash : HashState where
  phase := .idle
  cv := Vector.replicate 16 0
  buf := Vector.replicate 128 0
  bpos := 0
  rb := 0
  hl := 0

/-- The digest of the state's message (R211): pad, compress once more, finish. -/
def digestBytes (h : HashState) : List Byte :=
  finish (compress h.cv (pad h.buf h.bpos h.rb.val)) h.hl.val

/-- The hash function of R207 on whole bytes and a partial last byte of `rb` bits (rb = 0: none), written as the rule
does: complete blocks first, then one padded block. `fuel` bounds the number of blocks. -/
def hashBlocks : Nat → Words16 → List Byte → Words16 × List Byte
  | 0, cv, rest => (cv, rest)
  | fuel + 1, cv, rest =>
    if rest.length < 128 then (cv, rest)
    else hashBlocks fuel (compress cv (Vector.ofFn fun k => rest.getD k.val 0)) (rest.drop 128)

/-- Hash(msg, N, L) (R207) for a message of the complete bytes `whole` and, when rb ≠ 0, the rb high bits of `last`. -/
def hashMessage (whole : List Byte) (rb : Nat) (last : Byte) (len : Nat) : List Byte :=
  let r := hashBlocks whole.length (iv len) whole
  let rest := if rb = 0 then r.2 else r.2 ++ [last]
  finish (compress r.1 (pad (Vector.ofFn fun k => rest.getD k.val 0) (Fin.ofNat 128 r.2.length) rb)) len

end Sys2Proof.Machine
end

