-- ==== Sys2Proof/Machine/Ops.lean ====
section
/-! DEFINITION. The operations every command is made of: the scratchpad (R50, R55 20_memory.md), the writes of the
registers (R12 00_scope.md, R20 to R30 10_state.md), retiring (R32, R250), taking a fault and returning from one
(R244 to R247 60_exceptions.md). -/

namespace Sys2Proof.Machine

/-- What a command answers. -/
abbrev Result := Host.Outcome State Fault Refusal

/-! ## The scratchpad -/

/-- The byte last written to an address since power-on, if any. -/
def memLookup : Memory → Nat → Option Byte
  | [], _ => none
  | (k, v) :: rest, a => if k = a then some v else memLookup rest a

/-- Write one byte, keeping the addresses strictly rising. -/
def memStore : Memory → Nat → Byte → Memory
  | [], a, v => [(a, v)]
  | (k, u) :: rest, a, v =>
    if a < k then (a, v) :: (k, u) :: rest
    else if a = k then (a, v) :: rest
    else (k, u) :: memStore rest a v

/-- Write a string of bytes at rising addresses (`MemWrite`, R12). -/
def memStoreAll : Memory → Nat → List Byte → Memory
  | mem, _, [] => mem
  | mem, a, b :: rest => memStoreAll (memStore mem a b) (a + 1) rest

/-- The addresses listed are strictly rising, above `low` and inside the scratchpad. -/
def Memory.wfFrom : Nat → Memory → Bool
  | _, [] => true
  | low, (k, _) :: rest => low ≤ k && k < Config.spmSize && Memory.wfFrom (k + 1) rest

/-- The canonical form of a memory: addresses strictly rising, all of them SPM addresses (R50). An unlisted address
holds no written byte, so no entry can repeat what an unlisted address holds (entry 5). -/
def Memory.wf (mem : Memory) : Bool := Memory.wfFrom 0 mem

/-- `SPM[a]` (R12): the byte written last, else the free draw of the current power-on (R73). -/
def readByte (s : State) (a : Nat) : Byte :=
  (memLookup s.spm a).getD (Config.powerOnByte s.free.powerOns a)

/-- `MemRead(a, n)` (R12). -/
def memRead (s : State) (a n : Nat) : List Byte := (List.range n).map fun k => readByte s (a + k)

/-- `MemWrite(a, n, bytes)` with n the length of `bytes` (R12). -/
def memWrite (s : State) (a : Nat) (bytes : List Byte) : State := { s with spm := memStoreAll s.spm a bytes }

/-- The range a … a + n − 1 lies in the scratchpad (R55): nothing wraps. -/
def inBounds (a n : Nat) : Bool := a + n ≤ Config.spmSize

/-! ## Registers -/

/-- `X[i]` (R12); X0 reads 0 (R21). -/
def readX (s : State) (r : Reg) : Big := if h : r = 0 then 0 else s.x[r.val - 1]

/-- `X[i] <- v` (R12); a write to X0 is discarded (R21). -/
def writeX (s : State) (r : Reg) (v : Big) : State :=
  if h : r = 0 then s else { s with x := s.x.set (r.val - 1) v }

/-- `X[i] <- v` for an integer v, which the caller's rule establishes to be below 2^256 (R11). -/
def writeXNat (s : State) (r : Reg) (v : Nat) : State := writeX s r (BitVec.ofNat 256 v)

/-- `PT[i]` (R12). -/
def readPT (s : State) (r : Reg) : PointReg := s.pt[r]

/-- `PT[i] <- v` (R12). -/
def writePT (s : State) (r : Reg) (v : PointReg) : State := { s with pt := s.pt.set r.val v }

/-- `F <- b` (R12, R24). -/
def writeF (s : State) (b : Bool) : State := { s with f := b }

/-- Write the domain registers (R25). -/
def writeDomain (s : State) (d : Domain) : State := { s with dom := d }

/-- Every point register becomes EMPTY (R146). -/
def emptyPoints (s : State) : State := { s with pt := Vector.replicate 16 .empty }

/-- `M <- v; MV <- 1` (R113). -/
def writeModulus (s : State) (v : Big) : State := { s with gmod := { m := v, mv := true } }

/-- Write the hash-core state (R29). -/
def writeHash (s : State) (h : HashState) : State := { s with hash := h }

/-- HD[0 .. 31] from the digest bytes (R30): the bytes, then zeros. Irreducible, so that no comparison of states
unfolds the 32 bytes. -/
@[irreducible] def hdOf (bytes : List Byte) : Vector Byte 32 := Vector.ofFn fun i => bytes.getD i.val 0

/-- Write the digest registers (R30): HD, HDLEN; HDV = 1. -/
def writeDigest (s : State) (bytes : List Byte) (len : Fin 257) : State :=
  { s with digest := { hd := hdOf bytes, hdlen := len, hdv := true } }

/-! ## Interrupt bits -/

/-- No bit of IRQ_EN or IRQ_STATUS. -/
def noIrq : IrqBits := { done := false, err := false }

/-- The next IRQ_STATUS from what the hardware sets and what the host clears; a bit both set and cleared stays set
(R38). Entry 13. -/
def irqNext (old hwSet hostClear : IrqBits) : IrqBits where
  done := (old.done && !hostClear.done) || hwSet.done
  err := (old.err && !hostClear.err) || hwSet.err

/-- The interrupt output (R252). -/
def irqLine (s : State) : Bool :=
  (s.irqStatus.done && s.irqEn.done) || (s.irqStatus.err && s.irqEn.err)

/-! ## Retiring, faulting and the return from a fault -/

/-- A command retires: CMDIDX + 1 modulo 2^32 (R32), no command in execution, and DONE when the queue is empty
(R250). -/
def retired (s : State) : State :=
  { s with
    cmdidx := s.cmdidx + 1
    inExec := none
    irqStatus := irqNext s.irqStatus { done := s.queue.isEmpty, err := false } noIrq }

/-- The command ends by retiring with the effects in `s`. -/
def retire (s : State) : Result := .next (retired s)

/-- The cause codes of R240. -/
def causeCode : Cause → Byte
  | .eillegal => 1
  | .ebounds => 2
  | .erange => 3
  | .edomunset => 4
  | .emodulus => 5
  | .esingular => 6
  | .enoinv => 7
  | .enonresidue => 8
  | .esqrt => 9
  | .epoint => 10
  | .edecode => 11
  | .ehashseq => 12
  | .ehashlen => 13

/-- The word of the command in execution (R31). `exec` runs only with a command in execution; without one the word
is taken as 0, in states no run reaches (entry 10). -/
def currentWord (s : State) : Word := s.inExec.getD 0

/-- Fault entry (R244), the one operation that takes a fault: the error registers and ERRP are written, the queue is
flushed (R245), CMDIDX and everything else stay. -/
def takeFault (c : Cause) (s : State) : State :=
  { s with
    errs := { err := true, cause := causeCode c, cmd := currentWord s, idx := s.cmdidx }
    irqStatus := irqNext s.irqStatus { done := false, err := true } noIrq
    queue := []
    inExec := none }

/-- `raise E` (R12): the command ends with fault cause E. `s` is the state before the command (R244). -/
def raise (c : Cause) (s : State) : Result := .next (takeFault c s)

/-- Fault return by CTRL.ERRCLR (R247, R35): ERR becomes 0, the recorded cause, word and index stay. -/
def clearError (s : State) : State := { s with errs := { s.errs with err := false } }

/-- The command ends with the value of a pseudocode function that may raise: with the state `k` makes of it, or with
the fault it raises in the state before the command. -/
def finishWith {α : Type} (r : Except Cause α) (s : State) (k : α → State) : Result :=
  match r with
  | .ok v => retire (k v)
  | .error c => raise c s

end Sys2Proof.Machine
end

