-- ==== Sys2Proof/Machine/Operands.lean ====
section
/-! DEFINITION. The operand forms of the commands: X registers as integers, point registers as points, the modulus
selector (R112 41_modular.md), the checks every point command makes (44_point.md section 2). -/

namespace Sys2Proof.Machine

/-- `X[i]` as the unsigned integer it holds (R10). -/
def xNat (s : State) (r : Reg) : Nat := (readX s r).toNat

/-- The modulus a domain or modulus register holds, unless it is not configured. -/
def configured (valid : Bool) (v : Big) : Except Cause Nat :=
  if valid then .ok v.toNat else .error .edomunset

/-- Modulus(msel) (R112). -/
def modulus (s : State) : ModSel → Except Cause Nat
  | .p => configured s.dom.crv s.dom.dp
  | .n => configured s.dom.ord s.dom.dn
  | .m => configured s.gmod.mv s.gmod.m

/-- The modulus check of SETM, DOMCRV and DOMORD (R113, R145, R148): odd and at least 3. -/
def modulusOk (v : Nat) : Bool := v % 2 == 1 && 3 ≤ v

/-- The point a point register holds; EMPTY holds none (R23). -/
def PointReg.toPoint : PointReg → Option Point
  | .empty => none
  | .inf => some .inf
  | .aff x y => some (.aff x.toNat y.toNat)

/-- The register value of a point, whose coordinates the caller's rule establishes to be below p (R22). -/
def Point.toReg : Point → PointReg
  | .inf => .inf
  | .aff x y => .aff (BitVec.ofNat 256 x) (BitVec.ofNat 256 y)

/-- The point in `PT[i]`, if it holds one. -/
def ptPoint (s : State) (r : Reg) : Option Point := (readPT s r).toPoint

/-- The first two checks of every point command, in the order of R243: EDOMUNSET without a curve, then EPOINT for an
EMPTY source. -/
def curvePoint (s : State) (r : Reg) : Except Cause Point :=
  if s.dom.crv then
    match ptPoint s r with
    | some q => .ok q
    | none => .error .epoint
  else .error .edomunset

/-- p as an integer. -/
def fieldP (s : State) : Nat := s.dom.dp.toNat

/-- a as an integer. -/
def coeffA (s : State) : Nat := s.dom.da.toNat

/-- b as an integer. -/
def coeffB (s : State) : Nat := s.dom.db.toNat

/-- plen, the byte length of p (R17, R19). -/
def plen (s : State) : Nat := ceil8 (bitlen (fieldP s))

/-- The SPM address of an addr field, used as it is (R50, R82). -/
def spmAddr (a : BitVec 12) : Nat := a.toNat

end Sys2Proof.Machine
end

