-- ==== Sys2Proof/Machine/Flags.lean ====
section
/-! DEFINITION. Every value the flag F takes (R24 10_state.md): the results of CMPX, PEQ, PISINF, PGETX, PGETY; the
result of ECDSAV is `verifySignature` (R231). No other command writes F. -/

namespace Sys2Proof.Machine

/-- F of CMPX (R103): equality of the full 256-bit values. -/
def flagXEqual (a b : Big) : Bool := a == b

/-- F of PEQ (R165), the point equality of R158. -/
def flagPointsEqual (q r : Point) : Bool := q == r

/-- F of PISINF, PGETX and PGETY (R162, R163, R166): the point is INF. -/
def flagIsInf : Point → Bool
  | .inf => true
  | .aff _ _ => false

end Sys2Proof.Machine
end

