-- ==== Sys2Proof/Machine/DataMove.lean ====
section
/-! DEFINITION. Data movement and comparison commands (40_data_movement.md). All sources are read before any
destination is written (R106). -/

namespace Sys2Proof.Machine

/-- NOP (R100). -/
def execNop (s : State) : Result := retire s

/-- LDI (R101). -/
def execLdi (rd : Reg) (imm : BitVec 22) (s : State) : Result :=
  retire (writeX s rd (imm.setWidth 256))

/-- MOVX (R102). -/
def execMovx (rd rs1 : Reg) (s : State) : Result :=
  retire (writeX s rd (readX s rs1))

/-- CMPX (R103). -/
def execCmpx (rs1 rs2 : Reg) (s : State) : Result :=
  retire (writeF s (flagXEqual (readX s rs1) (readX s rs2)))

/-- LDN (R104). A byte count outside 1 to 32 has no encoding and is EILLEGAL (R85, entry 11). -/
def execLdn (r : Reg) (len : BitVec 7) (addr : BitVec 12) (s : State) : Result :=
  if !integerLenOk len then raise .eillegal s
  else if !inBounds (spmAddr addr) len.toNat then raise .ebounds s
  else retire (writeXNat s r (beNat (memRead s (spmAddr addr) len.toNat)))

/-- The bytes STN stores (R105), or the fault it raises: EBOUNDS before ERANGE. -/
def stnBytes (r : Reg) (len : BitVec 7) (addr : BitVec 12) (s : State) : Except Cause (List Byte) :=
  if !integerLenOk len then .error .eillegal
  else if !inBounds (spmAddr addr) len.toNat then .error .ebounds
  else if 2 ^ (8 * len.toNat) ≤ xNat s r then .error .erange
  else .ok (beBytes len.toNat (xNat s r))

/-- STN (R105). -/
def execStn (r : Reg) (len : BitVec 7) (addr : BitVec 12) (s : State) : Result :=
  finishWith (stnBytes r len addr s) s fun bytes => memWrite s (spmAddr addr) bytes

end Sys2Proof.Machine
end

