-- ==== Sys2Proof/Machine/DomainConfig.lean ====
section
/-! DEFINITION. Curve-domain configuration (43_domain.md). -/

namespace Sys2Proof.Machine

/-- The non-singularity test of R145 fails: 4a³ + 27b² ≡ 0 (mod p). -/
def singular (p a b : Nat) : Bool := (4 * a ^ 3 + 27 * b ^ 2) % p == 0

/-- The domain registers after DOMCRV (R145, R146): DP, DA, DB, CRV are set; DN, DH, ORD, DG, GEN are cleared. -/
def curveDomain (p a b : Nat) : Domain where
  dp := BitVec.ofNat 256 p
  da := BitVec.ofNat 256 a
  db := BitVec.ofNat 256 b
  dn := 0
  dh := 0
  dg := .empty
  crv := true
  ord := false
  gen := false

/-- DOMCRV (R145 to R147): EMODULUS before ESINGULAR; every point register becomes EMPTY. -/
def execDomcrv (rs1 rs2 rs3 : Reg) (s : State) : Result :=
  if !modulusOk (xNat s rs1) then raise .emodulus s
  else if singular (xNat s rs1) (xNat s rs2 % xNat s rs1) (xNat s rs3 % xNat s rs1) then raise .esingular s
  else
    retire (emptyPoints (writeDomain s
      (curveDomain (xNat s rs1) (xNat s rs2 % xNat s rs1) (xNat s rs3 % xNat s rs1))))

/-- DOMORD (R148, R149): EDOMUNSET before EMODULUS. -/
def execDomord (rs1 rs2 : Reg) (s : State) : Result :=
  if !s.dom.crv then raise .edomunset s
  else if !modulusOk (xNat s rs1) then raise .emodulus s
  else retire (writeDomain s { s.dom with dn := readX s rs1, dh := readX s rs2, ord := true })

/-- DOMGEN (R151): EDOMUNSET before EPOINT; INF is a legal base point. -/
def execDomgen (rs1 : Reg) (s : State) : Result :=
  if !s.dom.crv then raise .edomunset s
  else if readPT s rs1 = .empty then raise .epoint s
  else retire (writeDomain s { s.dom with dg := readPT s rs1, gen := true })

end Sys2Proof.Machine
end

