-- ==== Sys2Proof/Machine/Ecdsa.lean ====
section
/-! DEFINITION. ECDSA signature verification (47_ecdsa.md). -/

namespace Sys2Proof.Machine

/-- The result of ECDSAV (R230), or the fault it raises: EDOMUNSET for the curve, the order or the base point, EPOINT
for an EMPTY key, then ENOINV from Verify. A base point register that is EMPTY while GEN = 1 is ruled out by R26; in
such a state, which no run reaches, the base point counts as not configured (entry 12). -/
def ecdsavValue (rd rs1 rs2 rs3 : Reg) (s : State) : Except Cause Bool :=
  if !s.dom.crv then .error .edomunset
  else if !s.dom.ord || !s.dom.gen then .error .edomunset
  else
    match ptPoint s rd, s.dom.dg.toPoint with
    | none, _ => .error .epoint
    | some _, none => .error .edomunset
    | some q, some g =>
      verifySignature (fieldP s) (coeffA s) s.dom.dn.toNat g (xNat s rs1) (xNat s rs2) (xNat s rs3) q

/-- ECDSAV (R230): F is written; a rejected signature is a result, not a fault (R233). -/
def execEcdsav (rd rs1 rs2 rs3 : Reg) (s : State) : Result :=
  finishWith (ecdsavValue rd rs1 rs2 rs3 s) s fun accepted => writeF s accepted

end Sys2Proof.Machine
end

