-- ==== Sys2Proof/Machine/HashCommands.lean ====
section
/-! DEFINITION. Hash commands (46_hash.md section 2). -/

namespace Sys2Proof.Machine

/-- HINIT (R209): an output length outside 1 to 256 raises EHASHLEN; any digest in progress is abandoned. -/
def execHinit (imm : BitVec 22) (s : State) : Result :=
  if h : 1 ≤ imm.toNat ∧ imm.toNat ≤ 256 then
    retire (writeHash s (startedHash ⟨imm.toNat, by omega⟩))
  else raise .ehashlen s

/-- The hash state after absorbing N bits at an SPM address (R210): the complete bytes, then the partial byte. -/
def absorbMessage (s : State) (a n : Nat) : HashState :=
  let h := absorbAll s.hash (memRead s a (n / 8))
  if n % 8 = 0 then h else absorbBits h (readByte s (a + n / 8)) (Fin.ofNat 8 n)

/-- HUPD (R210): EHASHSEQ outside ABSORB, then EBOUNDS on ceil8(N) bytes. -/
def execHupd (r : Reg) (addr : BitVec 12) (s : State) : Result :=
  if s.hash.phase ≠ .absorb then raise .ehashseq s
  else if !inBounds (spmAddr addr) (ceil8 (xNat s r)) then raise .ebounds s
  else retire (writeHash s (absorbMessage s (spmAddr addr) (xNat s r)))

/-- The digest bytes HFIN stores (R211), or the fault it raises: EHASHSEQ in IDLE, then EBOUNDS. -/
def hfinBytes (addr : BitVec 12) (s : State) : Except Cause (List Byte) :=
  if s.hash.phase = .idle then .error .ehashseq
  else if !inBounds (spmAddr addr) (ceil8 s.hash.hl.val) then .error .ebounds
  else .ok (digestBytes s.hash)

/-- HFIN (R211): the digest goes to the SPM and to HD; the hash state is consumed. -/
def execHfin (addr : BitVec 12) (s : State) : Result :=
  finishWith (hfinBytes addr s) s fun bytes =>
    writeHash (writeDigest (memWrite s (spmAddr addr) bytes) bytes s.hash.hl) idleHash

/-- The integer e of the last digest (R212): the leftmost min(HDLEN, bitlen(n)) bits, read big-endian. -/
def digestInteger (d : Digest) (n : Nat) : Nat :=
  beNat (d.hd.toList.take (ceil8 d.hdlen.val)) >>> (8 * ceil8 d.hdlen.val - min d.hdlen.val (bitlen n))

/-- HTOE (R212): EDOMUNSET before EHASHSEQ. -/
def execHtoe (rd : Reg) (s : State) : Result :=
  if !s.dom.ord then raise .edomunset s
  else if !s.digest.hdv then raise .ehashseq s
  else retire (writeXNat s rd (digestInteger s.digest s.dom.dn.toNat))

end Sys2Proof.Machine
end

