-- ==== Sys2Proof/Machine/Modular.lean ====
section
/-! DEFINITION. Modular arithmetic and Montgomery commands (41_modular.md) and the modular square root (42_sqrt.md).
Every result is an exact function of unbounded integers reduced into [0, m − 1] (R124). -/

namespace Sys2Proof.Machine

/-- The Montgomery radix R = 2^256 (R119). -/
def montR : Nat := 2 ^ 256

/-- R⁻¹ = inv(R, m) (R119). -/
def montRInv (m : Nat) : Nat := invMod (montR % m) m

/-- A command that writes `f m` to X[rd], m the selected modulus. -/
def modularResult (s : State) (rd : Reg) (sel : ModSel) (f : Nat → Nat) : Result :=
  finishWith (modulus s sel) s fun m => writeXNat s rd (f m)

/-- SETM (R113). -/
def execSetm (rs1 : Reg) (s : State) : Result :=
  if modulusOk (xNat s rs1) then retire (writeModulus s (readX s rs1)) else raise .emodulus s

/-- MODADD (R114). -/
def execModadd (rd rs1 rs2 : Reg) (sel : ModSel) (s : State) : Result :=
  modularResult s rd sel fun m => (xNat s rs1 + xNat s rs2) % m

/-- MODSUB (R115). -/
def execModsub (rd rs1 rs2 : Reg) (sel : ModSel) (s : State) : Result :=
  modularResult s rd sel fun m => subMod (xNat s rs1) (xNat s rs2) m

/-- MODNEG (R116). -/
def execModneg (rd rs1 : Reg) (sel : ModSel) (s : State) : Result :=
  modularResult s rd sel fun m => subMod 0 (xNat s rs1) m

/-- MODRED (R117). -/
def execModred (rd rs1 : Reg) (sel : ModSel) (s : State) : Result :=
  modularResult s rd sel fun m => xNat s rs1 % m

/-- MODMUL (R118). -/
def execModmul (rd rs1 rs2 : Reg) (sel : ModSel) (s : State) : Result :=
  modularResult s rd sel fun m => xNat s rs1 * xNat s rs2 % m

/-- MONTMUL (R120). -/
def execMontmul (rd rs1 rs2 : Reg) (sel : ModSel) (s : State) : Result :=
  modularResult s rd sel fun m => xNat s rs1 * xNat s rs2 * montRInv m % m

/-- MONTRED (R121): T = X[rs1]·2^256 + X[rs2]. -/
def execMontred (rd rs1 rs2 : Reg) (sel : ModSel) (s : State) : Result :=
  modularResult s rd sel fun m => (xNat s rs1 * montR + xNat s rs2) * montRInv m % m

/-- TOMONT (R122). -/
def execTomont (rd rs1 : Reg) (sel : ModSel) (s : State) : Result :=
  modularResult s rd sel fun m => xNat s rs1 * montR % m

/-- The result of MODINV (R123), or the fault it raises: EDOMUNSET before ENOINV. -/
def modinvValue (s : State) (rs1 : Reg) (sel : ModSel) : Except Cause Nat :=
  match modulus s sel with
  | .error c => .error c
  | .ok m => inverse (xNat s rs1) m

/-- MODINV (R123). -/
def execModinv (rd rs1 : Reg) (sel : ModSel) (s : State) : Result :=
  finishWith (modinvValue s rs1 sel) s fun v => writeXNat s rd v

/-- The result of MODSQRT (R135), or the fault it raises: EDOMUNSET before those of Sqrt (R137). -/
def modsqrtValue (s : State) (rs1 : Reg) (sel : ModSel) : Except Cause Nat :=
  match modulus s sel with
  | .error c => .error c
  | .ok m => sqrtMod (xNat s rs1) m

/-- MODSQRT (R135); the root is the one R137 fixes (R138, entry 15). -/
def execModsqrt (rd rs1 : Reg) (sel : ModSel) (s : State) : Result :=
  finishWith (modsqrtValue s rs1 sel) s fun v => writeXNat s rd v

end Sys2Proof.Machine
end

