-- ==== Sys2Proof/Machine/PointCodec.lean ====
section
/-! DEFINITION. Point decoding and encoding (45_point_codec.md). -/

namespace Sys2Proof.Machine

/-- The root of requested parity of R185: `odd` is S[0] − 2. A root 0 has no odd counterpart (EDECODE). -/
def parityRoot (p y odd : Nat) : Except Cause Nat :=
  if y % 2 = odd then .ok y
  else if y = 0 then .error .edecode
  else .ok (p - y)

/-- The compressed form of R185: the x octets, and the parity the prefix asks for. -/
def decodeCompressed (p a b : Nat) (odd x : Nat) : Except Cause Point :=
  if p ≤ x then .error .edecode
  else
    match sqrtMod ((x ^ 3 + a * x + b) % p) p with
    | .error c => .error c
    | .ok y =>
      match parityRoot p y odd with
      | .error c => .error c
      | .ok y' => .ok (.aff x y')

/-- The uncompressed form of R185: both coordinates below p; the curve equation is not checked (R186). -/
def decodeUncompressed (p x y : Nat) : Except Cause Point :=
  if p ≤ x ∨ p ≤ y then .error .edecode else .ok (.aff x y)

/-- Decode (R185), normative for this hardware; `pl` is plen. The tests are made in the order of the rule. -/
def decodePoint (p a b pl : Nat) (bytes : List Byte) : Except Cause Point :=
  let prefixByte := (bytes.headD 0).toNat
  let body := bytes.tail
  if bytes.length = 1 ∧ prefixByte = 0 then .ok .inf
  else if bytes.length = 1 + pl ∧ (prefixByte = 2 ∨ prefixByte = 3) then
    decodeCompressed p a b (prefixByte - 2) (beNat body)
  else if bytes.length = 1 + 2 * pl ∧ prefixByte = 4 then
    decodeUncompressed p (beNat (body.take pl)) (beNat (body.drop pl))
  else .error .edecode

/-- The octet string PENC writes (R188): one zero byte for INF, else the parity prefix and x in plen bytes. -/
def encodePoint (pl : Nat) : Point → List Byte
  | .inf => [0]
  | .aff x y => BitVec.ofNat 8 (2 + y % 2) :: beBytes pl x

/-- The point PDEC decodes (R187), or the fault it raises: EILLEGAL for a byte count without an encoding (entry 11),
EDOMUNSET, EBOUNDS, then those of Decode. -/
def pdecValue (len : BitVec 7) (addr : BitVec 12) (s : State) : Except Cause Point :=
  if !pointLenOk len then .error .eillegal
  else if !s.dom.crv then .error .edomunset
  else if !inBounds (spmAddr addr) len.toNat then .error .ebounds
  else decodePoint (fieldP s) (coeffA s) (coeffB s) (plen s) (memRead s (spmAddr addr) len.toNat)

/-- PDEC (R187). -/
def execPdec (r : Reg) (len : BitVec 7) (addr : BitVec 12) (s : State) : Result :=
  finishWith (pdecValue len addr s) s fun q => writePT s r q.toReg

/-- The bytes PENC stores (R188), or the fault it raises: EDOMUNSET, EPOINT, then EBOUNDS on the actual length. -/
def pencBytes (r : Reg) (addr : BitVec 12) (s : State) : Except Cause (List Byte) :=
  match curvePoint s r with
  | .error c => .error c
  | .ok q =>
    if !inBounds (spmAddr addr) (encodePoint (plen s) q).length then .error .ebounds
    else .ok (encodePoint (plen s) q)

/-- PENC (R188). -/
def execPenc (r : Reg) (addr : BitVec 12) (s : State) : Result :=
  finishWith (pencBytes r addr s) s fun bytes => memWrite s (spmAddr addr) bytes

end Sys2Proof.Machine
end

