-- ==== Sys2Proof/Machine/PointCommands.lean ====
section
/-! DEFINITION. Point commands (44_point.md section 2). Each first requires CRV = 1 (EDOMUNSET) and then that the
point registers it reads hold a point (EPOINT), in the order of R243. -/

namespace Sys2Proof.Machine

/-- PINF (R159). -/
def execPinf (rd : Reg) (s : State) : Result :=
  if s.dom.crv then retire (writePT s rd .inf) else raise .edomunset s

/-- PGEN (R160): CRV is checked before GEN. -/
def execPgen (rd : Reg) (s : State) : Result :=
  if !s.dom.crv then raise .edomunset s
  else if !s.dom.gen then raise .edomunset s
  else retire (writePT s rd s.dom.dg)

/-- PSET (R161): the curve equation is not checked. -/
def execPset (rd rs1 rs2 : Reg) (s : State) : Result :=
  if !s.dom.crv then raise .edomunset s
  else if fieldP s ≤ xNat s rs1 ∨ fieldP s ≤ xNat s rs2 then raise .erange s
  else retire (writePT s rd (.aff (readX s rs1) (readX s rs2)))

/-- The x coordinate PGETX gives; INF gives 0 (R162). -/
def Point.xCoord : Point → Nat
  | .inf => 0
  | .aff x _ => x

/-- The y coordinate PGETY gives; INF gives 0 (R163). -/
def Point.yCoord : Point → Nat
  | .inf => 0
  | .aff _ y => y

/-- PGETX (R162). -/
def execPgetx (rd rs1 : Reg) (s : State) : Result :=
  finishWith (curvePoint s rs1) s fun q => writeF (writeXNat s rd q.xCoord) (flagIsInf q)

/-- PGETY (R163). -/
def execPgety (rd rs1 : Reg) (s : State) : Result :=
  finishWith (curvePoint s rs1) s fun q => writeF (writeXNat s rd q.yCoord) (flagIsInf q)

/-- PMOV (R164). -/
def execPmov (rd rs1 : Reg) (s : State) : Result :=
  finishWith (curvePoint s rs1) s fun _ => writePT s rd (readPT s rs1)

/-- The two points a command reads, checked in field order (R243). -/
def curvePoints (s : State) (rs1 rs2 : Reg) : Except Cause (Point × Point) :=
  match curvePoint s rs1 with
  | .error c => .error c
  | .ok q1 =>
    match curvePoint s rs2 with
    | .error c => .error c
    | .ok q2 => .ok (q1, q2)

/-- PEQ (R165). -/
def execPeq (rs1 rs2 : Reg) (s : State) : Result :=
  finishWith (curvePoints s rs1 rs2) s fun q => writeF s (flagPointsEqual q.1 q.2)

/-- PISINF (R166). -/
def execPisinf (rs1 : Reg) (s : State) : Result :=
  finishWith (curvePoint s rs1) s fun q => writeF s (flagIsInf q)

/-- The result of PADD (R167), or the fault it raises. -/
def paddValue (rs1 rs2 : Reg) (s : State) : Except Cause Point :=
  match curvePoints s rs1 rs2 with
  | .error c => .error c
  | .ok q => pointAdd (fieldP s) (coeffA s) q.1 q.2

/-- PADD (R167). -/
def execPadd (rd rs1 rs2 : Reg) (s : State) : Result :=
  finishWith (paddValue rs1 rs2 s) s fun q => writePT s rd q.toReg

/-- The result of PDBL (R168), or the fault it raises. -/
def pdblValue (rs1 : Reg) (s : State) : Except Cause Point :=
  match curvePoint s rs1 with
  | .error c => .error c
  | .ok q => pointAdd (fieldP s) (coeffA s) q q

/-- PDBL (R168). -/
def execPdbl (rd rs1 : Reg) (s : State) : Result :=
  finishWith (pdblValue rs1 s) s fun q => writePT s rd q.toReg

/-- PNEG (R169). -/
def execPneg (rd rs1 : Reg) (s : State) : Result :=
  finishWith (curvePoint s rs1) s fun q => writePT s rd (pointNeg (fieldP s) q).toReg

/-- The result of PMUL before the negate bit (R170), or the fault it raises. -/
def pmulValue (rs1 rs2 : Reg) (s : State) : Except Cause Point :=
  match curvePoint s rs1 with
  | .error c => .error c
  | .ok q => scalarMul (fieldP s) (coeffA s) q (xNat s rs2)

/-- PMUL and PMUL.NEG (R170). -/
def execPmul (rd rs1 rs2 : Reg) (neg : Bool) (s : State) : Result :=
  finishWith (pmulValue rs1 rs2 s) s fun q =>
    writePT s rd (if neg then pointNeg (fieldP s) q else q).toReg

end Sys2Proof.Machine
end

