-- ==== Sys2Proof/Machine/Dispatch.lean ====
section
/-! DEFINITION. The dispatch of a decoded instruction to its meaning, one arm per constructor of `Instr` (R87). -/

namespace Sys2Proof.Machine

def exec (i : Instr) (s : State) : Host.Outcome State Fault Refusal :=
  match i with
  | .nop => Sys2Proof.Machine.execNop s
  | .ldi rd imm => Sys2Proof.Machine.execLdi rd imm s
  | .movx rd rs1 => Sys2Proof.Machine.execMovx rd rs1 s
  | .cmpx rs1 rs2 => Sys2Proof.Machine.execCmpx rs1 rs2 s
  | .ldn r len addr => Sys2Proof.Machine.execLdn r len addr s
  | .stn r len addr => Sys2Proof.Machine.execStn r len addr s
  | .setm rs1 => Sys2Proof.Machine.execSetm rs1 s
  | .modadd rd rs1 rs2 sel => Sys2Proof.Machine.execModadd rd rs1 rs2 sel s
  | .modsub rd rs1 rs2 sel => Sys2Proof.Machine.execModsub rd rs1 rs2 sel s
  | .modneg rd rs1 sel => Sys2Proof.Machine.execModneg rd rs1 sel s
  | .modred rd rs1 sel => Sys2Proof.Machine.execModred rd rs1 sel s
  | .modmul rd rs1 rs2 sel => Sys2Proof.Machine.execModmul rd rs1 rs2 sel s
  | .montmul rd rs1 rs2 sel => Sys2Proof.Machine.execMontmul rd rs1 rs2 sel s
  | .montred rd rs1 rs2 sel => Sys2Proof.Machine.execMontred rd rs1 rs2 sel s
  | .tomont rd rs1 sel => Sys2Proof.Machine.execTomont rd rs1 sel s
  | .modinv rd rs1 sel => Sys2Proof.Machine.execModinv rd rs1 sel s
  | .modsqrt rd rs1 sel => Sys2Proof.Machine.execModsqrt rd rs1 sel s
  | .domcrv rs1 rs2 rs3 => Sys2Proof.Machine.execDomcrv rs1 rs2 rs3 s
  | .domord rs1 rs2 => Sys2Proof.Machine.execDomord rs1 rs2 s
  | .domgen rs1 => Sys2Proof.Machine.execDomgen rs1 s
  | .pinf rd => Sys2Proof.Machine.execPinf rd s
  | .pgen rd => Sys2Proof.Machine.execPgen rd s
  | .pset rd rs1 rs2 => Sys2Proof.Machine.execPset rd rs1 rs2 s
  | .pgetx rd rs1 => Sys2Proof.Machine.execPgetx rd rs1 s
  | .pgety rd rs1 => Sys2Proof.Machine.execPgety rd rs1 s
  | .pmov rd rs1 => Sys2Proof.Machine.execPmov rd rs1 s
  | .peq rs1 rs2 => Sys2Proof.Machine.execPeq rs1 rs2 s
  | .pisinf rs1 => Sys2Proof.Machine.execPisinf rs1 s
  | .padd rd rs1 rs2 => Sys2Proof.Machine.execPadd rd rs1 rs2 s
  | .pdbl rd rs1 => Sys2Proof.Machine.execPdbl rd rs1 s
  | .pneg rd rs1 => Sys2Proof.Machine.execPneg rd rs1 s
  | .pmul rd rs1 rs2 neg => Sys2Proof.Machine.execPmul rd rs1 rs2 neg s
  | .pdec r len addr => Sys2Proof.Machine.execPdec r len addr s
  | .penc r addr => Sys2Proof.Machine.execPenc r addr s
  | .hinit imm => Sys2Proof.Machine.execHinit imm s
  | .hupd r addr => Sys2Proof.Machine.execHupd r addr s
  | .hfin addr => Sys2Proof.Machine.execHfin addr s
  | .htoe rd => Sys2Proof.Machine.execHtoe rd s
  | .ecdsav rd rs1 rs2 rs3 => Sys2Proof.Machine.execEcdsav rd rs1 rs2 rs3 s

end Sys2Proof.Machine
end

