-- ==== Sys2Proof/Machine/Reset.lean ====
section
/-! DEFINITION. Soft reset, hardware reset and power-on (R276, R277, R282 70_reset_and_hazards.md). -/

namespace Sys2Proof.Machine

/-- Where an instruction stores to the SPM and which bytes, if it stores and raises no fault: STN, PENC and HFIN are
the only commands that write the SPM (R46 10_state.md). -/
def storeOf (i : Instr) (s : State) : Option (Nat × List Byte) :=
  match i with
  | .stn r len addr => (stnBytes r len addr s).toOption.map fun bytes => (spmAddr addr, bytes)
  | .penc r addr => (pencBytes r addr s).toOption.map fun bytes => (spmAddr addr, bytes)
  | .hfin addr => (hfinBytes addr s).toOption.map fun bytes => (spmAddr addr, bytes)
  | _ => none

/-- The store of the command in execution, if it makes one. -/
def pendingStore (s : State) : Option (Nat × List Byte) :=
  match s.inExec with
  | none => none
  | some w =>
    match decode w with
    | .ok i => storeOf i s
    | .error _ => none

/-- The SPM after store number `draw` is abandoned: each byte of its range is old or new by a free choice (R282). -/
def abandonedStore (draw : Nat) : Memory → Nat → List Byte → Memory
  | mem, _, [] => mem
  | mem, a, b :: rest =>
    abandonedStore draw (if Config.abandonedByteIsNew draw a then memStore mem a b else mem) (a + 1) rest

/-- The SPM a reset leaves: kept (R276), but for the range of an abandoned store (R282). -/
def resetSpm (s : State) : Memory :=
  match pendingStore s with
  | none => s.spm
  | some (a, bytes) => abandonedStore s.free.abandons s.spm a bytes

/-- The number of the next abandoned store: each one has free choices of its own. -/
def nextAbandon (s : State) : Nat :=
  match pendingStore s with
  | none => s.free.abandons
  | some _ => s.free.abandons + 1

/-- Soft reset (R276): the command in execution is abandoned, the queue discarded, every item of the reset table
(R278) at its reset value, the SPM kept. Accesses that wait go on waiting (R279). -/
def softReset (s : State) : State :=
  { State.reset with
    spm := resetSpm s
    free := { s.free with abandons := nextAbandon s }
    bus := s.bus }

/-- A hardware reset that is not a power-on has the effect of a soft reset (R277). -/
def hardwareReset (s : State) : State := softReset s

/-- A power-on (R277): as a reset, and every SPM byte is a new free draw (R73). -/
def powerOn (s : State) : State :=
  { softReset s with
    spm := []
    free := { powerOns := s.free.powerOns + 1, abandons := nextAbandon s } }

end Sys2Proof.Machine
end

