-- ==== Sys2Proof/Machine/Bus.lean ====
section
/-! DEFINITION. The host's side: the window, the control and status registers, the SPM window, stalls and bus errors
(R34 to R42 10_state.md, R51 to R68 20_memory.md, R246, R249 60_exceptions.md). -/

namespace Sys2Proof.Machine

/-! ## The control and status registers -/

/-- ID (R37). -/
def idValue : Word := 0x4D4D5231

/-- PARAM (R37). -/
def paramValue : Word := 0x10101020

/-- BUSY (R36): a word is queued or a command is executing. -/
def busy (s : State) : Bool := !s.queue.isEmpty || s.inExec.isSome

/-- STATUS.HSTATE (R36). -/
def phaseBits : HashPhase → BitVec 2
  | .idle => 0
  | .absorb => 1
  | .finalbits => 2

/-- STATUS.QLEVEL (R31, R36). -/
def qlevel (s : State) : BitVec 5 := BitVec.ofNat 5 s.queue.length

/-- STATUS (R36), bit 31 leftmost. -/
def statusWord (s : State) : Word :=
  0#11 ++ qlevel s ++ 0#6 ++ phaseBits s.hash.phase ++ BitVec.ofBool s.digest.hdv ++ BitVec.ofBool s.gmod.mv ++
    BitVec.ofBool s.dom.gen ++ BitVec.ofBool s.dom.ord ++ BitVec.ofBool s.dom.crv ++ BitVec.ofBool s.f ++
    BitVec.ofBool s.errs.err ++ BitVec.ofBool (busy s)

/-- The word IRQ_EN or IRQ_STATUS reads as (R38): bit 0 DONE, bit 1 ERR, the rest 0. -/
def irqWord (b : IrqBits) : Word := 0#30 ++ BitVec.ofBool b.err ++ BitVec.ofBool b.done

/-- The two bits of a word written to IRQ_EN or IRQ_STATUS (R38); the other bits are ignored. -/
def irqBitsOf (w : Word) : IrqBits := { done := w.getLsbD 0, err := w.getLsbD 1 }

/-- A CSR read (R34 to R42): no side effect (R61); CTRL, CMD and the reserved offsets read 0. -/
def readCsr (s : State) (offset : Nat) : Word :=
  match offset with
  | 0x000 => idValue
  | 0x004 => paramValue
  | 0x00C => statusWord s
  | 0x010 => irqWord s.irqEn
  | 0x014 => irqWord s.irqStatus
  | 0x01C => s.cmdidx
  | 0x020 => s.errs.cause.setWidth 32
  | 0x024 => s.errs.cmd
  | 0x028 => s.errs.idx
  | _ => 0

/-- A write to CTRL (R35): SRST first, and it alone when both bits are set; else ERRCLR. -/
def writeCtrl (s : State) (w : Word) : State :=
  if w.getLsbD 0 then softReset s else if w.getLsbD 1 then clearError s else s

/-- A write to CMD that does not stall (R39): discarded while ERR = 1 (R246), else appended to the queue. -/
def writeCmd (s : State) (w : Word) : State :=
  if s.errs.err then s else { s with queue := s.queue ++ [w] }

/-- A CSR write (R34 to R42): read-only and reserved offsets ignore it. -/
def writeCsr (s : State) (offset : Nat) (w : Word) : State :=
  match offset with
  | 0x008 => writeCtrl s w
  | 0x010 => { s with irqEn := irqBitsOf w }
  | 0x014 => { s with irqStatus := irqNext s.irqStatus noIrq (irqBitsOf w) }
  | 0x018 => writeCmd s w
  | _ => s

/-! ## Accesses -/

/-- The bytes of an access (R53). -/
def AccessWidth.size : AccessWidth → Nat
  | .byte => 1
  | .half => 2
  | .word => 4

/-- The offset is in the SPM part of the window (R51, R52). -/
def inSpmPart (offset : BitVec 13) : Bool := 0x1000 ≤ offset.toNat

/-- The SPM address of an offset of the SPM part (R52). -/
def spmOffset (offset : BitVec 13) : Nat := offset.toNat - 0x1000

/-- The access meets the width and alignment rules: natural alignment (R53), and for a CSR also 4 bytes (R58). -/
def accessLegal (offset : BitVec 13) (width : AccessWidth) : Bool :=
  offset.toNat % width.size == 0 && (inSpmPart offset || width == .word)

/-- The offset and width of an access. -/
def BusAccess.offset : BusAccess → BitVec 13
  | .read o _ => o
  | .write o _ _ => o

/-- The offset of CMD (R34). -/
def cmdOffset : Nat := 0x018

/-- The access waits (R64, R65): one to the SPM part while BUSY = 1, a CMD write while the queue is full and ERR = 0.
No other access waits (R68); a CMD write of the wrong width is a bus error at once (R58). Entries 7 and 8. -/
def stalls (s : State) : BusAccess → Bool
  | .read o _ => inSpmPart o && busy s
  | .write o width _ =>
    if inSpmPart o then busy s
    else accessLegal o width && o.toNat == cmdOffset && !s.errs.err && Config.queueDepth ≤ s.queue.length

/-- The integer of a little-endian byte string (R53). -/
def leNat : List Byte → Nat
  | [] => 0
  | b :: rest => b.toNat + 256 * leNat rest

/-- What a completed access leaves and answers: the state, the bus error, the data (0 on a write or an error; R54,
R58, R249: a bus error changes nothing). -/
def performAccess (s : State) : BusAccess → State × Bool × Word
  | .read o width =>
    if !accessLegal o width then (s, true, 0)
    else if inSpmPart o then (s, false, BitVec.ofNat 32 (leNat (memRead s (spmOffset o) width.size)))
    else (s, false, readCsr s o.toNat)
  | .write o width data =>
    if !accessLegal o width then (s, true, 0)
    else if inSpmPart o then (memWrite s (spmOffset o) ((leBytes data).take width.size), false, 0)
    else (writeCsr s o.toNat data, false, 0)

/-- Complete a request: perform the access and record its answer (entry 18). -/
def completeRequest (s : State) (req : BusRequest) : State :=
  let r := performAccess s req.access
  { r.1 with
    bus := { r.1.bus with
      responses := r.1.bus.responses ++ [{ master := req.master, busError := r.2.1, data := r.2.2 }] } }

/-! ## The system address map -/

/-- The window offset a system address reaches, if it lies in the 8 KiB window at MMR_BASE (R34, R51). -/
def windowOffset (address : Nat) : Option (BitVec 13) :=
  if Config.mmrBase ≤ address ∧ address < Config.mmrBase + Config.windowSize then
    some (BitVec.ofNat 13 (address - Config.mmrBase))
  else none

/-- The window access of a bus read at a system address; none if the address is not the engine's. -/
def readAt (address : Nat) (width : AccessWidth) : Option BusAccess :=
  (windowOffset address).map fun o => .read o width

/-- The window access of a bus write at a system address; none if the address is not the engine's. -/
def writeAt (address : Nat) (width : AccessWidth) (data : Word) : Option BusAccess :=
  (windowOffset address).map fun o => .write o width data

end Sys2Proof.Machine
end

