-- ==== Sys2Proof/Machine/Sequencer.lean ====
section
/-! DEFINITION. What moves next: the engine (R66 20_memory.md, R283 70_reset_and_hazards.md) and the inputs from
outside (entries 2 and 3). -/

namespace Sys2Proof.Machine

/-- Run the command in execution, whose word is w: an illegal word faults with EILLEGAL before anything else (R86). -/
def runCommand (w : Word) (s : State) : Result :=
  match decode w with
  | .ok i => exec i s
  | .error _ => raise .eillegal s

/-- The engine starts the oldest queued command: its word leaves the queue (R31). -/
def startCommand (s : State) (w : Word) (rest : List Word) : State :=
  { s with queue := rest, inExec := some w }

/-- One move of the engine: it ends the command in execution, or starts the next one. It starts none while ERR = 1
(R248, entry 14), and waits when the queue is empty (R275). -/
def engineMove (s : State) : Result :=
  if s.errs.err then .next s
  else
    match s.inExec with
    | some w => runCommand w s
    | none =>
      match s.queue with
      | [] => .next s
      | w :: rest => .next (startCommand s w rest)

/-- The engine on its own, with nothing on the bus: it starts and ends a command in one step (R291). -/
def engineRun (s : State) : Result :=
  if s.errs.err then .next s
  else
    match s.inExec with
    | some w => runCommand w s
    | none =>
      match s.queue with
      | [] => .next s
      | w :: rest => runCommand w (startCommand s w rest)

/-- The first waiting access that no longer has to wait, and the others in order. -/
def takeReady (s : State) : List BusRequest → Option (BusRequest × List BusRequest)
  | [] => none
  | req :: rest =>
    if !stalls s req.access then some (req, rest)
    else (takeReady s rest).map fun found => (found.1, req :: found.2)

/-- The state with another list of inputs to come. -/
def setInputs (s : State) (inputs : List Input) : State := { s with bus := { s.bus with inputs := inputs } }

/-- The state with another list of waiting accesses. -/
def setStalled (s : State) (waiting : List BusRequest) : State := { s with bus := { s.bus with stalled := waiting } }

/-- The next input, when no waiting access is ready. A master with a waiting access makes no other one (R279), so the
engine moves; an access that has to wait joins the waiting ones; anything else is done now. With no input left the
engine moves by itself, in single moves while an access waits. -/
def nextInput (s : State) : Result :=
  match s.bus.inputs with
  | [] => if s.bus.stalled.isEmpty then engineRun s else engineMove s
  | .bus req :: rest =>
    if s.bus.stalled.any fun waiting => waiting.master == req.master then engineMove s
    else if stalls s req.access then .next (setStalled (setInputs s rest) (s.bus.stalled ++ [req]))
    else .next (completeRequest (setInputs s rest) req)
  | .engineTurn :: rest => engineMove (setInputs s rest)
  | .hardwareReset :: rest => .next (hardwareReset (setInputs s rest))
  | .powerOn :: rest => .next (powerOn (setInputs s rest))

/-- One step: a waiting access that has become ready completes first (R64, R65), else the next input is taken. -/
def advance (s : State) : Result :=
  match takeReady s s.bus.stalled with
  | some (req, waiting) => .next (completeRequest (setStalled s waiting) req)
  | none => nextInput s

/-- The state whose next step runs the command word w: w is the oldest queued word, no command is executing, ERR = 0
and nothing is on the bus. It stands for a host that has written w to CMD (R39, entry 1). -/
def placeWord (s : State) (w : Word) : State :=
  { s with
    queue := w :: s.queue.tail
    inExec := none
    errs := { s.errs with err := false }
    bus := { s.bus with inputs := [], stalled := [] } }

end Sys2Proof.Machine
end

