-- ==== Sys2Proof/Machine/Step.lean ====
section
/-! DEFINITION. The step of the machine and the placing of an instruction where the next step takes it. -/

namespace Sys2Proof.Machine

/-- One step of the machine (`advance` in Sequencer.lean). -/
def step (s : State) : Host.Outcome State Fault Refusal := advance s

/-- `s` with the table word w (of `nbits` bits) as the command the next step fetches from the queue and runs. -/
def State.withFetchWord (s : State) (nbits w : Nat) : State := placeWord s (tableWord nbits w)

end Sys2Proof.Machine
end

