-- ==== Sys2Proof/Safety.lean ====
section
/-! DEFINITION. The terms claims are stated in: what a command leaves unchanged, how it retires or takes a fault, and
the invariant of the state (R22 to R33 10_state.md). -/

namespace Sys2Proof.Machine

/-! ## What changes and what does not -/

/-- The parts of the state that R46 (10_state.md) lists the writers of. -/
inductive Part where
  | x
  | points
  | flag
  /-- DP, DA, DB, CRV. -/
  | curve
  /-- DN, DH, ORD. -/
  | order
  /-- DG, GEN. -/
  | base
  | modulus
  | hash
  | digest
  | memory
deriving DecidableEq, Repr

/-- The part reads the same in both states; the memory through the read of one byte, at every address. -/
def Part.unchanged (s t : State) : Part → Prop
  | .x => ∀ r, readX t r = readX s r
  | .points => ∀ r, readPT t r = readPT s r
  | .flag => t.f = s.f
  | .curve => t.dom.dp = s.dom.dp ∧ t.dom.da = s.dom.da ∧ t.dom.db = s.dom.db ∧ t.dom.crv = s.dom.crv
  | .order => t.dom.dn = s.dom.dn ∧ t.dom.dh = s.dom.dh ∧ t.dom.ord = s.dom.ord
  | .base => t.dom.dg = s.dom.dg ∧ t.dom.gen = s.dom.gen
  | .modulus => t.gmod = s.gmod
  | .hash => t.hash = s.hash
  | .digest => t.digest = s.digest
  | .memory => ∀ a, readByte t a = readByte s a

/-- Every part outside the list reads the same in both states. -/
def OnlyChanges (parts : List Part) (s t : State) : Prop := ∀ part, part ∉ parts → part.unchanged s t

/-- Which parts an instruction may write when it retires (R46). -/
def writesOf : Instr → List Part
  | .nop => []
  | .ldi _ _ => [.x]
  | .movx _ _ => [.x]
  | .cmpx _ _ => [.flag]
  | .ldn _ _ _ => [.x]
  | .stn _ _ _ => [.memory]
  | .setm _ => [.modulus]
  | .modadd _ _ _ _ => [.x]
  | .modsub _ _ _ _ => [.x]
  | .modneg _ _ _ => [.x]
  | .modred _ _ _ => [.x]
  | .modmul _ _ _ _ => [.x]
  | .montmul _ _ _ _ => [.x]
  | .montred _ _ _ _ => [.x]
  | .tomont _ _ _ => [.x]
  | .modinv _ _ _ => [.x]
  | .modsqrt _ _ _ => [.x]
  | .domcrv _ _ _ => [.curve, .order, .base, .points]
  | .domord _ _ => [.order]
  | .domgen _ => [.base]
  | .pinf _ => [.points]
  | .pgen _ => [.points]
  | .pset _ _ _ => [.points]
  | .pgetx _ _ => [.x, .flag]
  | .pgety _ _ => [.x, .flag]
  | .pmov _ _ => [.points]
  | .peq _ _ => [.flag]
  | .pisinf _ => [.flag]
  | .padd _ _ _ => [.points]
  | .pdbl _ _ => [.points]
  | .pneg _ _ => [.points]
  | .pmul _ _ _ _ => [.points]
  | .pdec _ _ _ => [.points]
  | .penc _ _ => [.memory]
  | .hinit _ => [.hash]
  | .hupd _ _ => [.hash]
  | .hfin _ => [.hash, .digest, .memory]
  | .htoe _ => [.x]
  | .ecdsav _ _ _ _ => [.flag]

/-! ## Retiring and faulting -/

/-- What every retiring command does (R32, R250) and leaves alone: CMDIDX + 1 modulo 2^32, no command in execution,
DONE when the queue is empty; the queue, the error registers, ERRP, IRQ_EN and the model's own fields stay. -/
structure Retires (s t : State) : Prop where
  cmdidx : t.cmdidx = s.cmdidx + 1
  inExec : t.inExec = none
  queue : t.queue = s.queue
  errs : t.errs = s.errs
  irqEn : t.irqEn = s.irqEn
  done : t.irqStatus.done = (s.irqStatus.done || s.queue.isEmpty)
  errp : t.irqStatus.err = s.irqStatus.err
  free : t.free = s.free
  bus : t.bus = s.bus

/-- What a fault with cause c does (R244, R245): ERR, ERRCAUSE, ERRCMD, ERRIDX, ERRP are written, the queue is flushed,
no command is in execution; CMDIDX and every register, the SPM and the model's own fields stay. -/
structure FaultEntry (c : Cause) (s t : State) : Prop where
  err : t.errs.err = true
  cause : t.errs.cause = causeCode c
  cmd : ∀ w, s.inExec = some w → t.errs.cmd = w
  idx : t.errs.idx = s.cmdidx
  cmdidx : t.cmdidx = s.cmdidx
  errp : t.irqStatus.err = true
  done : t.irqStatus.done = s.irqStatus.done
  irqEn : t.irqEn = s.irqEn
  queue : t.queue = []
  inExec : t.inExec = none
  parts : OnlyChanges [] s t
  free : t.free = s.free
  bus : t.bus = s.bus

/-- The instruction answers a next state that takes the fault c. -/
def Faults (i : Instr) (s : State) (c : Cause) : Prop := ∃ t, exec i s = .next t ∧ FaultEntry c s t

/-- The instruction retires, changing the listed parts only, in a state with the property `post`. -/
def Completes (i : Instr) (s : State) (parts : List Part) (post : State → Prop) : Prop :=
  ∃ t, exec i s = .next t ∧ Retires s t ∧ OnlyChanges parts s t ∧ post t

/-- X[rd] holds the integer v and the other X registers what they held; X0 still reads 0 (R21). -/
def XWritten (s : State) (rd : Reg) (v : Nat) (t : State) : Prop :=
  ∀ r, (readX t r).toNat = if r = rd ∧ r ≠ 0 then v else (readX s r).toNat

/-- PT[rd] holds v and the other point registers what they held. -/
def PointWritten (s : State) (rd : Reg) (v : PointReg) (t : State) : Prop :=
  ∀ r, readPT t r = if r = rd then v else readPT s r

/-- The bytes stand at a, a + 1, …; every byte outside that range reads as before. -/
def BytesStored (s : State) (a : Nat) (bytes : List Byte) (t : State) : Prop :=
  ∀ k, readByte t k = if a ≤ k ∧ k < a + bytes.length then bytes.getD (k - a) 0 else readByte s k

/-- The instruction retires and writes the integer v to X[rd], and nothing else but what every command does. -/
def CompletesX (i : Instr) (s : State) (rd : Reg) (v : Nat) : Prop := Completes i s [.x] (XWritten s rd v)

/-- The instruction retires and writes v to PT[rd], and nothing else but what every command does. -/
def CompletesPoint (i : Instr) (s : State) (rd : Reg) (v : PointReg) : Prop :=
  Completes i s [.points] (PointWritten s rd v)

/-- The instruction retires and writes b to F, and nothing else but what every command does. -/
def CompletesFlag (i : Instr) (s : State) (b : Bool) : Prop := Completes i s [.flag] fun t => t.f = b

/-- The instruction retires and stores the bytes at a, and nothing else but what every command does. -/
def CompletesStore (i : Instr) (s : State) (a : Nat) (bytes : List Byte) : Prop :=
  Completes i s [.memory] (BytesStored s a bytes)

/-- The causes each command can raise besides EILLEGAL, in priority order (R241). -/
def causesOf : Instr → List Cause
  | .nop => []
  | .ldi _ _ => []
  | .movx _ _ => []
  | .cmpx _ _ => []
  | .ldn _ _ _ => [.ebounds]
  | .stn _ _ _ => [.ebounds, .erange]
  | .setm _ => [.emodulus]
  | .modadd _ _ _ _ => [.edomunset]
  | .modsub _ _ _ _ => [.edomunset]
  | .modneg _ _ _ => [.edomunset]
  | .modred _ _ _ => [.edomunset]
  | .modmul _ _ _ _ => [.edomunset]
  | .montmul _ _ _ _ => [.edomunset]
  | .montred _ _ _ _ => [.edomunset]
  | .tomont _ _ _ => [.edomunset]
  | .modinv _ _ _ => [.edomunset, .enoinv]
  | .modsqrt _ _ _ => [.edomunset, .enonresidue, .esqrt]
  | .domcrv _ _ _ => [.emodulus, .esingular]
  | .domord _ _ => [.edomunset, .emodulus]
  | .domgen _ => [.edomunset, .epoint]
  | .pinf _ => [.edomunset]
  | .pgen _ => [.edomunset]
  | .pset _ _ _ => [.edomunset, .erange]
  | .pgetx _ _ => [.edomunset, .epoint]
  | .pgety _ _ => [.edomunset, .epoint]
  | .pmov _ _ => [.edomunset, .epoint]
  | .peq _ _ => [.edomunset, .epoint]
  | .pisinf _ => [.edomunset, .epoint]
  | .padd _ _ _ => [.edomunset, .epoint, .enoinv]
  | .pdbl _ _ => [.edomunset, .epoint, .enoinv]
  | .pneg _ _ => [.edomunset, .epoint]
  | .pmul _ _ _ _ => [.edomunset, .epoint, .enoinv]
  | .pdec _ _ _ => [.edomunset, .ebounds, .edecode, .enonresidue, .esqrt]
  | .penc _ _ => [.edomunset, .epoint, .ebounds]
  | .hinit _ => [.ehashlen]
  | .hupd _ _ => [.ehashseq, .ebounds]
  | .hfin _ => [.ehashseq, .ebounds]
  | .htoe _ => [.edomunset, .ehashseq]
  | .ecdsav _ _ _ _ => [.edomunset, .epoint, .enoinv]

/-! ## The invariant -/

/-- The coordinates a point value holds are below p (R22). -/
def PointReg.below (p : Nat) : PointReg → Bool
  | .empty => true
  | .inf => true
  | .aff x y => x.toNat < p && y.toNat < p

/-- R26: the properties of the domain registers while CRV, ORD and GEN are 1; without a curve there is no order and no
base point (R146, R148, R151). -/
structure DomainOk (d : Domain) : Prop where
  curve : d.crv = true → d.dp.toNat % 2 = 1 ∧ 3 ≤ d.dp.toNat ∧ d.da.toNat < d.dp.toNat ∧ d.db.toNat < d.dp.toNat ∧
    (4 * d.da.toNat ^ 3 + 27 * d.db.toNat ^ 2) % d.dp.toNat ≠ 0
  order : d.ord = true → d.crv = true ∧ d.dn.toNat % 2 = 1 ∧ 3 ≤ d.dn.toNat
  base : d.gen = true → d.crv = true ∧ d.dg ≠ .empty
  noBase : d.gen = false → d.dg = .empty
  baseBelow : d.dg.below d.dp.toNat = true

/-- R28: the general modulus is odd and at least 3 while MV = 1. -/
def GenModOk (g : GenMod) : Prop := g.mv = true → g.m.toNat % 2 = 1 ∧ 3 ≤ g.m.toNat

/-- R22, R23: a point register that is not EMPTY belongs to the current curve, coordinates below p. -/
def PointsOk (s : State) : Prop :=
  ∀ r, (readPT s r ≠ .empty → s.dom.crv = true) ∧ (readPT s r).below s.dom.dp.toNat = true

/-- R29, R211: RB is nonzero exactly in FINALBITS; the idle hash state is the cleared one; a started digest has a
length. -/
structure HashOk (h : HashState) : Prop where
  bits : h.rb ≠ 0 ↔ h.phase = .finalbits
  idle : h.phase = .idle → h = idleHash
  length : h.phase ≠ .idle → 1 ≤ h.hl.val

/-- R30: a digest has a length exactly when it is valid, and HD holds zeros past its bytes. -/
structure DigestOk (d : Digest) : Prop where
  length : d.hdv = true ↔ 1 ≤ d.hdlen.val
  zeros : ∀ i : Fin 32, ceil8 d.hdlen.val ≤ i.val → d.hd[i] = 0

/-- R31, R245, R248: the queue holds at most 16 words; while ERR = 1 it is empty and no command is in execution. -/
structure SequenceOk (s : State) : Prop where
  depth : s.queue.length ≤ Config.queueDepth
  halted : s.errs.err = true → s.queue = [] ∧ s.inExec = none

/-- R33, R240: codes 14 to 255 are never written, and ERR = 1 comes with a code. -/
structure ErrorsOk (e : ErrorState) : Prop where
  code : e.cause.toNat ≤ 13
  recorded : e.err = true → 1 ≤ e.cause.toNat

/-- The invariant of the engine's state. -/
structure StateOk (s : State) : Prop where
  domain : DomainOk s.dom
  gmod : GenModOk s.gmod
  points : PointsOk s
  hash : HashOk s.hash
  digest : DigestOk s.digest
  sequence : SequenceOk s
  errors : ErrorsOk s.errs
  memory : s.spm.wf = true

/-- The one word that decodes to the instruction (the line "Encoding" of a command's rule). -/
def EncodedAs (i : Instr) (w : Word) : Prop := ∀ v, decode v = .ok i ↔ v = w

/-! ## Terms of the arithmetic rules -/

/-- The integer of a big-endian octet string (`be`, R12). -/
def bigEndian : List Byte → Nat
  | [] => 0
  | b :: rest => b.toNat * 256 ^ rest.length + bigEndian rest

/-- The n-byte big-endian octet string of v (`be_n`, R12): byte k has weight 256^(n − 1 − k). -/
def bigEndianBytes (n v : Nat) : List Byte := (List.range n).map fun k => BitVec.ofNat 8 (v / 256 ^ (n - 1 - k))

/-- The selector names a configured modulus, and it is m (R112). -/
def SelectedModulus (s : State) : ModSel → Nat → Prop
  | .p, m => s.dom.crv = true ∧ s.dom.dp.toNat = m
  | .n, m => s.dom.ord = true ∧ s.dom.dn.toNat = m
  | .m, m => s.gmod.mv = true ∧ s.gmod.m.toNat = m

/-- The selector names a modulus that is not configured (R112). -/
def NoModulus (s : State) : ModSel → Prop
  | .p => s.dom.crv = false
  | .n => s.dom.ord = false
  | .m => s.gmod.mv = false

/-- The rule of a modular command (R114 to R122): its word; EDOMUNSET without the selected modulus; with the modulus m
it retires with the residue r in [0, m − 1] for which `scale · r ≡ value` modulo m. -/
def ModularCommand (i : Instr) (w : Word) (sel : ModSel) (rd : Reg) (scale : Int) (value : State → Int) : Prop :=
  EncodedAs i w ∧
    ∀ s, (NoModulus s sel → Faults i s .edomunset) ∧
      ∀ m, StateOk s → SelectedModulus s sel m → ∃ r : Nat, r < m ∧ scale * r ≡ value s [ZMOD m] ∧ CompletesX i s rd r

/-- MONTMUL of a and b gives r, whatever the state and the registers (R120). -/
def MontmulGives (m a b r : Nat) : Prop :=
  ∀ s rd rs1 rs2 sel, SelectedModulus s sel m → xNat s rs1 = a → xNat s rs2 = b →
    CompletesX (.montmul rd rs1 rs2 sel) s rd r

/-- MONTRED of the halves a and b gives r (R121). -/
def MontredGives (m a b r : Nat) : Prop :=
  ∀ s rd rs1 rs2 sel, SelectedModulus s sel m → xNat s rs1 = a → xNat s rs2 = b →
    CompletesX (.montred rd rs1 rs2 sel) s rd r

/-- TOMONT of a gives r (R122). -/
def TomontGives (m a r : Nat) : Prop :=
  ∀ s rd rs1 sel, SelectedModulus s sel m → xNat s rs1 = a → CompletesX (.tomont rd rs1 sel) s rd r

/-- MODMUL of a and b gives r (R118). -/
def ModmulGives (m a b r : Nat) : Prop :=
  ∀ s rd rs1 rs2 sel, SelectedModulus s sel m → xNat s rs1 = a → xNat s rs2 = b →
    CompletesX (.modmul rd rs1 rs2 sel) s rd r

/-- The loop of R137 from (Mv, c, t, r), as a relation: t = 1 ends it with r; no i ends it with ESQRT; the least i
makes another turn. -/
inductive TonelliShanks (m : Nat) : Nat → Nat → Nat → Nat → Except Cause Nat → Prop where
  | done (mv c r : Nat) : TonelliShanks m mv c 1 r (.ok r)
  | stuck (mv c t r : Nat) : t ≠ 1 → (∀ i, 1 ≤ i → i < mv → t ^ 2 ^ i % m ≠ 1) →
      TonelliShanks m mv c t r (.error .esqrt)
  | turn (mv c t r i b : Nat) (out : Except Cause Nat) : t ≠ 1 → 1 ≤ i → i < mv → t ^ 2 ^ i % m = 1 →
      (∀ j, 1 ≤ j → j < i → t ^ 2 ^ j % m ≠ 1) → b = c ^ 2 ^ (mv - i - 1) % m →
      TonelliShanks m i (b ^ 2 % m) (t * (b ^ 2 % m) % m) (r * b % m) out → TonelliShanks m mv c t r out

/-- z is the least integer in [2, m − 1] with z^((m − 1)/2) mod m = m − 1 (R137). -/
def LeastNonResidue (m z : Nat) : Prop :=
  2 ≤ z ∧ z ≤ m - 1 ∧ z ^ ((m - 1) / 2) % m = m - 1 ∧ ∀ y, 2 ≤ y → y < z → y ^ ((m - 1) / 2) % m ≠ m - 1

/-- The loop R137 starts for the residue a, with m − 1 = q · 2^e and the non-residue z, ends with `out`. -/
def StartedLoop (m a z q e : Nat) (out : Except Cause Nat) : Prop :=
  LeastNonResidue m z ∧ q % 2 = 1 ∧ m - 1 = q * 2 ^ e ∧
    TonelliShanks m e (z ^ q % m) (a ^ q % m) (a ^ ((q + 1) / 2) % m) out

/-- `Sqrt(v, m)` of R137, as a relation. -/
inductive SquareRoot (v m : Nat) : Except Cause Nat → Prop where
  | zero : v % m = 0 → SquareRoot v m (.ok 0)
  | nonResidue : v % m ≠ 0 → (v % m) ^ ((m - 1) / 2) % m ≠ 1 → SquareRoot v m (.error .enonresidue)
  | noWitness : v % m ≠ 0 → (v % m) ^ ((m - 1) / 2) % m = 1 → (∀ z, ¬LeastNonResidue m z) →
      SquareRoot v m (.error .esqrt)
  | stuck (z q e : Nat) : v % m ≠ 0 → (v % m) ^ ((m - 1) / 2) % m = 1 →
      StartedLoop m (v % m) z q e (.error .esqrt) → SquareRoot v m (.error .esqrt)
  | notARoot (z q e r : Nat) : v % m ≠ 0 → (v % m) ^ ((m - 1) / 2) % m = 1 →
      StartedLoop m (v % m) z q e (.ok r) → r ^ 2 % m ≠ v % m → SquareRoot v m (.error .esqrt)
  | root (z q e r : Nat) : v % m ≠ 0 → (v % m) ^ ((m - 1) / 2) % m = 1 →
      StartedLoop m (v % m) z q e (.ok r) → r ^ 2 % m = v % m → SquareRoot v m (.ok r)

/-! ## Terms of the point rules -/

/-- The first two checks of a point command (44_point.md section 2): EDOMUNSET without a curve, then EPOINT when one of
its source registers is EMPTY. -/
def ChecksPoints (i : Instr) (s : State) (sources : List Reg) : Prop :=
  (s.dom.crv = false → Faults i s .edomunset) ∧
    (s.dom.crv = true → (∃ r ∈ sources, readPT s r = .empty) → Faults i s .epoint)

/-- INF, or coordinates below p that satisfy y² ≡ x³ + ax + b (mod p). -/
def OnCurve (p a b : Nat) : Point → Prop
  | .inf => True
  | .aff x y => x < p ∧ y < p ∧ y ^ 2 % p = (x ^ 3 + a * x + b) % p

/-- p, a and b are a curve over a prime field that DOMCRV accepts (R145). -/
structure PrimeCurve (p a b : Nat) : Prop where
  prime : Nat.Prime p
  odd : 3 ≤ p
  nonsingular : (4 * a ^ 3 + 27 * b ^ 2) % p ≠ 0

/-- The numerator and the denominator of the slope in R155: the chord for x1 ≠ x2, else the tangent. -/
def slopeParts (a x1 y1 x2 y2 : Int) : Int × Int :=
  if x1 = x2 then (3 * x1 ^ 2 + a, 2 * y1) else (y2 - y1, x2 - x1)

/-- (x3, y3) are reduced and are the last two lines of R155 for a slope with these parts. -/
def ThirdPoint (p : Nat) (slope : Int × Int) (x1 y1 x2 : Int) (x3 y3 : Big) : Prop :=
  x3.toNat < p ∧ y3.toNat < p ∧
    ∃ l : Int, l * slope.2 ≡ slope.1 [ZMOD p] ∧ (x3.toNat : Int) ≡ l ^ 2 - x1 - x2 [ZMOD p] ∧
      (y3.toNat : Int) ≡ l * (x1 - x3.toNat) - y1 [ZMOD p]

/-- The instruction writes the sum of two point values to PT[rd] (R155 to R157): the other value when one is INF; INF
for equal x and either different y or y = 0; else the third point, or ENOINV when the denominator of the slope shares
a factor with p. -/
def AddsPoints (i : Instr) (s : State) (rd : Reg) : PointReg → PointReg → Prop
  | .inf, q => q ≠ .empty → CompletesPoint i s rd q
  | q, .inf => q ≠ .empty → CompletesPoint i s rd q
  | .aff x1 y1, .aff x2 y2 =>
    let slope := slopeParts (coeffA s) x1.toNat y1.toNat x2.toNat y2.toNat
    (x1 = x2 ∧ (y1 ≠ y2 ∨ y1 = 0) → CompletesPoint i s rd .inf) ∧
      (x1 ≠ x2 ∨ (y1 = y2 ∧ y1 ≠ 0) →
        (Int.gcd slope.2 (fieldP s) = 1 →
          ∃ x3 y3, ThirdPoint (fieldP s) slope x1.toNat y1.toNat x2.toNat x3 y3 ∧
            CompletesPoint i s rd (.aff x3 y3)) ∧
        (Int.gcd slope.2 (fieldP s) ≠ 1 → Faults i s .enoinv))
  | _, _ => True

/-- The negative of a point value (R158): the y coordinate becomes (−y) mod p. -/
def mirror (p : Nat) : PointReg → PointReg
  | .empty => .empty
  | .inf => .inf
  | .aff x y => .aff x (BitVec.ofNat 256 ((p - y.toNat) % p))

/-- The k-fold sum of a point, one PointAdd after the other, starting from INF (R171). -/
def repeatedAdd (p a : Nat) (q : Point) : Nat → Except Cause Point
  | 0 => .ok .inf
  | k + 1 =>
    match repeatedAdd p a q k with
    | .ok r => pointAdd p a r q
    | .error c => .error c

/-! ## Terms of the hash rules -/

/-- Word l after the message addition and the mix of step j (R198, R199), before the permutation. -/
def mixedWord (j : Nat) (t m : Words16) (sc : StepConsts) (l : Fin 16) : Word :=
  let i : Fin 8 := ⟨l.val % 8, by omega⟩
  let x := t[i.val] ^^^ m[i.val]
  let y := t[i.val + 8] ^^^ m[i.val + 8]
  let x1 := (x + y).rotateLeft (if j % 2 = 0 then 29 else 5) ^^^ sc[i]
  let y1 := (x1 + y).rotateLeft (if j % 2 = 0 then 1 else 17)
  if l.val < 8 then x1 + y1 else y1.rotateLeft gamma[i]

/-- Complete bytes absorbed by retiring HUPD commands (R210, R213), one after the other, each from wherever the host
placed its bytes: from hash state h0 to the last one. -/
inductive Absorbs (h0 : HashState) : List Byte → HashState → Prop where
  | start : Absorbs h0 [] h0
  | hupd (bytes : List Byte) (r : Reg) (addr : BitVec 12) (n : Nat) (s t : State) : Absorbs h0 bytes s.hash →
      xNat s r = 8 * n → exec (.hupd r addr) s = .next t → Retires s t →
      Absorbs h0 (bytes ++ memRead s (spmAddr addr) n) t.hash

/-! ## Terms of the host's rules -/

/-- The access has to wait: one to the SPM part while BUSY = 1 (R65), a CMD write while the queue is full and ERR = 0
(R64). -/
def MustWait (s : State) : BusAccess → Prop
  | .read o _ => 0x1000 ≤ o.toNat ∧ busy s = true
  | .write o width _ =>
    (0x1000 ≤ o.toNat ∧ busy s = true) ∨
      (o = 0x018 ∧ width = .word ∧ s.errs.err = false ∧ 16 ≤ s.queue.length)

/-- Every waiting access still has to wait. -/
def AllWait (s : State) : Prop := ∀ req ∈ s.bus.stalled, MustWait s req.access

/-- The next input is this access, of a master that has none waiting (R279, entry 3); accesses of other masters that
have to wait may do so. -/
def HostAccess (s : State) (master : Nat) (access : BusAccess) (rest : List Input) : Prop :=
  AllWait s ∧ (∀ held ∈ s.bus.stalled, held.master ≠ master) ∧
    s.bus.inputs = .bus { master := master, access := access } :: rest

/-- The state after an access that changes nothing but is answered. -/
def answered (s : State) (rest : List Input) (response : BusResponse) : State :=
  { s with bus := { s.bus with inputs := rest, responses := s.bus.responses ++ [response] } }

/-- The state in which the access waits, behind those that wait already. -/
def waiting (s : State) (rest : List Input) (request : BusRequest) : State :=
  { s with bus := { s.bus with inputs := rest, stalled := s.bus.stalled ++ [request] } }

/-- Nothing outside moves next: no input is left, or the next one is an access of a master whose own access waits
(R279, entry 3). -/
def NothingOutside (s : State) : Prop :=
  s.bus.inputs = [] ∨
    ∃ req rest, s.bus.inputs = .bus req :: rest ∧ ∃ held ∈ s.bus.stalled, held.master = req.master

/-- The state after a waiting access has been answered, with the accesses that still wait. -/
def released (s : State) (others : List BusRequest) (response : BusResponse) : State :=
  { s with bus := { s.bus with stalled := others, responses := s.bus.responses ++ [response] } }

/-- The data v of a read holds the bytes of the SPM part in little-endian order (R52, R53), and 0 above (entry 17). -/
def HoldsBytes (s : State) (o : BitVec 13) (width : AccessWidth) (v : Word) : Prop :=
  ∀ k, k < 4 → v.extractLsb' (8 * k) 8 = if k < width.size then readByte s (o.toNat - 0x1000 + k) else 0

/-- In t the SPM holds the bytes of the written data in little-endian order (R52, R53), and else what it held. -/
def WrittenBytes (s : State) (o : BitVec 13) (width : AccessWidth) (data : Word) (t : State) : Prop :=
  ∀ a, readByte t a =
    if o.toNat - 0x1000 ≤ a ∧ a < o.toNat - 0x1000 + width.size then
      data.extractLsb' (8 * (a - (o.toNat - 0x1000))) 8
    else readByte s a

/-- A waiting, aligned access to the SPM part is made by the next step and answered. -/
def SpmAccessMade (s : State) (m : Nat) (o : BitVec 13) (width : AccessWidth) (others : List BusRequest) : Prop :=
  (s.bus.stalled = { master := m, access := .read o width } :: others →
    ∃ v, step s = .next (released s others { master := m, busError := false, data := v }) ∧ HoldsBytes s o width v) ∧
  ∀ data, s.bus.stalled = { master := m, access := .write o width data } :: others →
    ∃ spm t, step s = .next t ∧
      t = { released s others { master := m, busError := false, data := 0 } with spm := spm } ∧
      WrittenBytes s o width data t

/-- Every item of the reset table but the SPM holds its reset value (R278). -/
structure ResetTable (t : State) : Prop where
  x : ∀ r, readX t r = 0
  points : ∀ r, readPT t r = .empty
  flag : t.f = false
  curve : t.dom.dp = 0 ∧ t.dom.da = 0 ∧ t.dom.db = 0 ∧ t.dom.crv = false
  order : t.dom.dn = 0 ∧ t.dom.dh = 0 ∧ t.dom.ord = false
  base : t.dom.dg = .empty ∧ t.dom.gen = false
  modulus : t.gmod.m = 0 ∧ t.gmod.mv = false
  phase : t.hash.phase = .idle
  chaining : ∀ k : Fin 16, t.hash.cv[k] = 0
  buffer : ∀ k : Fin 128, t.hash.buf[k] = 0
  cursors : t.hash.bpos = 0 ∧ t.hash.rb = 0 ∧ t.hash.hl = 0
  digest : ∀ k : Fin 32, t.digest.hd[k] = 0
  digestValid : t.digest.hdlen = 0 ∧ t.digest.hdv = false
  commands : t.queue = [] ∧ t.inExec = none ∧ t.cmdidx = 0
  errors : t.errs.err = false ∧ t.errs.cause = 0 ∧ t.errs.cmd = 0 ∧ t.errs.idx = 0
  interrupts : t.irqEn.done = false ∧ t.irqEn.err = false ∧ t.irqStatus.done = false ∧ t.irqStatus.err = false
  irq : irqLine t = false
  status : statusWord t = 0

/-- A reset keeps the SPM (R276), but for the range of the store of the command in execution, each byte of which holds
its old or its new value (R282). -/
def SpmAfterReset (s t : State) : Prop :=
  (pendingStore s = none → ∀ a, readByte t a = readByte s a) ∧
    ∀ a0 bytes, pendingStore s = some (a0, bytes) → ∀ a,
      (¬(a0 ≤ a ∧ a < a0 + bytes.length) → readByte t a = readByte s a) ∧
        (a0 ≤ a ∧ a < a0 + bytes.length →
          readByte t a = readByte s a ∨ readByte t a = bytes.getD (a - a0) 0)

/-- The two states agree but for DH and F. -/
def SameButCofactorAndFlag (s t : State) : Prop :=
  t = { s with f := t.f, dom := { s.dom with dh := t.dom.dh } }

end Sys2Proof.Machine
end

