-- ==== Sys2Proof/Certificates/Slice0/Obligations.lean ====
section
/-! DEFINITION. The statements about the engine, each one a `Prop`. The terms they are written in (`Completes`,
`Faults`, `OnlyChanges`, `StateOk`, …) are defined in Sys2Proof/Safety.lean. `Completes` and what is built on it
(`CompletesX`, `CompletesPoint`, `CompletesFlag`, `CompletesStore`, `ModularCommand`, `AddsPoints`) say that `exec`
ANSWERS A NEXT STATE in which the command has retired, and hold its whole frame. -/

section
open Sys2Proof Sys2Proof.Machine

/-! ## Encoding -/

/-- Every instruction that has an encoding is decoded from it again, with every operand (R87, R89). -/
def Obligations.DecodeEncodeRoundTrip : Prop :=
  ∀ i : Instr, i.wellFormed = true → decode (encode i) = .ok i

/-- No two words decode to one instruction, and only well-formed instructions are decoded. -/
def Obligations.EncodeDecodeRoundTrip : Prop :=
  ∀ w i, decode w = .ok i → i.wellFormed = true ∧ encode i = w

/-- R86: the legal words are those a row of the opcode table admits; every other word, once started, faults with
EILLEGAL and has no other effect. -/
def Obligations.LegalWordsAreTableRows : Prop :=
  (∀ w, (∃ i, decode w = .ok i) ↔ ∃ row ∈ opcodeTable, row.admits w = true) ∧
    ∀ w s rest, (∀ row ∈ opcodeTable, row.admits w = false) →
      ∃ t, runCommand w (startCommand s w rest) = .next t ∧ FaultEntry .eillegal (startCommand s w rest) t

/-- R85: the byte counts that make a format-M word illegal, and those that do not. -/
def Obligations.ByteCountRanges : Prop :=
  ∀ (r : Reg) (len : BitVec 7) (addr : BitVec 12),
    ((1 ≤ len.toNat ∧ len.toNat ≤ 32) →
      decode (packM 0x04 (regBits r) len 0 addr) = .ok (.ldn r len addr) ∧
      decode (packM 0x05 (regBits r) len 0 addr) = .ok (.stn r len addr)) ∧
    (¬(1 ≤ len.toNat ∧ len.toNat ≤ 32) →
      decode (packM 0x04 (regBits r) len 0 addr) = .error .byteCount ∧
      decode (packM 0x05 (regBits r) len 0 addr) = .error .byteCount) ∧
    ((1 ≤ len.toNat ∧ len.toNat ≤ 65) → decode (packM 0x2C (regBits r) len 0 addr) = .ok (.pdec r len addr)) ∧
    (¬(1 ≤ len.toNat ∧ len.toNat ≤ 65) → decode (packM 0x2C (regBits r) len 0 addr) = .error .byteCount) ∧
    (len = 0 →
      decode (packM 0x2D (regBits r) len 0 addr) = .ok (.penc r addr) ∧
      decode (packM 0x31 (regBits r) len 0 addr) = .ok (.hupd r addr)) ∧
    (len = 0 ∧ r = 0 → decode (packM 0x32 (regBits r) len 0 addr) = .ok (.hfin addr)) ∧
    (len ≠ 0 →
      decode (packM 0x2D (regBits r) len 0 addr) = .error .byteCount ∧
      decode (packM 0x31 (regBits r) len 0 addr) = .error .byteCount) ∧
    (len ≠ 0 ∨ r ≠ 0 → ∃ e, decode (packM 0x32 (regBits r) len 0 addr) = .error e)

/-- R88: the unassigned opcodes are illegal, and the all-zero word is the only NOP. -/
def Obligations.UnassignedOpcodesAreIllegal : Prop :=
  (∀ w, decode w = .error .unassignedOpcode ↔
    (opField w).toNat = 0x07 ∨ (0x12 ≤ (opField w).toNat ∧ (opField w).toNat ≤ 0x17) ∨
    (0x1B ≤ (opField w).toNat ∧ (opField w).toNat ≤ 0x1F) ∨ (opField w).toNat = 0x2E ∨ (opField w).toNat = 0x2F ∨
    (0x34 ≤ (opField w).toNat ∧ (opField w).toNat ≤ 0x37) ∨ 0x39 ≤ (opField w).toNat) ∧
  ∀ w, decode w = .ok .nop ↔ w = 0

/-- R92: the six words the spec spells out. -/
def Obligations.SpecWordsDecode : Prop :=
  decode 0x30C48000 = .ok (.modmul 3 1 2 .p) ∧ decode 0x04400061 = .ok (.ldi 1 97) ∧
  decode 0xAC414080 = .ok (.pmul 1 0 5 true) ∧ decode 0x10500100 = .ok (.ldn 1 32 0x100) ∧
  decode 0xC0000100 = .ok (.hinit 256) ∧ decode 0x00000000 = .ok .nop

/-! ## The step and the invariant -/

/-- A step runs the decoded instruction: from the queue when nothing is on the bus (the word leaves the queue and
becomes the command in execution), or as the command already in execution, also at a turn the inputs give the engine.
A turn without a command in execution starts one. With ERR = 1, or with nothing to do, the engine stands still. The
list of inputs and its turns are the model's choice (entry 2), and so is that no command starts while ERR = 1 (entry
14). -/
def Obligations.StepRunsDecodedInstruction : Prop :=
  ∀ s, s.bus.stalled = [] →
    (∀ w i rest, decode w = .ok i → s.errs.err = false → s.bus.inputs = [] → s.inExec = none → s.queue = w :: rest →
      step s = exec i (startCommand s w rest)) ∧
    (∀ w i, decode w = .ok i → s.errs.err = false → s.bus.inputs = [] → s.inExec = some w → step s = exec i s) ∧
    (∀ w i inputs, decode w = .ok i → s.errs.err = false → s.bus.inputs = .engineTurn :: inputs →
      s.inExec = some w → step s = exec i (setInputs s inputs)) ∧
    (∀ w rest inputs, s.errs.err = false → s.bus.inputs = .engineTurn :: inputs → s.inExec = none →
      s.queue = w :: rest → step s = .next (startCommand (setInputs s inputs) w rest)) ∧
    (s.bus.inputs = [] → (s.errs.err = true ∨ (s.inExec = none ∧ s.queue = [])) → step s = .next s)

/-- Every step goes on: no command hangs or stops the machine (R290; that faults and bus errors are next states is the
model's choice, entry 20). -/
def Obligations.StepNeverStops : Prop := ∀ s, ∃ t, step s = .next t

/-- Every step keeps the invariant, from every state that has it. -/
def Obligations.StateOkKeptByStep : Prop := ∀ s t, StateOk s → step s = .next t → StateOk t

/-- The reset state has the invariant. -/
def Obligations.ResetStateOk : Prop := StateOk State.reset

/-- Every instruction, in every state, either retires and writes only the state R46 lists for it, or takes EILLEGAL or
one of the faults R241 lists for it. -/
def Obligations.CommandsWriteAndFaultAsListed : Prop :=
  ∀ i s, ∃ t, exec i s = .next t ∧
    ((Retires s t ∧ OnlyChanges (writesOf i) s t) ∨ ∃ c ∈ Cause.eillegal :: causesOf i, FaultEntry c s t)

/-- R244, R245, R251: a command that ends with ERR = 1 has made the whole fault entry, with an empty queue, BUSY = 0 and
nothing else changed. -/
def Obligations.FaultsArePrecise : Prop :=
  ∀ i s t, s.errs.err = false → exec i s = .next t → t.errs.err = true →
    busy t = false ∧ qlevel t = 0 ∧ ∃ c, FaultEntry c s t

/-- R250, and CMDIDX of R32: a command that does not fault adds 1 to CMDIDX modulo 2^32, one that faults leaves it and
records it; DONE becomes 1 exactly when a command retires and the queue is empty. -/
def Obligations.RetiringIsCounted : Prop :=
  ∀ i s t, s.errs.err = false → exec i s = .next t →
    (t.errs.err = false → t.cmdidx.toNat = (s.cmdidx.toNat + 1) % 2 ^ 32) ∧
    (t.errs.err = true → t.cmdidx = s.cmdidx ∧ t.errs.idx = s.cmdidx) ∧
    (s.irqStatus.done = false → (t.irqStatus.done = true ↔ t.errs.err = false ∧ s.queue = []))

/-! ## Data movement -/

/-- R21: X0 reads 0; a write to it is discarded and the command still retires. -/
def Obligations.X0IsHardwired : Prop :=
  ∀ s, readX s 0 = 0 ∧ (∀ v, writeX s 0 v = s) ∧
    (∀ imm, Completes (.ldi 0 imm) s [] fun _ => True) ∧ ∀ r, Completes (.movx 0 r) s [] fun _ => True

/-- R100. -/
def Obligations.NopOnlyRetires : Prop :=
  EncodedAs .nop 0 ∧ (∀ w, opField w = 0 → w ≠ 0 → decode w = .error .nonzeroField) ∧
    ∀ s, Completes .nop s [] fun _ => True

/-- R101, R102, R103. -/
def Obligations.RegisterMovesAndCompare : Prop :=
  (∀ rd imm, EncodedAs (.ldi rd imm) (packI 0x01 (regBits rd) imm)) ∧
  (∀ rd rs1, EncodedAs (.movx rd rs1) (packR 0x02 (regBits rd) (regBits rs1) 0 0 0 0 0)) ∧
  (∀ rs1 rs2, EncodedAs (.cmpx rs1 rs2) (packR 0x03 0 (regBits rs1) (regBits rs2) 0 0 0 0)) ∧
  (∀ s rd imm, CompletesX (.ldi rd imm) s rd imm.toNat) ∧
  (∀ s rd rs1, CompletesX (.movx rd rs1) s rd (readX s rs1).toNat) ∧
  ∀ s rs1 rs2, CompletesFlag (.cmpx rs1 rs2) s (decide (readX s rs1 = readX s rs2))

/-- R104. -/
def Obligations.LdnLoadsBigEndian : Prop :=
  ∀ r len addr,
    (1 ≤ len.toNat ∧ len.toNat ≤ 32 →
      EncodedAs (.ldn r len addr) (packM 0x04 (regBits r) len 0 addr) ∧
      ∀ s, (addr.toNat + len.toNat ≤ 4096 →
          CompletesX (.ldn r len addr) s r (bigEndian (memRead s addr.toNat len.toNat))) ∧
        (4096 < addr.toNat + len.toNat → Faults (.ldn r len addr) s .ebounds)) ∧
    (¬(1 ≤ len.toNat ∧ len.toNat ≤ 32) → decode (packM 0x04 (regBits r) len 0 addr) = .error .byteCount)

/-- R105. -/
def Obligations.StnStoresBigEndian : Prop :=
  ∀ r len addr,
    (1 ≤ len.toNat ∧ len.toNat ≤ 32 →
      EncodedAs (.stn r len addr) (packM 0x05 (regBits r) len 0 addr) ∧
      ∀ s, (addr.toNat + len.toNat ≤ 4096 → xNat s r < 2 ^ (8 * len.toNat) →
          CompletesStore (.stn r len addr) s (spmAddr addr) (bigEndianBytes len.toNat (xNat s r))) ∧
        (4096 < addr.toNat + len.toNat → Faults (.stn r len addr) s .ebounds) ∧
        (addr.toNat + len.toNat ≤ 4096 → 2 ^ (8 * len.toNat) ≤ xNat s r → Faults (.stn r len addr) s .erange)) ∧
    (¬(1 ≤ len.toNat ∧ len.toNat ≤ 32) → decode (packM 0x05 (regBits r) len 0 addr) = .error .byteCount)

/-- An LDN right after an STN of the same range loads the value stored. -/
def Obligations.LdnAfterStnLoadsTheValue : Prop :=
  ∀ s t r rd len addr, 1 ≤ len.toNat → len.toNat ≤ 32 → addr.toNat + len.toNat ≤ 4096 →
    xNat s r < 2 ^ (8 * len.toNat) → exec (.stn r len addr) s = .next t →
      CompletesX (.ldn rd len addr) t rd (xNat s r)

/-! ## Modular arithmetic -/

/-- R113. -/
def Obligations.SetmSetsModulus : Prop :=
  ∀ rs1, EncodedAs (.setm rs1) (packR 0x06 0 (regBits rs1) 0 0 0 0 0) ∧
    ∀ s, (xNat s rs1 % 2 = 1 → 3 ≤ xNat s rs1 →
        Completes (.setm rs1) s [.modulus] fun t => t.gmod.m = readX s rs1 ∧ t.gmod.mv = true) ∧
      (xNat s rs1 % 2 = 0 ∨ xNat s rs1 < 3 → Faults (.setm rs1) s .emodulus)

/-- R114 to R118: each result is the residue of the exact integer in [0, m − 1]. -/
def Obligations.PlainModularCommands : Prop :=
  ∀ rd rs1 rs2 sel,
    ModularCommand (.modadd rd rs1 rs2 sel) (packR 0x08 (regBits rd) (regBits rs1) (regBits rs2) 0 (selBits sel) 0 0)
      sel rd 1 (fun s => xNat s rs1 + xNat s rs2) ∧
    ModularCommand (.modsub rd rs1 rs2 sel) (packR 0x09 (regBits rd) (regBits rs1) (regBits rs2) 0 (selBits sel) 0 0)
      sel rd 1 (fun s => xNat s rs1 - xNat s rs2) ∧
    ModularCommand (.modneg rd rs1 sel) (packR 0x0A (regBits rd) (regBits rs1) 0 0 (selBits sel) 0 0)
      sel rd 1 (fun s => -xNat s rs1) ∧
    ModularCommand (.modred rd rs1 sel) (packR 0x0B (regBits rd) (regBits rs1) 0 0 (selBits sel) 0 0)
      sel rd 1 (fun s => xNat s rs1) ∧
    ModularCommand (.modmul rd rs1 rs2 sel) (packR 0x0C (regBits rd) (regBits rs1) (regBits rs2) 0 (selBits sel) 0 0)
      sel rd 1 (fun s => xNat s rs1 * xNat s rs2)

/-- R120 to R122: r · 2^256 ≡ the value to be reduced for MONTMUL and MONTRED, r ≡ X · 2^256 for TOMONT, always in
[0, m − 1]. -/
def Obligations.MontgomeryCommands : Prop :=
  ∀ rd rs1 rs2 sel,
    ModularCommand (.montmul rd rs1 rs2 sel) (packR 0x0D (regBits rd) (regBits rs1) (regBits rs2) 0 (selBits sel) 0 0)
      sel rd (2 ^ 256) (fun s => xNat s rs1 * xNat s rs2) ∧
    ModularCommand (.montred rd rs1 rs2 sel) (packR 0x0E (regBits rd) (regBits rs1) (regBits rs2) 0 (selBits sel) 0 0)
      sel rd (2 ^ 256) (fun s => xNat s rs1 * 2 ^ 256 + xNat s rs2) ∧
    ModularCommand (.tomont rd rs1 sel) (packR 0x0F (regBits rd) (regBits rs1) 0 0 (selBits sel) 0 0)
      sel rd 1 (fun s => xNat s rs1 * 2 ^ 256)

/-- R125: the five identities, for every odd m from 3 on and all a, b below 2^256. -/
def Obligations.MontgomeryIdentities : Prop :=
  ∀ m a b, m % 2 = 1 → 3 ≤ m → m < 2 ^ 256 → a < 2 ^ 256 → b < 2 ^ 256 →
    (∃ ta tb r, TomontGives m a ta ∧ TomontGives m b tb ∧ MontmulGives m ta tb r ∧ TomontGives m (a * b % m) r) ∧
    (∃ ta, TomontGives m a ta ∧ MontredGives m 0 ta (a % m)) ∧
    (∃ r ab i, i < m ∧ 2 ^ 256 % m * i % m = 1 ∧ MontmulGives m a b r ∧ ModmulGives m a b ab ∧ ModmulGives m ab i r) ∧
    (∃ r, MontmulGives m a ((2 ^ 256) ^ 2 % m) r ∧ TomontGives m a r) ∧
    ∃ r, MontmulGives m a 1 r ∧ MontredGives m 0 a r

/-- R123. -/
def Obligations.ModinvFindsInverse : Prop :=
  ∀ rd rs1 sel, EncodedAs (.modinv rd rs1 sel) (packR 0x10 (regBits rd) (regBits rs1) 0 0 (selBits sel) 0 0) ∧
    ∀ s, (NoModulus s sel → Faults (.modinv rd rs1 sel) s .edomunset) ∧
      ∀ m, StateOk s → SelectedModulus s sel m →
        (Nat.gcd (xNat s rs1 % m) m = 1 →
          ∃ x, 1 ≤ x ∧ x ≤ m - 1 ∧ xNat s rs1 * x % m = 1 ∧ CompletesX (.modinv rd rs1 sel) s rd x) ∧
        (Nat.gcd (xNat s rs1 % m) m ≠ 1 → Faults (.modinv rd rs1 sel) s .enoinv)

/-- R112: without the selected modulus every command that selects one takes EDOMUNSET; with it the modulus is odd and
in [3, 2^256). -/
def Obligations.ModulusSelection : Prop :=
  ∀ s sel,
    (NoModulus s sel → ∀ rd rs1 rs2,
      ∀ i ∈ [Instr.modadd rd rs1 rs2 sel, .modsub rd rs1 rs2 sel, .modneg rd rs1 sel, .modred rd rs1 sel,
        .modmul rd rs1 rs2 sel, .montmul rd rs1 rs2 sel, .montred rd rs1 rs2 sel, .tomont rd rs1 sel,
        .modinv rd rs1 sel, .modsqrt rd rs1 sel], Faults i s .edomunset) ∧
    ∀ m, StateOk s → SelectedModulus s sel m →
      m % 2 = 1 ∧ 3 ≤ m ∧ m < 2 ^ 256 ∧ ∀ rd rs1, CompletesX (.modred rd rs1 sel) s rd (xNat s rs1 % m)

/-- R135, R136, R137: MODSQRT answers what the relation `SquareRoot` says, which always says something. -/
def Obligations.ModsqrtFollowsTonelliShanks : Prop :=
  ∀ rd rs1 sel, EncodedAs (.modsqrt rd rs1 sel) (packR 0x11 (regBits rd) (regBits rs1) 0 0 (selBits sel) 0 0) ∧
    ∀ s, (NoModulus s sel → Faults (.modsqrt rd rs1 sel) s .edomunset) ∧
      ∀ m, StateOk s → SelectedModulus s sel m →
        (∃ out, SquareRoot (xNat s rs1) m out) ∧
        (∀ r, SquareRoot (xNat s rs1) m (.ok r) → CompletesX (.modsqrt rd rs1 sel) s rd r) ∧
        ∀ c, SquareRoot (xNat s rs1) m (.error c) → Faults (.modsqrt rd rs1 sel) s c

/-- For a prime modulus a quadratic residue has its root computed, ESQRT never arises, and for m ≡ 3 (mod 4) the root
is a^((m + 1)/4) (the prose of R137, R139, R140). -/
def Obligations.ModsqrtOfPrimeResidue : Prop :=
  ∀ s rd rs1 sel m, StateOk s → SelectedModulus s sel m → Nat.Prime m →
    ((∃ y, y ^ 2 % m = xNat s rs1 % m) →
      (∃ r, r < m ∧ r ^ 2 % m = xNat s rs1 % m ∧ CompletesX (.modsqrt rd rs1 sel) s rd r) ∧
      (m % 4 = 3 → CompletesX (.modsqrt rd rs1 sel) s rd (xNat s rs1 ^ ((m + 1) / 4) % m))) ∧
    ((¬∃ y, y ^ 2 % m = xNat s rs1 % m) → Faults (.modsqrt rd rs1 sel) s .enonresidue)

/-! ## The domain -/

/-- R145, R146. -/
def Obligations.DomcrvReplacesTheDomain : Prop :=
  ∀ rs1 rs2 rs3,
    EncodedAs (.domcrv rs1 rs2 rs3) (packR 0x18 0 (regBits rs1) (regBits rs2) (regBits rs3) 0 0 0) ∧
    ∀ s p a b, p = xNat s rs1 → a = xNat s rs2 % p → b = xNat s rs3 % p →
      (p % 2 = 0 ∨ p < 3 → Faults (.domcrv rs1 rs2 rs3) s .emodulus) ∧
      (p % 2 = 1 → 3 ≤ p → (4 * a ^ 3 + 27 * b ^ 2) % p = 0 → Faults (.domcrv rs1 rs2 rs3) s .esingular) ∧
      (p % 2 = 1 → 3 ≤ p → (4 * a ^ 3 + 27 * b ^ 2) % p ≠ 0 →
        Completes (.domcrv rs1 rs2 rs3) s [.curve, .order, .base, .points] fun t =>
          t.dom.dp.toNat = p ∧ t.dom.da.toNat = a ∧ t.dom.db.toNat = b ∧ t.dom.crv = true ∧
          t.dom.dn = 0 ∧ t.dom.dh = 0 ∧ t.dom.ord = false ∧ t.dom.dg = .empty ∧ t.dom.gen = false ∧
          ∀ r, readPT t r = .empty)

/-- R148, R151. -/
def Obligations.DomordAndDomgenConfigure : Prop :=
  (∀ rs1 rs2, EncodedAs (.domord rs1 rs2) (packR 0x19 0 (regBits rs1) (regBits rs2) 0 0 0 0) ∧
    ∀ s, (s.dom.crv = false → Faults (.domord rs1 rs2) s .edomunset) ∧
      (s.dom.crv = true → (xNat s rs1 % 2 = 0 ∨ xNat s rs1 < 3) → Faults (.domord rs1 rs2) s .emodulus) ∧
      (s.dom.crv = true → xNat s rs1 % 2 = 1 → 3 ≤ xNat s rs1 →
        Completes (.domord rs1 rs2) s [.order] fun t =>
          t.dom.dn = readX s rs1 ∧ t.dom.dh = readX s rs2 ∧ t.dom.ord = true)) ∧
  ∀ rs1, EncodedAs (.domgen rs1) (packR 0x1A 0 (regBits rs1) 0 0 0 0 0) ∧
    ∀ s, ChecksPoints (.domgen rs1) s [rs1] ∧
      (s.dom.crv = true → readPT s rs1 ≠ .empty →
        Completes (.domgen rs1) s [.base] fun t => t.dom.dg = readPT s rs1 ∧ t.dom.gen = true)

/-! ## Points -/

/-- R159, R160, R161, R164. -/
def Obligations.PointLoads : Prop :=
  (∀ rd, EncodedAs (.pinf rd) (packR 0x20 (regBits rd) 0 0 0 0 0 0) ∧
    ∀ s, ChecksPoints (.pinf rd) s [] ∧ (s.dom.crv = true → CompletesPoint (.pinf rd) s rd .inf)) ∧
  (∀ rd, EncodedAs (.pgen rd) (packR 0x21 (regBits rd) 0 0 0 0 0 0) ∧
    ∀ s, (s.dom.crv = false ∨ s.dom.gen = false → Faults (.pgen rd) s .edomunset) ∧
      (s.dom.crv = true → s.dom.gen = true → CompletesPoint (.pgen rd) s rd s.dom.dg)) ∧
  (∀ rd rs1 rs2, EncodedAs (.pset rd rs1 rs2) (packR 0x22 (regBits rd) (regBits rs1) (regBits rs2) 0 0 0 0) ∧
    ∀ s, ChecksPoints (.pset rd rs1 rs2) s [] ∧
      (s.dom.crv = true → (s.dom.dp.toNat ≤ xNat s rs1 ∨ s.dom.dp.toNat ≤ xNat s rs2) →
        Faults (.pset rd rs1 rs2) s .erange) ∧
      (s.dom.crv = true → xNat s rs1 < s.dom.dp.toNat → xNat s rs2 < s.dom.dp.toNat →
        CompletesPoint (.pset rd rs1 rs2) s rd (.aff (readX s rs1) (readX s rs2)))) ∧
  ∀ rd rs1, EncodedAs (.pmov rd rs1) (packR 0x25 (regBits rd) (regBits rs1) 0 0 0 0 0) ∧
    ∀ s, ChecksPoints (.pmov rd rs1) s [rs1] ∧
      (s.dom.crv = true → readPT s rs1 ≠ .empty → CompletesPoint (.pmov rd rs1) s rd (readPT s rs1))

/-- R162, R163, R165, R166. -/
def Obligations.PointReads : Prop :=
  (∀ rd rs1, EncodedAs (.pgetx rd rs1) (packR 0x23 (regBits rd) (regBits rs1) 0 0 0 0 0) ∧
    EncodedAs (.pgety rd rs1) (packR 0x24 (regBits rd) (regBits rs1) 0 0 0 0 0) ∧
    ∀ s, ChecksPoints (.pgetx rd rs1) s [rs1] ∧ ChecksPoints (.pgety rd rs1) s [rs1] ∧
      (s.dom.crv = true → readPT s rs1 = .inf →
        (Completes (.pgetx rd rs1) s [.x, .flag] fun t => XWritten s rd 0 t ∧ t.f = true) ∧
        Completes (.pgety rd rs1) s [.x, .flag] fun t => XWritten s rd 0 t ∧ t.f = true) ∧
      ∀ x y, s.dom.crv = true → readPT s rs1 = .aff x y →
        (Completes (.pgetx rd rs1) s [.x, .flag] fun t => XWritten s rd x.toNat t ∧ t.f = false) ∧
        Completes (.pgety rd rs1) s [.x, .flag] fun t => XWritten s rd y.toNat t ∧ t.f = false) ∧
  (∀ rs1 rs2, EncodedAs (.peq rs1 rs2) (packR 0x26 0 (regBits rs1) (regBits rs2) 0 0 0 0) ∧
    ∀ s, ChecksPoints (.peq rs1 rs2) s [rs1, rs2] ∧
      (s.dom.crv = true → readPT s rs1 ≠ .empty → readPT s rs2 ≠ .empty →
        CompletesFlag (.peq rs1 rs2) s (decide (readPT s rs1 = readPT s rs2)))) ∧
  ∀ rs1, EncodedAs (.pisinf rs1) (packR 0x27 0 (regBits rs1) 0 0 0 0 0) ∧
    ∀ s, ChecksPoints (.pisinf rs1) s [rs1] ∧
      (s.dom.crv = true → readPT s rs1 ≠ .empty →
        CompletesFlag (.pisinf rs1) s (decide (readPT s rs1 = .inf)))

/-- R23: every command that reads a point register takes EPOINT when it holds EMPTY (once the domain it needs is
configured) and writes nothing; reset and DOMCRV empty every point register. -/
def Obligations.EmptyPointRegisterFaults : Prop :=
  (∀ s r q rd rx ry rz neg addr, s.dom.crv = true → readPT s r = .empty →
    (∀ i ∈ [Instr.domgen r, .pgetx rd r, .pgety rd r, .pmov rd r, .peq r q, .peq q r, .pisinf r, .padd rd r q,
      .padd rd q r, .pdbl rd r, .pneg rd r, .pmul rd r rx neg, .penc r addr], Faults i s .epoint) ∧
    (s.dom.ord = true → s.dom.gen = true → Faults (.ecdsav r rx ry rz) s .epoint)) ∧
  (∀ r, readPT State.reset r = .empty) ∧
  ∀ rs1 rs2 rs3 s t r, exec (.domcrv rs1 rs2 rs3) s = .next t → Retires s t → readPT t r = .empty

/-- R155, R156, R167, R168, R169 and the EPOINT and EDOMUNSET checks: PADD, PDBL and PNEG. -/
def Obligations.PointAdditionAndNegation : Prop :=
  ∀ rd rs1 rs2,
    EncodedAs (.padd rd rs1 rs2) (packR 0x28 (regBits rd) (regBits rs1) (regBits rs2) 0 0 0 0) ∧
    EncodedAs (.pdbl rd rs1) (packR 0x29 (regBits rd) (regBits rs1) 0 0 0 0 0) ∧
    EncodedAs (.pneg rd rs1) (packR 0x2A (regBits rd) (regBits rs1) 0 0 0 0 0) ∧
    ∀ s, ChecksPoints (.padd rd rs1 rs2) s [rs1, rs2] ∧ ChecksPoints (.pdbl rd rs1) s [rs1] ∧
      ChecksPoints (.pneg rd rs1) s [rs1] ∧
      (StateOk s → s.dom.crv = true →
        AddsPoints (.padd rd rs1 rs2) s rd (readPT s rs1) (readPT s rs2) ∧
        AddsPoints (.pdbl rd rs1) s rd (readPT s rs1) (readPT s rs1) ∧
        (readPT s rs1 ≠ .empty → CompletesPoint (.pneg rd rs1) s rd (mirror s.dom.dp.toNat (readPT s rs1))))

/-- R157 and the prose of R170: over a prime field PADD, PDBL and PMUL never take ENOINV; they complete for all points
and scalars. -/
def Obligations.PrimeFieldPointsComplete : Prop :=
  ∀ s rd rs1 rs2 rx neg, StateOk s → s.dom.crv = true → Nat.Prime s.dom.dp.toNat → readPT s rs1 ≠ .empty →
    readPT s rs2 ≠ .empty →
      (∃ v, CompletesPoint (.padd rd rs1 rs2) s rd v) ∧ (∃ v, CompletesPoint (.pdbl rd rs1) s rd v) ∧
        ∃ v, CompletesPoint (.pmul rd rs1 rx neg) s rd v

/-- The first part of R171: P + (−P) = INF and P + INF = P for every point value, on the curve or not, and also for a
composite p. -/
def Obligations.PointPlusNegativeIsInfinity : Prop :=
  ∀ p a x y, 3 ≤ p → p % 2 = 1 → x < p → y < p →
    pointAdd p a (.aff x y) (pointNeg p (.aff x y)) = .ok .inf ∧ pointAdd p a (.aff x y) .inf = .ok (.aff x y) ∧
      pointAdd p a .inf (.aff x y) = .ok (.aff x y) ∧ pointAdd p a .inf (pointNeg p .inf) = .ok .inf

/-- ScalarMul of R158: 0 gives INF; a scalar with one more bit below doubles the result for the other bits and then
adds the point when the bit is 1. A failed addition ends it. -/
def Obligations.ScalarMulDoublesAndAdds : Prop :=
  ∀ p a q, scalarMul p a q 0 = .ok .inf ∧
    ∀ k, (∀ c, scalarMul p a q k = .error c → scalarMul p a q (2 * k) = .error c ∧
        scalarMul p a q (2 * k + 1) = .error c) ∧
      ∀ r, scalarMul p a q k = .ok r →
        scalarMul p a q (2 * k) = pointAdd p a r r ∧
        (∀ c, pointAdd p a r r = .error c → scalarMul p a q (2 * k + 1) = .error c) ∧
        ∀ r2, pointAdd p a r r = .ok r2 → scalarMul p a q (2 * k + 1) = pointAdd p a r2 q

/-- R170. -/
def Obligations.PmulMultipliesByScalar : Prop :=
  ∀ rd rs1 rs2 neg,
    EncodedAs (.pmul rd rs1 rs2 neg)
      (packR 0x2B (regBits rd) (regBits rs1) (regBits rs2) 0 0 (if neg then 1 else 0) 0) ∧
    ∀ s, ChecksPoints (.pmul rd rs1 rs2 neg) s [rs1] ∧
      ∀ q, StateOk s → s.dom.crv = true → ptPoint s rs1 = some q →
        (∀ v, scalarMul (fieldP s) (coeffA s) q (xNat s rs2) = .ok v →
          CompletesPoint (.pmul rd rs1 rs2 neg) s rd (if neg then mirror (fieldP s) v.toReg else v.toReg)) ∧
        (∀ c, scalarMul (fieldP s) (coeffA s) q (xNat s rs2) = .error c →
          c = .enoinv ∧ Faults (.pmul rd rs1 rs2 neg) s .enoinv) ∧
        (xNat s rs2 = 0 → CompletesPoint (.pmul rd rs1 rs2 neg) s rd .inf) ∧
        (xNat s rs2 = 1 → CompletesPoint (.pmul rd rs1 rs2 neg) s rd
          (if neg then mirror (fieldP s) (readPT s rs1) else readPT s rs1))

/-- The last part of R171's first sentence: for points of the curve double-and-add equals repeated addition. -/
def Obligations.ScalarMulIsRepeatedAddition : Prop :=
  ∀ p a b q k, PrimeCurve p a b → OnCurve p a b q →
    ∃ v, scalarMul p a q k = .ok v ∧ repeatedAdd p a q k = .ok v ∧ OnCurve p a b v

/-- The group laws R171 names, on the points of the curve: closed, commutative, associative, with negatives;
multiplication by a scalar distributes over addition. -/
def Obligations.PointsFormAGroup : Prop :=
  ∀ p a b, PrimeCurve p a b → ∀ q r u, OnCurve p a b q → OnCurve p a b r → OnCurve p a b u →
    (∃ v, OnCurve p a b v ∧ pointAdd p a q r = .ok v ∧ pointAdd p a r q = .ok v) ∧
    (∃ qr ru v, pointAdd p a q r = .ok qr ∧ pointAdd p a r u = .ok ru ∧ pointAdd p a qr u = .ok v ∧
      pointAdd p a q ru = .ok v) ∧
    (OnCurve p a b (pointNeg p q) ∧ pointAdd p a q (pointNeg p q) = .ok .inf) ∧
    ∀ k, ∃ qr kq kr v, pointAdd p a q r = .ok qr ∧ scalarMul p a qr k = .ok v ∧ scalarMul p a q k = .ok kq ∧
      scalarMul p a r k = .ok kr ∧ pointAdd p a kq kr = .ok v

/-! ## The point codec -/

/-- R185, R187: the forms of an octet string and the fault of every other one. `Sqrt` is the relation of R137. -/
def Obligations.PdecFollowsDecode : Prop :=
  ∀ r len addr,
    (¬(1 ≤ len.toNat ∧ len.toNat ≤ 65) → decode (packM 0x2C (regBits r) len 0 addr) = .error .byteCount) ∧
    (1 ≤ len.toNat ∧ len.toNat ≤ 65 →
      EncodedAs (.pdec r len addr) (packM 0x2C (regBits r) len 0 addr) ∧
      ∀ s, (s.dom.crv = false → Faults (.pdec r len addr) s .edomunset) ∧
        (s.dom.crv = true → 4096 < addr.toNat + len.toNat → Faults (.pdec r len addr) s .ebounds) ∧
        ∀ p pl n x y, StateOk s → s.dom.crv = true → addr.toNat + len.toNat ≤ 4096 →
          p = s.dom.dp.toNat → pl = (Nat.size p + 7) / 8 → n = (readByte s addr.toNat).toNat →
          x = bigEndian (memRead s (addr.toNat + 1) pl) → y = bigEndian (memRead s (addr.toNat + 1 + pl) pl) →
            (len.toNat = 1 → n = 0 → CompletesPoint (.pdec r len addr) s r .inf) ∧
            (len.toNat = 1 + pl → (n = 2 ∨ n = 3) →
              (p ≤ x → Faults (.pdec r len addr) s .edecode) ∧
              (x < p → ∀ out, SquareRoot ((x ^ 3 + s.dom.da.toNat * x + s.dom.db.toNat) % p) p out →
                (∀ c, out = .error c → Faults (.pdec r len addr) s c) ∧
                ∀ root, out = .ok root →
                  (root % 2 = n - 2 →
                    CompletesPoint (.pdec r len addr) s r (.aff (BitVec.ofNat 256 x) (BitVec.ofNat 256 root))) ∧
                  (root % 2 ≠ n - 2 → root = 0 → Faults (.pdec r len addr) s .edecode) ∧
                  (root % 2 ≠ n - 2 → root ≠ 0 →
                    CompletesPoint (.pdec r len addr) s r
                      (.aff (BitVec.ofNat 256 x) (BitVec.ofNat 256 (p - root)))))) ∧
            (len.toNat = 1 + 2 * pl → n = 4 →
              (p ≤ x ∨ p ≤ y → Faults (.pdec r len addr) s .edecode) ∧
              (x < p → y < p →
                CompletesPoint (.pdec r len addr) s r (.aff (BitVec.ofNat 256 x) (BitVec.ofNat 256 y)))) ∧
            (¬(len.toNat = 1 ∧ n = 0) → ¬(len.toNat = 1 + pl ∧ (n = 2 ∨ n = 3)) →
              ¬(len.toNat = 1 + 2 * pl ∧ n = 4) → Faults (.pdec r len addr) s .edecode))

/-- R188. -/
def Obligations.PencStoresCompressedForm : Prop :=
  ∀ r addr, EncodedAs (.penc r addr) (packM 0x2D (regBits r) 0 0 addr) ∧
    ∀ s pl, pl = (Nat.size s.dom.dp.toNat + 7) / 8 → ChecksPoints (.penc r addr) s [r] ∧
      (s.dom.crv = true → readPT s r = .inf → CompletesStore (.penc r addr) s (spmAddr addr) [0]) ∧
      ∀ x y, StateOk s → s.dom.crv = true → readPT s r = .aff x y →
        (addr.toNat + (1 + pl) ≤ 4096 →
          CompletesStore (.penc r addr) s (spmAddr addr)
            (BitVec.ofNat 8 (2 + y.toNat % 2) :: bigEndianBytes pl x.toNat)) ∧
        (4096 < addr.toNat + (1 + pl) → Faults (.penc r addr) s .ebounds)

/-- R189: over a prime field, PDEC of the bytes PENC has stored gives the point back when it is on the curve, and never
gives it back when it is not. -/
def Obligations.PointCodecRoundTrip : Prop :=
  ∀ s t r rd len addr q, StateOk s → s.dom.crv = true → Nat.Prime s.dom.dp.toNat → ptPoint s r = some q →
    exec (.penc r addr) s = .next t → Retires s t → len.toNat = (encodePoint (plen s) q).length →
      (OnCurve (fieldP s) (coeffA s) (coeffB s) q → CompletesPoint (.pdec rd len addr) t rd (readPT s r)) ∧
      (¬OnCurve (fieldP s) (coeffA s) (coeffB s) q → ¬CompletesPoint (.pdec rd len addr) t rd (readPT s r))

/-! ## Hash -/

/-- R209, with the initial chaining value of R201: the seed (32, L, 0, …) compressed with the block of zeros. -/
def Obligations.HinitStartsDigest : Prop :=
  ∀ imm, EncodedAs (.hinit imm) (packI 0x30 0 imm) ∧
    ∀ s, (imm.toNat < 1 ∨ 256 < imm.toNat → Faults (.hinit imm) s .ehashlen) ∧
      (1 ≤ imm.toNat → imm.toNat ≤ 256 → Completes (.hinit imm) s [.hash] fun t =>
        t.hash.phase = .absorb ∧
        t.hash.cv =
          compress #v[32, imm.setWidth 32, 0, 0, 0, 0, 0, 0, 0, 0, 0, 0, 0, 0, 0, 0] (Vector.replicate 128 0) ∧
        (∀ k : Fin 128, t.hash.buf[k] = 0) ∧
        t.hash.bpos = 0 ∧ t.hash.rb = 0 ∧ t.hash.hl.val = imm.toNat)

/-- R210. -/
def Obligations.HupdAbsorbsBits : Prop :=
  ∀ r addr, EncodedAs (.hupd r addr) (packM 0x31 (regBits r) 0 0 addr) ∧
    ∀ s n whole, n = xNat s r → whole = absorbAll s.hash (memRead s addr.toNat (n / 8)) →
      (s.hash.phase ≠ .absorb → Faults (.hupd r addr) s .ehashseq) ∧
      (s.hash.phase = .absorb → 4096 < addr.toNat + (n + 7) / 8 → Faults (.hupd r addr) s .ebounds) ∧
      (s.hash.phase = .absorb → addr.toNat + (n + 7) / 8 ≤ 4096 →
        (n % 8 = 0 → Completes (.hupd r addr) s [.hash] fun t => t.hash = whole) ∧
        (n % 8 ≠ 0 → Completes (.hupd r addr) s [.hash] fun t =>
          t.hash.phase = .finalbits ∧ t.hash.rb.val = n % 8 ∧ t.hash.cv = whole.cv ∧ t.hash.bpos = whole.bpos ∧
          t.hash.hl = whole.hl ∧
          ∀ k : Fin 128, t.hash.buf[k] =
            if k = whole.bpos then readByte s (addr.toNat + n / 8) &&& (0xFF#8 <<< (8 - n % 8))
            else whole.buf[k]))

/-- R211. -/
def Obligations.HfinFinalizesDigest : Prop :=
  ∀ addr, EncodedAs (.hfin addr) (packM 0x32 0 0 0 addr) ∧
    ∀ s len digest, len = (s.hash.hl.val + 7) / 8 →
      digest = finish (compress s.hash.cv (pad s.hash.buf s.hash.bpos s.hash.rb.val)) s.hash.hl.val →
      (s.hash.phase = .idle → Faults (.hfin addr) s .ehashseq) ∧
      (s.hash.phase ≠ .idle → 4096 < addr.toNat + len → Faults (.hfin addr) s .ebounds) ∧
      (s.hash.phase ≠ .idle → addr.toNat + len ≤ 4096 →
        Completes (.hfin addr) s [.hash, .digest, .memory] fun t =>
          BytesStored s (spmAddr addr) digest t ∧ t.digest.hdlen = s.hash.hl ∧ t.digest.hdv = true ∧
          (∀ k : Fin 32, t.digest.hd[k] = if k.val < len then digest.getD k.val 0 else 0) ∧
          t.hash.phase = .idle ∧ t.hash.cv = Vector.replicate 16 0 ∧ t.hash.buf = Vector.replicate 128 0 ∧
          t.hash.bpos = 0 ∧ t.hash.rb = 0 ∧ t.hash.hl = 0)

/-- R212. -/
def Obligations.HtoeTakesLeftmostBits : Prop :=
  ∀ rd, EncodedAs (.htoe rd) (packR 0x33 (regBits rd) 0 0 0 0 0 0) ∧
    ∀ s len, len = (s.digest.hdlen.val + 7) / 8 →
      (s.dom.ord = false → Faults (.htoe rd) s .edomunset) ∧
      (s.dom.ord = true → s.digest.hdv = false → Faults (.htoe rd) s .ehashseq) ∧
      (s.dom.ord = true → s.digest.hdv = true →
        CompletesX (.htoe rd) s rd (bigEndian (s.digest.hd.toList.take len) /
          2 ^ (8 * len - min s.digest.hdlen.val (Nat.size s.dom.dn.toNat))))

/-- R197 to R200 and the recurrence of R196: `compress` is the 26 steps over the 27 sub-messages, for every sequence of
sub-messages m, constants sc and words t that follows the rules' recurrences. -/
def Obligations.CompressFollowsTheSchedule : Prop :=
  ∀ (cv : Words16) (block : Vector Byte 128) (m t : Nat → Words16) (sc : Nat → StepConsts),
    (∀ l : Fin 16, (m 0)[l].toNat = block[4 * l.val].toNat + 2 ^ 8 * block[4 * l.val + 1].toNat +
      2 ^ 16 * block[4 * l.val + 2].toNat + 2 ^ 24 * block[4 * l.val + 3].toNat) →
    (∀ l : Fin 16, (m 1)[l].toNat = block[64 + 4 * l.val].toNat + 2 ^ 8 * block[64 + 4 * l.val + 1].toNat +
      2 ^ 16 * block[64 + 4 * l.val + 2].toNat + 2 ^ 24 * block[64 + 4 * l.val + 3].toNat) →
    (∀ j, ∀ l : Fin 16, (m (j + 2))[l] = (m (j + 1))[l] + (m j)[tau[l]]) →
    sc 0 = stepConst0 → (∀ j, ∀ l : Fin 8, (sc (j + 1))[l] = (sc j)[l] + (sc j)[l].rotateLeft 8) →
    t 0 = cv → (∀ j, ∀ l : Fin 16, (t (j + 1))[l] = mixedWord j (t j) (m j) (sc j) sigma[l]) →
      ∀ l : Fin 16, (compress cv block)[l] = (t 26)[l] ^^^ (m 26)[l]

/-- R204, R205, bit by bit: the padded block keeps the message bits, sets the next bit and clears the rest; the digest
has ceil8(L) bytes, the first L bits of the folded words in little-endian byte order, the rest 0. -/
def Obligations.PaddingAndTruncation : Prop :=
  (∀ (buf : Vector Byte 128) (bpos : Fin 128) (rb : Nat) (k : Fin 128) (i : Nat), rb < 8 → i < 8 →
    (k < bpos → (pad buf bpos rb)[k] = buf[k]) ∧ (bpos < k → (pad buf bpos rb)[k] = 0) ∧
    (pad buf bpos rb)[bpos].getMsbD i = if i < rb then buf[bpos].getMsbD i else decide (i = rb)) ∧
  ∀ (cv : Words16) (len n : Nat), 1 ≤ len → len ≤ 256 → (finish cv len).length = (len + 7) / 8 ∧
    ∀ w : Fin 8, n < 32 → 32 * w.val + n < 8 * ((len + 7) / 8) →
      ((finish cv len).getD (4 * w.val + n / 8) 0).getMsbD (n % 8) =
        (decide (32 * w.val + n < len) &&
          (cv[w.val] ^^^ cv[w.val + 8]).getLsbD (8 * (n / 8) + (7 - n % 8)))

/-- R213 with R207: HINIT, HUPD commands of complete bytes, at most one last HUPD with a partial byte, and HFIN store
the hash of the whole message, however it was split. -/
def Obligations.StreamingGivesTheHash : Prop :=
  ∀ imm s0 t0 bytes s, exec (.hinit imm) s0 = .next t0 → Retires s0 t0 → Absorbs t0.hash bytes s.hash →
    (∀ addr, addr.toNat + (imm.toNat + 7) / 8 ≤ 4096 →
      Completes (.hfin addr) s [.hash, .digest, .memory]
        (BytesStored s (spmAddr addr) (hashMessage bytes 0 0 imm.toNat))) ∧
    ∀ r addr n rb t u, xNat s r = 8 * n + rb → 1 ≤ rb → rb < 8 → exec (.hupd r addr) s = .next t → Retires s t →
      u.hash = t.hash → ∀ addr', addr'.toNat + (imm.toNat + 7) / 8 ≤ 4096 →
        Completes (.hfin addr') u [.hash, .digest, .memory]
          (BytesStored u (spmAddr addr')
            (hashMessage (bytes ++ memRead s addr.toNat n) rb (readByte s (addr.toNat + n)) imm.toNat))

/-! ## Signature verification -/

/-- R230, R231, R233: when ECDSAV faults and which flag it writes. -/
def Obligations.EcdsavVerifies : Prop :=
  ∀ rd rs1 rs2 rs3,
    EncodedAs (.ecdsav rd rs1 rs2 rs3) (packR 0x38 (regBits rd) (regBits rs1) (regBits rs2) (regBits rs3) 0 0 0) ∧
    ∀ s, (s.dom.crv = false ∨ s.dom.ord = false ∨ s.dom.gen = false →
        Faults (.ecdsav rd rs1 rs2 rs3) s .edomunset) ∧
      (s.dom.crv = true → s.dom.ord = true → s.dom.gen = true → readPT s rd = .empty →
        Faults (.ecdsav rd rs1 rs2 rs3) s .epoint) ∧
      ∀ n e r c g q, StateOk s → s.dom.crv = true → s.dom.ord = true → s.dom.gen = true → n = s.dom.dn.toNat →
        e = xNat s rs1 → r = xNat s rs2 → c = xNat s rs3 → s.dom.dg.toPoint = some g → ptPoint s rd = some q →
        (¬(1 ≤ r ∧ r ≤ n - 1 ∧ 1 ≤ c ∧ c ≤ n - 1) → CompletesFlag (.ecdsav rd rs1 rs2 rs3) s false) ∧
        (1 ≤ r ∧ r ≤ n - 1 ∧ 1 ≤ c ∧ c ≤ n - 1 →
          (Nat.gcd c n ≠ 1 → Faults (.ecdsav rd rs1 rs2 rs3) s .enoinv) ∧
          ∀ w, w < n → c * w % n = 1 →
            (∀ p1 p2 v, scalarMul (fieldP s) (coeffA s) g (e * w % n) = .ok p1 →
              scalarMul (fieldP s) (coeffA s) q (r * w % n) = .ok p2 →
              pointAdd (fieldP s) (coeffA s) p1 p2 = .ok v →
                (v = .inf → CompletesFlag (.ecdsav rd rs1 rs2 rs3) s false) ∧
                ∀ x y, v = .aff x y → CompletesFlag (.ecdsav rd rs1 rs2 rs3) s (decide (x % n = r))) ∧
            ((∃ f, scalarMul (fieldP s) (coeffA s) g (e * w % n) = .error f) ∨
              (∃ f, scalarMul (fieldP s) (coeffA s) q (r * w % n) = .error f) ∨
              (∃ p1 p2 f, scalarMul (fieldP s) (coeffA s) g (e * w % n) = .ok p1 ∧
                scalarMul (fieldP s) (coeffA s) q (r * w % n) = .ok p2 ∧
                pointAdd (fieldP s) (coeffA s) p1 p2 = .error f) →
              Faults (.ecdsav rd rs1 rs2 rs3) s .enoinv) ∧
            (Nat.Prime (fieldP s) → ∃ b, CompletesFlag (.ecdsav rd rs1 rs2 rs3) s b))

/-- A genuine signature is accepted: for a base point g of prime order n on a curve over a prime field, the key d·g and
the pair (r, c) with r = (k·g).x mod n and k·c ≡ e + r·d (mod n), ECDSAV writes F = 1. -/
def Obligations.EcdsavAcceptsGenuineSignatures : Prop :=
  ∀ s rd rs1 rs2 rs3 n d k g q x y, StateOk s → s.dom.crv = true → s.dom.ord = true → s.dom.gen = true →
    Nat.Prime (fieldP s) → n = s.dom.dn.toNat → Nat.Prime n → s.dom.dg.toPoint = some g → ptPoint s rd = some q →
    OnCurve (fieldP s) (coeffA s) (coeffB s) g → scalarMul (fieldP s) (coeffA s) g n = .ok .inf →
    scalarMul (fieldP s) (coeffA s) g d = .ok q → scalarMul (fieldP s) (coeffA s) g k = .ok (.aff x y) →
    xNat s rs2 = x % n → 1 ≤ x % n → 1 ≤ xNat s rs3 → xNat s rs3 < n →
    k * xNat s rs3 % n = (xNat s rs1 + x % n * d) % n →
      CompletesFlag (.ecdsav rd rs1 rs2 rs3) s true

/-- R27, and R24's "by no command": no command reads DH or F. Two states that differ in them only are taken to states
that differ in them only; a command that retires and writes F (or DN, DH and ORD) writes the same F (the same DH) in
both, and otherwise each state keeps its own. -/
def Obligations.CofactorAndFlagAreNotRead : Prop :=
  ∀ i s s' t, SameButCofactorAndFlag s s' → exec i s = .next t →
    ∃ t', exec i s' = .next t' ∧ SameButCofactorAndFlag t t' ∧ (Retires s t ↔ Retires s' t') ∧
      (Retires s t ∧ .flag ∈ writesOf i → t'.f = t.f) ∧
      (¬(Retires s t ∧ .flag ∈ writesOf i) → t.f = s.f ∧ t'.f = s'.f) ∧
      (Retires s t ∧ .order ∈ writesOf i → t'.dom.dh = t.dom.dh) ∧
      (¬(Retires s t ∧ .order ∈ writesOf i) → t.dom.dh = s.dom.dh ∧ t'.dom.dh = s'.dom.dh)

/-! ## The host's side

A statement about `HostAccess` holds also while accesses of other masters wait (entry 3). -/

/-- R36 to R42: what an aligned 32-bit read of each CSR returns, also while accesses of other masters wait. It changes
nothing but the list of answers; that list and the list of waiting accesses are the model's choices (entries 3, 18). -/
def Obligations.CsrReads : Prop :=
  ∀ s m rest,
    let reads := fun (o : BitVec 13) (v : Word) => HostAccess s m (.read o .word) rest →
      step s = .next (answered s rest { master := m, busError := false, data := v })
    reads 0x000 0x4D4D5231 ∧ reads 0x004 0x10101020 ∧ reads 0x008 0 ∧ reads 0x018 0 ∧ reads 0x01C s.cmdidx ∧
    reads 0x010 ((if s.irqEn.done then 1 else 0) + if s.irqEn.err then 2 else 0) ∧
    reads 0x014 ((if s.irqStatus.done then 1 else 0) + if s.irqStatus.err then 2 else 0) ∧
    reads 0x020 (s.errs.cause.setWidth 32) ∧ reads 0x024 s.errs.cmd ∧ reads 0x028 s.errs.idx ∧
    (∀ o : BitVec 13, 0x02C ≤ o.toNat → o.toNat ≤ 0xFFC → o.toNat % 4 = 0 → reads o 0) ∧
    (s.queue.length ≤ 16 → ∃ v : Word, reads 0x00C v ∧
      v.getLsbD 0 = (decide (s.queue ≠ []) || s.inExec.isSome) ∧ v.getLsbD 1 = s.errs.err ∧ v.getLsbD 2 = s.f ∧
      v.getLsbD 3 = s.dom.crv ∧ v.getLsbD 4 = s.dom.ord ∧ v.getLsbD 5 = s.dom.gen ∧ v.getLsbD 6 = s.gmod.mv ∧
      v.getLsbD 7 = s.digest.hdv ∧
      (v.extractLsb' 8 2).toNat = (match s.hash.phase with | .idle => 0 | .absorb => 1 | .finalbits => 2) ∧
      (v.extractLsb' 10 6) = 0 ∧ (v.extractLsb' 16 5).toNat = s.queue.length ∧ (v.extractLsb' 21 11) = 0)

/-- R39, R246: a CMD write is discarded while ERR = 1, queued while an entry is free, and waits otherwise. The lists of
waiting accesses and of answers, and the data 0 of the answer, are the model's choices (entries 3, 17, 18). -/
def Obligations.CmdWriteQueuesTheWord : Prop :=
  ∀ s m w rest, HostAccess s m (.write 0x018 .word w) rest →
    let done := answered s rest { master := m, busError := false, data := 0 }
    (s.errs.err = true → step s = .next done) ∧
    (s.errs.err = false → s.queue.length < 16 → step s = .next { done with queue := s.queue ++ [w] }) ∧
    (s.errs.err = false → 16 ≤ s.queue.length →
      step s = .next (waiting s rest { master := m, access := .write 0x018 .word w }))

/-- R64, R65, R246: the first waiting access is made as soon as it may be, whatever its kind: a CMD write when an entry
is free (or discarded while ERR = 1), an access to the SPM part when BUSY = 0. While all of them have to wait and
nothing outside moves, the engine goes on: it starts the oldest queued command or ends the one in execution. The list of
waiting accesses and its order, the bus error of a misaligned access after its wait, the unused data bits and the list
of answers are the model's choices (entries 3, 7, 17, 18). -/
def Obligations.StalledAccessesComplete : Prop :=
  ∀ s, (∀ m others,
      let done := released s others { master := m, busError := false, data := 0 }
      (∀ w, s.bus.stalled = { master := m, access := .write 0x018 .word w } :: others →
        (s.errs.err = false → s.queue.length < 16 → step s = .next { done with queue := s.queue ++ [w] }) ∧
        (s.errs.err = true → step s = .next done)) ∧
      ∀ (o : BitVec 13) (width : AccessWidth), 0x1000 ≤ o.toNat → busy s = false →
        (o.toNat % width.size = 0 → SpmAccessMade s m o width others) ∧
        (o.toNat % width.size ≠ 0 → ∀ data,
          (s.bus.stalled = { master := m, access := .read o width } :: others ∨
            s.bus.stalled = { master := m, access := .write o width data } :: others) →
          step s = .next (released s others { master := m, busError := true, data := 0 }))) ∧
    (s.bus.stalled ≠ [] → AllWait s → NothingOutside s → s.errs.err = false →
      (∀ w0 tail, s.inExec = none → s.queue = w0 :: tail → step s = .next (startCommand s w0 tail)) ∧
      (∀ w0 i, s.inExec = some w0 → decode w0 = .ok i → step s = exec i s) ∧
      ∀ w0 e, s.inExec = some w0 → decode w0 = .error e → ∃ t, step s = .next t ∧ FaultEntry .eillegal s t)

/-- R52, R53, R65: an aligned access to the SPM part moves the bytes in little-endian order while BUSY = 0, and waits
while BUSY = 1. That the unused data bits of an answer are 0, and the lists of waiting accesses and of answers, are the
model's choices (entries 3, 17, 18). -/
def Obligations.SpmWindowIsLittleEndian : Prop :=
  ∀ s m rest (o : BitVec 13) (width : AccessWidth) (data : Word), 0x1000 ≤ o.toNat → o.toNat % width.size = 0 →
    (HostAccess s m (.read o width) rest →
      (busy s = true → step s = .next (waiting s rest { master := m, access := .read o width })) ∧
      (busy s = false → ∃ v : Word,
        step s = .next (answered s rest { master := m, busError := false, data := v }) ∧
        ∀ k, k < 4 → v.extractLsb' (8 * k) 8 = if k < width.size then readByte s (o.toNat - 0x1000 + k) else 0)) ∧
    (HostAccess s m (.write o width data) rest →
      (busy s = true → step s = .next (waiting s rest { master := m, access := .write o width data })) ∧
      (busy s = false → ∃ spm t, step s = .next t ∧
        t = { answered s rest { master := m, busError := false, data := 0 } with spm := spm } ∧
        ∀ a, readByte t a =
          if o.toNat - 0x1000 ≤ a ∧ a < o.toNat - 0x1000 + width.size then
            data.extractLsb' (8 * (a - (o.toNat - 0x1000))) 8
          else readByte s a))

/-- R54, R58, R249: a misaligned access to the SPM part while BUSY = 0 (entry 7), or a CSR access that is not an aligned
word, is answered with a bus error and changes nothing else. A read returns 0; that the answer to a write holds the data
0 too, and the lists of waiting accesses and of answers, are the model's choices (entries 3, 17, 18). -/
def Obligations.BusErrorsChangeNothing : Prop :=
  ∀ s m rest (o : BitVec 13) (width : AccessWidth) (data : Word),
    (0x1000 ≤ o.toNat ∧ o.toNat % width.size ≠ 0 ∧ busy s = false) ∨
      (o.toNat < 0x1000 ∧ (width ≠ .word ∨ o.toNat % 4 ≠ 0)) →
    (HostAccess s m (.read o width) rest ∨ HostAccess s m (.write o width data) rest) →
      step s = .next (answered s rest { master := m, busError := true, data := 0 })

/-- R34, R35, R38, R42, R247, R252: ERRCLR clears ERR alone; a write to IRQ_EN sets the enables; a 1 written to
IRQ_STATUS clears its bit; a write to a read-only register or a reserved offset is ignored; the irq line is the enabled
pending bits. The lists of waiting accesses and of answers and the data 0 of an answer are the model's choices (entries
3, 17, 18). -/
def Obligations.ControlAndInterruptWrites : Prop :=
  ∀ s m w rest,
    let done := answered s rest { master := m, busError := false, data := 0 }
    (HostAccess s m (.write 0x008 .word w) rest → w.getLsbD 0 = false → w.getLsbD 1 = true →
      step s = .next { done with errs := { s.errs with err := false } }) ∧
    (HostAccess s m (.write 0x008 .word w) rest → w.getLsbD 0 = false → w.getLsbD 1 = false →
      step s = .next done) ∧
    (HostAccess s m (.write 0x010 .word w) rest →
      step s = .next { done with irqEn := { done := w.getLsbD 0, err := w.getLsbD 1 } }) ∧
    (HostAccess s m (.write 0x014 .word w) rest →
      step s = .next { done with
        irqStatus := { done := s.irqStatus.done && !w.getLsbD 0, err := s.irqStatus.err && !w.getLsbD 1 } }) ∧
    (∀ o : BitVec 13, 0x02C ≤ o.toNat → o.toNat ≤ 0xFFC → o.toNat % 4 = 0 →
      HostAccess s m (.write o .word w) rest → step s = .next done) ∧
    (∀ o ∈ [(0x000 : BitVec 13), 0x004, 0x00C, 0x01C, 0x020, 0x024, 0x028],
      HostAccess s m (.write o .word w) rest → step s = .next done) ∧
    (irqLine s = true ↔
      (s.irqStatus.done = true ∧ s.irqEn.done = true) ∨ (s.irqStatus.err = true ∧ s.irqEn.err = true))

/-- R253: nothing but a reset interrupts the engine: no host access other than a write of 1 to CTRL.SRST changes the
command in execution, CMDIDX or what a command works on, also while accesses of other masters wait (entry 3). -/
def Obligations.NothingInterruptsACommand : Prop :=
  ∀ s t m access rest w, HostAccess s m access rest → s.inExec = some w →
    (∀ data, access = .write 0x008 .word data → data.getLsbD 0 = false) → step s = .next t →
      t.inExec = some w ∧ t.cmdidx = s.cmdidx ∧ OnlyChanges [] s t

/-- R276 to R279, R282, R73: a write of 1 to CTRL.SRST and a hardware reset, at any time, also while accesses of other
masters wait, set every item of the reset table to its reset value; the SPM keeps its content, but for the range of a
store in execution, each byte of which is old or new (which of the two is free, entry 6). A power-on does the same and
makes every SPM byte a new free draw (entry 5). What waits, and the inputs after the reset, stay (for a power-on the
model's choice, entry 9), and after any reset the first waiting access is made: a CMD write is appended to the empty
queue, an aligned access to the SPM part reads or writes the kept SPM. The lists and the data 0 of an answer are the
model's choices (entries 2, 3, 17, 18). -/
def Obligations.SoftResetRestoresTheTable : Prop :=
  (∀ s rest, AllWait s →
    (∀ m w, (∀ held ∈ s.bus.stalled, held.master ≠ m) → w.getLsbD 0 = true →
      s.bus.inputs = .bus { master := m, access := .write 0x008 .word w } :: rest →
      ∃ t, step s = .next t ∧ ResetTable t ∧ SpmAfterReset s t ∧ t.bus.inputs = rest ∧
        t.bus.stalled = s.bus.stalled ∧
        t.bus.responses = s.bus.responses ++ [{ master := m, busError := false, data := 0 }]) ∧
    (s.bus.inputs = .hardwareReset :: rest →
      ∃ t, step s = .next t ∧ ResetTable t ∧ SpmAfterReset s t ∧ t.bus = { s.bus with inputs := rest }) ∧
    (s.bus.inputs = .powerOn :: rest →
      ∃ t, step s = .next t ∧ ResetTable t ∧
        (∀ a, readByte t a = Config.powerOnByte (s.free.powerOns + 1) a) ∧
        t.bus = { s.bus with inputs := rest })) ∧
  ∀ t m others, ResetTable t →
    (∀ w, t.bus.stalled = { master := m, access := .write 0x018 .word w } :: others →
      step t = .next { released t others { master := m, busError := false, data := 0 } with queue := [w] }) ∧
    ∀ (o : BitVec 13) (width : AccessWidth), 0x1000 ≤ o.toNat → o.toNat % width.size = 0 →
      SpmAccessMade t m o width others

end
end

