-- ==== Sys2Proof/Laws/Arith.lean ====
section
/-! SUPPORT. The arithmetic functions are the mathematical ones: differences, powers and inverses modulo m, and what
a square root answers. -/

namespace Sys2Proof.Machine

set_option Elab.async false

/-! ## Bit lengths -/

theorem lt_two_pow_bitlen (v : Nat) : v < 2 ^ bitlen v := by
  unfold bitlen
  split
  · simp_all
  · exact Nat.lt_log2_self

/-- A value below 2^k has at most k bits. -/
theorem bitlen_le {v k : Nat} (h : v < 2 ^ k) : bitlen v ≤ k := by
  unfold bitlen
  split
  · omega
  · rename_i hv
    exact (Nat.log2_lt hv).mpr h

/-! ## Differences -/

theorem subMod_cast (a b : Nat) {m : Nat} (hm : m ≠ 0) :
    ((subMod a b m : Nat) : Int) = ((a : Int) - (b : Int)) % (m : Int) := by
  unfold subMod
  exact Int.toNat_of_nonneg (Int.emod_nonneg _ (by exact_mod_cast hm))

theorem subMod_lt (a b : Nat) {m : Nat} (hm : m ≠ 0) : subMod a b m < m := by
  have h := subMod_cast a b hm
  have h2 := Int.emod_lt_of_pos ((a : Int) - (b : Int)) (show (0 : Int) < m by omega)
  omega

/-- `subMod a b m` is congruent to a − b modulo m. -/
theorem subMod_modEq (a b : Nat) {m : Nat} (hm : m ≠ 0) : (subMod a b m : Int) ≡ (a : Int) - b [ZMOD m] := by
  rw [subMod_cast a b hm]
  exact Int.mod_modEq _ _

/-- The residue of a negation: 0 for 0, else m less it. -/
theorem subMod_zero_left {y m : Nat} (hy : y < m) : subMod 0 y m = if y = 0 then 0 else m - y := by
  have hm : m ≠ 0 := by omega
  have h := subMod_modEq 0 y hm
  have hlt := subMod_lt 0 y hm
  split
  · rename_i h0; subst h0; simp [subMod]
  · have h2 : ((m - y : Nat) : Int) ≡ (0 : Nat) - (y : Int) [ZMOD m] := by
      rw [Nat.cast_sub hy.le]
      exact Int.modEq_iff_dvd.mpr ⟨-1, by push_cast; ring⟩
    have h3 : ((subMod 0 y m : Nat) : Int) ≡ ((m - y : Nat) : Int) [ZMOD m] := h.trans h2.symm
    exact Nat.ModEq.eq_of_lt_of_lt (Int.natCast_modEq_iff.mp h3) hlt (by omega)

/-- A residue is congruent to its value. -/
theorem natmod_modEq (v m : Nat) : ((v % m : Nat) : Int) ≡ v [ZMOD m] := by
  rw [Int.natCast_mod]; exact Int.mod_modEq _ _

/-! ## Powers -/

theorem powLoop_eq (m base e i : Nat) :
    powLoop m base e i (base ^ (e / 2 ^ i) % m) = base ^ e % m := by
  induction i with
  | zero => simp [powLoop]
  | succ i ih =>
    have hsplit : e / 2 ^ i = 2 * (e / 2 ^ (i + 1)) + (e / 2 ^ i) % 2 := by
      rw [Nat.pow_succ, ← Nat.div_div_eq_div_mul]; omega
    have hsq : base ^ (e / 2 ^ (i + 1)) % m * (base ^ (e / 2 ^ (i + 1)) % m) % m =
        base ^ (2 * (e / 2 ^ (i + 1))) % m := by
      rw [← Nat.mul_mod, ← pow_add, ← two_mul]
    have hbit : e.testBit i = decide ((e / 2 ^ i) % 2 = 1) := Nat.testBit_eq_decide_div_mod_eq
    rw [← ih, powLoop, hsq]
    by_cases h : (e / 2 ^ i) % 2 = 1
    · have hval : base ^ (2 * (e / 2 ^ (i + 1))) % m * base % m = base ^ (e / 2 ^ i) % m := by
        conv_rhs => rw [hsplit, h, pow_succ]
        rw [Nat.mod_mul_mod]
      rw [hbit, decide_eq_true h, if_pos rfl, hval]
    · have hval : base ^ (2 * (e / 2 ^ (i + 1))) % m = base ^ (e / 2 ^ i) % m := by
        conv_rhs => rw [hsplit, show e / 2 ^ i % 2 = 0 by omega, Nat.add_zero]
      rw [hbit, decide_eq_false h, if_neg (by simp), hval]

/-- `powMod` is the power reduced modulo m. -/
theorem powMod_eq (base e m : Nat) : powMod base e m = base ^ e % m := by
  have h := powLoop_eq m base e (bitlen e)
  rwa [Nat.div_eq_of_lt (lt_two_pow_bitlen e), pow_zero] at h

/-! ## Inverses -/

theorem invLoop_spec (m a : Nat) (hm : m ≠ 0) (fuel r0 r1 t0 t1 : Nat) (hfuel : r1 < fuel)
    (h0 : (t0 : Int) * a ≡ r0 [ZMOD m]) (h1 : (t1 : Int) * a ≡ r1 [ZMOD m]) (ht0 : t0 < m) (ht1 : t1 < m) :
    ((invLoop m fuel r0 r1 t0 t1 : Nat) : Int) * a ≡ (Nat.gcd r0 r1 : Nat) [ZMOD m] ∧
      invLoop m fuel r0 r1 t0 t1 < m := by
  induction fuel generalizing r0 r1 t0 t1 with
  | zero => omega
  | succ fuel ih =>
    unfold invLoop
    split
    · rename_i hr; subst hr; rw [Nat.gcd_zero_right]; exact ⟨h0, ht0⟩
    · rename_i hr
      have hlt : r0 % r1 < r1 := Nat.mod_lt _ (by omega)
      have hnew : ((subMod t0 (r0 / r1 * t1) m : Nat) : Int) * a ≡ (r0 % r1 : Nat) [ZMOD m] := by
        have hr0 : ((r0 % r1 : Nat) : Int) = r0 - (r0 / r1 : Nat) * r1 := by
          have h := congrArg (Nat.cast : Nat → Int) (Nat.div_add_mod r0 r1)
          rw [Nat.cast_add, Nat.cast_mul] at h
          linarith
        rw [hr0]
        calc ((subMod t0 (r0 / r1 * t1) m : Nat) : Int) * a
            ≡ ((t0 : Int) - ((r0 / r1 * t1 : Nat) : Int)) * a [ZMOD m] := (subMod_modEq _ _ hm).mul_right _
          _ = (t0 : Int) * a - (r0 / r1 : Nat) * ((t1 : Int) * a) := by push_cast; ring
          _ ≡ r0 - (r0 / r1 : Nat) * r1 [ZMOD m] := h0.sub (h1.mul_left _)
      have := ih r1 (r0 % r1) t1 _ (by omega) h1 hnew ht1 (subMod_lt _ _ hm)
      rw [show Nat.gcd r0 r1 = Nat.gcd r1 (r0 % r1) by rw [Nat.gcd_comm r0 r1, Nat.gcd_rec r1 r0, Nat.gcd_comm]]
      exact this

/-- The inverse is the inverse (R11): a·x mod m = 1 with x in [1, m − 1], for a modulus of at least 2. -/
theorem invMod_spec {a m : Nat} (hm : 2 ≤ m) (h : Nat.gcd a m = 1) :
    a * invMod a m % m = 1 ∧ 1 ≤ invMod a m ∧ invMod a m < m := by
  have hspec := invLoop_spec m a (by omega) (m + 1) m (a % m) 0 (1 % m)
    (lt_trans (Nat.mod_lt _ (by omega)) (Nat.lt_succ_self m))
    (by simpa using (Int.modEq_zero_iff_dvd.mpr (dvd_refl (m : Int))).symm)
    (by rw [Nat.mod_eq_of_lt (by omega : 1 < m)]; push_cast; rw [one_mul]; exact (Int.mod_modEq _ _).symm)
    (by omega) (Nat.mod_lt _ (by omega))
  have hg : Nat.gcd m (a % m) = 1 := by rw [← h, Nat.gcd_comm m, ← Nat.gcd_rec, Nat.gcd_comm]
  rw [hg] at hspec
  have hmul : a * invMod a m % m = 1 := by
    have h2 : ((a * invMod a m : Nat) : Int) ≡ ((1 : Nat) : Int) [ZMOD m] := by
      rw [Nat.cast_mul, mul_comm]; exact hspec.1
    have h3 : (a * invMod a m) % m = 1 % m := Int.natCast_modEq_iff.mp h2
    rwa [Nat.mod_eq_of_lt (by omega : 1 < m)] at h3
  refine ⟨hmul, ?_, hspec.2⟩
  rcases Nat.eq_zero_or_pos (invMod a m) with h0 | h0
  · rw [h0] at hmul; simp at hmul
  · exact h0

/-- Everything `inverse` can answer (R123, R155): the inverse of a value coprime to the modulus, else ENOINV. -/
theorem inverse_cases {v m : Nat} (hm : 2 ≤ m) :
    (Nat.gcd v m = 1 ∧ ∃ x, inverse v m = .ok x ∧ v * x % m = 1 ∧ 1 ≤ x ∧ x < m) ∨
      (Nat.gcd v m ≠ 1 ∧ inverse v m = .error .enoinv) := by
  have hg : Nat.gcd (v % m) m = Nat.gcd v m := by rw [← Nat.gcd_rec, Nat.gcd_comm]
  by_cases h : Nat.gcd v m = 1
  · left
    refine ⟨h, invMod (v % m) m, if_pos (hg.trans h), ?_⟩
    have := invMod_spec hm (a := v % m) (hg.trans h)
    rwa [Nat.mod_mul_mod] at this
  · exact .inr ⟨h, if_neg fun hc => h (hg.symm.trans hc)⟩

/-! ## Square roots -/

/-- What the search for a non-residue answers (R137): the least candidate that passes the test. -/
theorem findNonResidue_some {m fuel z0 z : Nat} (h : findNonResidue m fuel z0 = some z) :
    z0 ≤ z ∧ z < z0 + fuel ∧ z ^ ((m - 1) / 2) % m = m - 1 ∧
      ∀ y, z0 ≤ y → y < z → y ^ ((m - 1) / 2) % m ≠ m - 1 := by
  induction fuel generalizing z0 with
  | zero => simp [findNonResidue] at h
  | succ fuel ih =>
    unfold findNonResidue at h
    split at h
    · rename_i hz
      simp only [Option.some.injEq] at h; subst h
      rw [powMod_eq] at hz
      exact ⟨le_refl _, by omega, hz, fun y h1 h2 => by omega⟩
    · rename_i hz
      obtain ⟨h1, h2, h3, h4⟩ := ih h
      refine ⟨by omega, by omega, h3, fun y hy1 hy2 => ?_⟩
      rcases Nat.eq_or_lt_of_le hy1 with rfl | hlt
      · rwa [powMod_eq] at hz
      · exact h4 y hlt hy2

/-- When the search finds nothing, no candidate passes the test. -/
theorem findNonResidue_none {m fuel z0 : Nat} (h : findNonResidue m fuel z0 = none) :
    ∀ y, z0 ≤ y → y < z0 + fuel → y ^ ((m - 1) / 2) % m ≠ m - 1 := by
  induction fuel generalizing z0 with
  | zero => intro y h1 h2; omega
  | succ fuel ih =>
    unfold findNonResidue at h
    split at h
    · simp at h
    · rename_i hz
      intro y h1 h2
      rcases Nat.eq_or_lt_of_le h1 with rfl | hlt
      · rwa [powMod_eq] at hz
      · exact ih h y hlt (by omega)

/-- What the search for the order answers (R137): the least i with 1 ≤ i < mv and t^(2^i) mod m = 1. -/
theorem leastOrder_some {m t mv i : Nat} (h : leastOrder m t mv = some i) :
    1 ≤ i ∧ i < mv ∧ t ^ 2 ^ i % m = 1 ∧ ∀ j, 1 ≤ j → j < i → t ^ 2 ^ j % m ≠ 1 := by
  unfold leastOrder at h
  rw [List.find?_eq_some_iff_getElem] at h
  obtain ⟨h1, k, hk, h2, h3⟩ := h
  rw [List.getElem_range'] at h2
  rw [List.length_range'] at hk
  simp only [powMod_eq, beq_iff_eq] at h1
  refine ⟨by omega, by omega, h1, fun j hj1 hj2 => ?_⟩
  have := h3 (j - 1) (by omega)
  rw [List.getElem_range'] at this
  simpa [powMod_eq, show 1 + (j - 1) = j by omega] using this

/-- What Sqrt answers (R137): a root, 0 for 0, ENONRESIDUE exactly for a value that fails the Euler test, or ESQRT. -/
theorem sqrtMod_cases (v m : Nat) :
    (v % m = 0 ∧ sqrtMod v m = .ok 0) ∨
    (v % m ≠ 0 ∧ (v % m) ^ ((m - 1) / 2) % m ≠ 1 ∧ sqrtMod v m = .error .enonresidue) ∨
    (v % m ≠ 0 ∧ (v % m) ^ ((m - 1) / 2) % m = 1 ∧
      ((∃ r, sqrtMod v m = .ok r ∧ r * r % m = v % m) ∨ ∃ c, sqrtMod v m = .error c)) := by
  unfold sqrtMod
  simp only [powMod_eq, ne_eq, ite_not]
  by_cases h0 : v % m = 0
  · left; simp [h0]
  · by_cases h1 : (v % m) ^ ((m - 1) / 2) % m = 1
    · right; right
      refine ⟨h0, h1, ?_⟩
      simp only [h0, h1, if_false, if_true]
      split
      · exact .inr ⟨_, rfl⟩
      · split
        · exact .inr ⟨_, rfl⟩
        · split
          · rename_i hr; exact .inl ⟨_, rfl, hr⟩
          · exact .inr ⟨_, rfl⟩
    · right; left; simp [h0, h1]

end Sys2Proof.Machine
end

