-- ==== Sys2Proof/Laws/State.lean ====
section
/-! SUPPORT. What each field of the state is after each named update: one lemma per field per update, true by
definition, so that no later proof unfolds a record update. -/

namespace Sys2Proof.Machine

set_option Elab.async false

section
variable (s : State) (r : Reg) (v : PointReg)
@[simp] theorem writePT_x : (writePT s r v).x = s.x := rfl
@[simp] theorem writePT_pt : (writePT s r v).pt = s.pt.set r.val v := rfl
@[simp] theorem writePT_f : (writePT s r v).f = s.f := rfl
@[simp] theorem writePT_dom : (writePT s r v).dom = s.dom := rfl
@[simp] theorem writePT_gmod : (writePT s r v).gmod = s.gmod := rfl
@[simp] theorem writePT_hash : (writePT s r v).hash = s.hash := rfl
@[simp] theorem writePT_digest : (writePT s r v).digest = s.digest := rfl
@[simp] theorem writePT_spm : (writePT s r v).spm = s.spm := rfl
@[simp] theorem writePT_queue : (writePT s r v).queue = s.queue := rfl
@[simp] theorem writePT_inExec : (writePT s r v).inExec = s.inExec := rfl
@[simp] theorem writePT_cmdidx : (writePT s r v).cmdidx = s.cmdidx := rfl
@[simp] theorem writePT_errs : (writePT s r v).errs = s.errs := rfl
@[simp] theorem writePT_irqEn : (writePT s r v).irqEn = s.irqEn := rfl
@[simp] theorem writePT_irqStatus : (writePT s r v).irqStatus = s.irqStatus := rfl
@[simp] theorem writePT_free : (writePT s r v).free = s.free := rfl
@[simp] theorem writePT_bus : (writePT s r v).bus = s.bus := rfl
end

section
variable (s : State) (b : Bool)
@[simp] theorem writeF_x : (writeF s b).x = s.x := rfl
@[simp] theorem writeF_pt : (writeF s b).pt = s.pt := rfl
@[simp] theorem writeF_f : (writeF s b).f = b := rfl
@[simp] theorem writeF_dom : (writeF s b).dom = s.dom := rfl
@[simp] theorem writeF_gmod : (writeF s b).gmod = s.gmod := rfl
@[simp] theorem writeF_hash : (writeF s b).hash = s.hash := rfl
@[simp] theorem writeF_digest : (writeF s b).digest = s.digest := rfl
@[simp] theorem writeF_spm : (writeF s b).spm = s.spm := rfl
@[simp] theorem writeF_queue : (writeF s b).queue = s.queue := rfl
@[simp] theorem writeF_inExec : (writeF s b).inExec = s.inExec := rfl
@[simp] theorem writeF_cmdidx : (writeF s b).cmdidx = s.cmdidx := rfl
@[simp] theorem writeF_errs : (writeF s b).errs = s.errs := rfl
@[simp] theorem writeF_irqEn : (writeF s b).irqEn = s.irqEn := rfl
@[simp] theorem writeF_irqStatus : (writeF s b).irqStatus = s.irqStatus := rfl
@[simp] theorem writeF_free : (writeF s b).free = s.free := rfl
@[simp] theorem writeF_bus : (writeF s b).bus = s.bus := rfl
end

section
variable (s : State) (d : Domain)
@[simp] theorem writeDomain_x : (writeDomain s d).x = s.x := rfl
@[simp] theorem writeDomain_pt : (writeDomain s d).pt = s.pt := rfl
@[simp] theorem writeDomain_f : (writeDomain s d).f = s.f := rfl
@[simp] theorem writeDomain_dom : (writeDomain s d).dom = d := rfl
@[simp] theorem writeDomain_gmod : (writeDomain s d).gmod = s.gmod := rfl
@[simp] theorem writeDomain_hash : (writeDomain s d).hash = s.hash := rfl
@[simp] theorem writeDomain_digest : (writeDomain s d).digest = s.digest := rfl
@[simp] theorem writeDomain_spm : (writeDomain s d).spm = s.spm := rfl
@[simp] theorem writeDomain_queue : (writeDomain s d).queue = s.queue := rfl
@[simp] theorem writeDomain_inExec : (writeDomain s d).inExec = s.inExec := rfl
@[simp] theorem writeDomain_cmdidx : (writeDomain s d).cmdidx = s.cmdidx := rfl
@[simp] theorem writeDomain_errs : (writeDomain s d).errs = s.errs := rfl
@[simp] theorem writeDomain_irqEn : (writeDomain s d).irqEn = s.irqEn := rfl
@[simp] theorem writeDomain_irqStatus : (writeDomain s d).irqStatus = s.irqStatus := rfl
@[simp] theorem writeDomain_free : (writeDomain s d).free = s.free := rfl
@[simp] theorem writeDomain_bus : (writeDomain s d).bus = s.bus := rfl
end

section
variable (s : State)
@[simp] theorem emptyPoints_x : (emptyPoints s).x = s.x := rfl
@[simp] theorem emptyPoints_pt : (emptyPoints s).pt = Vector.replicate 16 .empty := rfl
@[simp] theorem emptyPoints_f : (emptyPoints s).f = s.f := rfl
@[simp] theorem emptyPoints_dom : (emptyPoints s).dom = s.dom := rfl
@[simp] theorem emptyPoints_gmod : (emptyPoints s).gmod = s.gmod := rfl
@[simp] theorem emptyPoints_hash : (emptyPoints s).hash = s.hash := rfl
@[simp] theorem emptyPoints_digest : (emptyPoints s).digest = s.digest := rfl
@[simp] theorem emptyPoints_spm : (emptyPoints s).spm = s.spm := rfl
@[simp] theorem emptyPoints_queue : (emptyPoints s).queue = s.queue := rfl
@[simp] theorem emptyPoints_inExec : (emptyPoints s).inExec = s.inExec := rfl
@[simp] theorem emptyPoints_cmdidx : (emptyPoints s).cmdidx = s.cmdidx := rfl
@[simp] theorem emptyPoints_errs : (emptyPoints s).errs = s.errs := rfl
@[simp] theorem emptyPoints_irqEn : (emptyPoints s).irqEn = s.irqEn := rfl
@[simp] theorem emptyPoints_irqStatus : (emptyPoints s).irqStatus = s.irqStatus := rfl
@[simp] theorem emptyPoints_free : (emptyPoints s).free = s.free := rfl
@[simp] theorem emptyPoints_bus : (emptyPoints s).bus = s.bus := rfl
end

section
variable (s : State) (v : Big)
@[simp] theorem writeModulus_x : (writeModulus s v).x = s.x := rfl
@[simp] theorem writeModulus_pt : (writeModulus s v).pt = s.pt := rfl
@[simp] theorem writeModulus_f : (writeModulus s v).f = s.f := rfl
@[simp] theorem writeModulus_dom : (writeModulus s v).dom = s.dom := rfl
@[simp] theorem writeModulus_gmod : (writeModulus s v).gmod = { m := v, mv := true } := rfl
@[simp] theorem writeModulus_hash : (writeModulus s v).hash = s.hash := rfl
@[simp] theorem writeModulus_digest : (writeModulus s v).digest = s.digest := rfl
@[simp] theorem writeModulus_spm : (writeModulus s v).spm = s.spm := rfl
@[simp] theorem writeModulus_queue : (writeModulus s v).queue = s.queue := rfl
@[simp] theorem writeModulus_inExec : (writeModulus s v).inExec = s.inExec := rfl
@[simp] theorem writeModulus_cmdidx : (writeModulus s v).cmdidx = s.cmdidx := rfl
@[simp] theorem writeModulus_errs : (writeModulus s v).errs = s.errs := rfl
@[simp] theorem writeModulus_irqEn : (writeModulus s v).irqEn = s.irqEn := rfl
@[simp] theorem writeModulus_irqStatus : (writeModulus s v).irqStatus = s.irqStatus := rfl
@[simp] theorem writeModulus_free : (writeModulus s v).free = s.free := rfl
@[simp] theorem writeModulus_bus : (writeModulus s v).bus = s.bus := rfl
end

section
variable (s : State) (h : HashState)
@[simp] theorem writeHash_x : (writeHash s h).x = s.x := rfl
@[simp] theorem writeHash_pt : (writeHash s h).pt = s.pt := rfl
@[simp] theorem writeHash_f : (writeHash s h).f = s.f := rfl
@[simp] theorem writeHash_dom : (writeHash s h).dom = s.dom := rfl
@[simp] theorem writeHash_gmod : (writeHash s h).gmod = s.gmod := rfl
@[simp] theorem writeHash_hash : (writeHash s h).hash = h := rfl
@[simp] theorem writeHash_digest : (writeHash s h).digest = s.digest := rfl
@[simp] theorem writeHash_spm : (writeHash s h).spm = s.spm := rfl
@[simp] theorem writeHash_queue : (writeHash s h).queue = s.queue := rfl
@[simp] theorem writeHash_inExec : (writeHash s h).inExec = s.inExec := rfl
@[simp] theorem writeHash_cmdidx : (writeHash s h).cmdidx = s.cmdidx := rfl
@[simp] theorem writeHash_errs : (writeHash s h).errs = s.errs := rfl
@[simp] theorem writeHash_irqEn : (writeHash s h).irqEn = s.irqEn := rfl
@[simp] theorem writeHash_irqStatus : (writeHash s h).irqStatus = s.irqStatus := rfl
@[simp] theorem writeHash_free : (writeHash s h).free = s.free := rfl
@[simp] theorem writeHash_bus : (writeHash s h).bus = s.bus := rfl
end

section
variable (s : State) (bytes : List Byte) (len : Fin 257)
@[simp] theorem writeDigest_x : (writeDigest s bytes len).x = s.x := rfl
@[simp] theorem writeDigest_pt : (writeDigest s bytes len).pt = s.pt := rfl
@[simp] theorem writeDigest_f : (writeDigest s bytes len).f = s.f := rfl
@[simp] theorem writeDigest_dom : (writeDigest s bytes len).dom = s.dom := rfl
@[simp] theorem writeDigest_gmod : (writeDigest s bytes len).gmod = s.gmod := rfl
@[simp] theorem writeDigest_hash : (writeDigest s bytes len).hash = s.hash := rfl
@[simp] theorem writeDigest_digest : (writeDigest s bytes len).digest = { hd := hdOf bytes, hdlen := len, hdv := true } := rfl
@[simp] theorem writeDigest_spm : (writeDigest s bytes len).spm = s.spm := rfl
@[simp] theorem writeDigest_queue : (writeDigest s bytes len).queue = s.queue := rfl
@[simp] theorem writeDigest_inExec : (writeDigest s bytes len).inExec = s.inExec := rfl
@[simp] theorem writeDigest_cmdidx : (writeDigest s bytes len).cmdidx = s.cmdidx := rfl
@[simp] theorem writeDigest_errs : (writeDigest s bytes len).errs = s.errs := rfl
@[simp] theorem writeDigest_irqEn : (writeDigest s bytes len).irqEn = s.irqEn := rfl
@[simp] theorem writeDigest_irqStatus : (writeDigest s bytes len).irqStatus = s.irqStatus := rfl
@[simp] theorem writeDigest_free : (writeDigest s bytes len).free = s.free := rfl
@[simp] theorem writeDigest_bus : (writeDigest s bytes len).bus = s.bus := rfl
end

section
variable (s : State) (a : Nat) (bytes : List Byte)
@[simp] theorem memWrite_x : (memWrite s a bytes).x = s.x := rfl
@[simp] theorem memWrite_pt : (memWrite s a bytes).pt = s.pt := rfl
@[simp] theorem memWrite_f : (memWrite s a bytes).f = s.f := rfl
@[simp] theorem memWrite_dom : (memWrite s a bytes).dom = s.dom := rfl
@[simp] theorem memWrite_gmod : (memWrite s a bytes).gmod = s.gmod := rfl
@[simp] theorem memWrite_hash : (memWrite s a bytes).hash = s.hash := rfl
@[simp] theorem memWrite_digest : (memWrite s a bytes).digest = s.digest := rfl
@[simp] theorem memWrite_spm : (memWrite s a bytes).spm = memStoreAll s.spm a bytes := rfl
@[simp] theorem memWrite_queue : (memWrite s a bytes).queue = s.queue := rfl
@[simp] theorem memWrite_inExec : (memWrite s a bytes).inExec = s.inExec := rfl
@[simp] theorem memWrite_cmdidx : (memWrite s a bytes).cmdidx = s.cmdidx := rfl
@[simp] theorem memWrite_errs : (memWrite s a bytes).errs = s.errs := rfl
@[simp] theorem memWrite_irqEn : (memWrite s a bytes).irqEn = s.irqEn := rfl
@[simp] theorem memWrite_irqStatus : (memWrite s a bytes).irqStatus = s.irqStatus := rfl
@[simp] theorem memWrite_free : (memWrite s a bytes).free = s.free := rfl
@[simp] theorem memWrite_bus : (memWrite s a bytes).bus = s.bus := rfl
end

section
variable (s : State) (w : Word) (rest : List Word)
@[simp] theorem startCommand_x : (startCommand s w rest).x = s.x := rfl
@[simp] theorem startCommand_pt : (startCommand s w rest).pt = s.pt := rfl
@[simp] theorem startCommand_f : (startCommand s w rest).f = s.f := rfl
@[simp] theorem startCommand_dom : (startCommand s w rest).dom = s.dom := rfl
@[simp] theorem startCommand_gmod : (startCommand s w rest).gmod = s.gmod := rfl
@[simp] theorem startCommand_hash : (startCommand s w rest).hash = s.hash := rfl
@[simp] theorem startCommand_digest : (startCommand s w rest).digest = s.digest := rfl
@[simp] theorem startCommand_spm : (startCommand s w rest).spm = s.spm := rfl
@[simp] theorem startCommand_queue : (startCommand s w rest).queue = rest := rfl
@[simp] theorem startCommand_inExec : (startCommand s w rest).inExec = some w := rfl
@[simp] theorem startCommand_cmdidx : (startCommand s w rest).cmdidx = s.cmdidx := rfl
@[simp] theorem startCommand_errs : (startCommand s w rest).errs = s.errs := rfl
@[simp] theorem startCommand_irqEn : (startCommand s w rest).irqEn = s.irqEn := rfl
@[simp] theorem startCommand_irqStatus : (startCommand s w rest).irqStatus = s.irqStatus := rfl
@[simp] theorem startCommand_free : (startCommand s w rest).free = s.free := rfl
@[simp] theorem startCommand_bus : (startCommand s w rest).bus = s.bus := rfl
end

section
variable (s : State) (l : List Input)
@[simp] theorem setInputs_x : (setInputs s l).x = s.x := rfl
@[simp] theorem setInputs_pt : (setInputs s l).pt = s.pt := rfl
@[simp] theorem setInputs_f : (setInputs s l).f = s.f := rfl
@[simp] theorem setInputs_dom : (setInputs s l).dom = s.dom := rfl
@[simp] theorem setInputs_gmod : (setInputs s l).gmod = s.gmod := rfl
@[simp] theorem setInputs_hash : (setInputs s l).hash = s.hash := rfl
@[simp] theorem setInputs_digest : (setInputs s l).digest = s.digest := rfl
@[simp] theorem setInputs_spm : (setInputs s l).spm = s.spm := rfl
@[simp] theorem setInputs_queue : (setInputs s l).queue = s.queue := rfl
@[simp] theorem setInputs_inExec : (setInputs s l).inExec = s.inExec := rfl
@[simp] theorem setInputs_cmdidx : (setInputs s l).cmdidx = s.cmdidx := rfl
@[simp] theorem setInputs_errs : (setInputs s l).errs = s.errs := rfl
@[simp] theorem setInputs_irqEn : (setInputs s l).irqEn = s.irqEn := rfl
@[simp] theorem setInputs_irqStatus : (setInputs s l).irqStatus = s.irqStatus := rfl
@[simp] theorem setInputs_free : (setInputs s l).free = s.free := rfl
@[simp] theorem setInputs_bus : (setInputs s l).bus = { s.bus with inputs := l } := rfl
end

section
variable (s : State) (l : List BusRequest)
@[simp] theorem setStalled_x : (setStalled s l).x = s.x := rfl
@[simp] theorem setStalled_pt : (setStalled s l).pt = s.pt := rfl
@[simp] theorem setStalled_f : (setStalled s l).f = s.f := rfl
@[simp] theorem setStalled_dom : (setStalled s l).dom = s.dom := rfl
@[simp] theorem setStalled_gmod : (setStalled s l).gmod = s.gmod := rfl
@[simp] theorem setStalled_hash : (setStalled s l).hash = s.hash := rfl
@[simp] theorem setStalled_digest : (setStalled s l).digest = s.digest := rfl
@[simp] theorem setStalled_spm : (setStalled s l).spm = s.spm := rfl
@[simp] theorem setStalled_queue : (setStalled s l).queue = s.queue := rfl
@[simp] theorem setStalled_inExec : (setStalled s l).inExec = s.inExec := rfl
@[simp] theorem setStalled_cmdidx : (setStalled s l).cmdidx = s.cmdidx := rfl
@[simp] theorem setStalled_errs : (setStalled s l).errs = s.errs := rfl
@[simp] theorem setStalled_irqEn : (setStalled s l).irqEn = s.irqEn := rfl
@[simp] theorem setStalled_irqStatus : (setStalled s l).irqStatus = s.irqStatus := rfl
@[simp] theorem setStalled_free : (setStalled s l).free = s.free := rfl
@[simp] theorem setStalled_bus : (setStalled s l).bus = { s.bus with stalled := l } := rfl
end

section
variable (s : State) (r : Reg) (v : Big)
@[simp] theorem writeX_pt : (writeX s r v).pt = s.pt := by unfold writeX; split <;> rfl
@[simp] theorem writeX_f : (writeX s r v).f = s.f := by unfold writeX; split <;> rfl
@[simp] theorem writeX_dom : (writeX s r v).dom = s.dom := by unfold writeX; split <;> rfl
@[simp] theorem writeX_gmod : (writeX s r v).gmod = s.gmod := by unfold writeX; split <;> rfl
@[simp] theorem writeX_hash : (writeX s r v).hash = s.hash := by unfold writeX; split <;> rfl
@[simp] theorem writeX_digest : (writeX s r v).digest = s.digest := by unfold writeX; split <;> rfl
@[simp] theorem writeX_spm : (writeX s r v).spm = s.spm := by unfold writeX; split <;> rfl
@[simp] theorem writeX_queue : (writeX s r v).queue = s.queue := by unfold writeX; split <;> rfl
@[simp] theorem writeX_inExec : (writeX s r v).inExec = s.inExec := by unfold writeX; split <;> rfl
@[simp] theorem writeX_cmdidx : (writeX s r v).cmdidx = s.cmdidx := by unfold writeX; split <;> rfl
@[simp] theorem writeX_errs : (writeX s r v).errs = s.errs := by unfold writeX; split <;> rfl
@[simp] theorem writeX_irqEn : (writeX s r v).irqEn = s.irqEn := by unfold writeX; split <;> rfl
@[simp] theorem writeX_irqStatus : (writeX s r v).irqStatus = s.irqStatus := by unfold writeX; split <;> rfl
@[simp] theorem writeX_free : (writeX s r v).free = s.free := by unfold writeX; split <;> rfl
@[simp] theorem writeX_bus : (writeX s r v).bus = s.bus := by unfold writeX; split <;> rfl
end

section
variable (s : State)
@[simp] theorem retired_x : (retired s).x = s.x := rfl
@[simp] theorem retired_pt : (retired s).pt = s.pt := rfl
@[simp] theorem retired_f : (retired s).f = s.f := rfl
@[simp] theorem retired_dom : (retired s).dom = s.dom := rfl
@[simp] theorem retired_gmod : (retired s).gmod = s.gmod := rfl
@[simp] theorem retired_hash : (retired s).hash = s.hash := rfl
@[simp] theorem retired_digest : (retired s).digest = s.digest := rfl
@[simp] theorem retired_spm : (retired s).spm = s.spm := rfl
@[simp] theorem retired_queue : (retired s).queue = s.queue := rfl
@[simp] theorem retired_inExec : (retired s).inExec = none := rfl
@[simp] theorem retired_cmdidx : (retired s).cmdidx = s.cmdidx + 1 := rfl
@[simp] theorem retired_errs : (retired s).errs = s.errs := rfl
@[simp] theorem retired_irqEn : (retired s).irqEn = s.irqEn := rfl
@[simp] theorem retired_irqStatus : (retired s).irqStatus = irqNext s.irqStatus { done := s.queue.isEmpty, err := false } noIrq := rfl
@[simp] theorem retired_free : (retired s).free = s.free := rfl
@[simp] theorem retired_bus : (retired s).bus = s.bus := rfl
end

section
variable (c : Cause) (s : State)
@[simp] theorem takeFault_x : (takeFault c s).x = s.x := rfl
@[simp] theorem takeFault_pt : (takeFault c s).pt = s.pt := rfl
@[simp] theorem takeFault_f : (takeFault c s).f = s.f := rfl
@[simp] theorem takeFault_dom : (takeFault c s).dom = s.dom := rfl
@[simp] theorem takeFault_gmod : (takeFault c s).gmod = s.gmod := rfl
@[simp] theorem takeFault_hash : (takeFault c s).hash = s.hash := rfl
@[simp] theorem takeFault_digest : (takeFault c s).digest = s.digest := rfl
@[simp] theorem takeFault_spm : (takeFault c s).spm = s.spm := rfl
@[simp] theorem takeFault_queue : (takeFault c s).queue = [] := rfl
@[simp] theorem takeFault_inExec : (takeFault c s).inExec = none := rfl
@[simp] theorem takeFault_cmdidx : (takeFault c s).cmdidx = s.cmdidx := rfl
@[simp] theorem takeFault_errs : (takeFault c s).errs = { err := true, cause := causeCode c, cmd := currentWord s, idx := s.cmdidx } := rfl
@[simp] theorem takeFault_irqEn : (takeFault c s).irqEn = s.irqEn := rfl
@[simp] theorem takeFault_irqStatus : (takeFault c s).irqStatus = irqNext s.irqStatus { done := false, err := true } noIrq := rfl
@[simp] theorem takeFault_free : (takeFault c s).free = s.free := rfl
@[simp] theorem takeFault_bus : (takeFault c s).bus = s.bus := rfl
end

section
variable (s : State)
@[simp] theorem clearError_x : (clearError s).x = s.x := rfl
@[simp] theorem clearError_pt : (clearError s).pt = s.pt := rfl
@[simp] theorem clearError_f : (clearError s).f = s.f := rfl
@[simp] theorem clearError_dom : (clearError s).dom = s.dom := rfl
@[simp] theorem clearError_gmod : (clearError s).gmod = s.gmod := rfl
@[simp] theorem clearError_hash : (clearError s).hash = s.hash := rfl
@[simp] theorem clearError_digest : (clearError s).digest = s.digest := rfl
@[simp] theorem clearError_spm : (clearError s).spm = s.spm := rfl
@[simp] theorem clearError_queue : (clearError s).queue = s.queue := rfl
@[simp] theorem clearError_inExec : (clearError s).inExec = s.inExec := rfl
@[simp] theorem clearError_cmdidx : (clearError s).cmdidx = s.cmdidx := rfl
@[simp] theorem clearError_errs : (clearError s).errs = { s.errs with err := false } := rfl
@[simp] theorem clearError_irqEn : (clearError s).irqEn = s.irqEn := rfl
@[simp] theorem clearError_irqStatus : (clearError s).irqStatus = s.irqStatus := rfl
@[simp] theorem clearError_free : (clearError s).free = s.free := rfl
@[simp] theorem clearError_bus : (clearError s).bus = s.bus := rfl
end

section
variable (s : State)
@[simp] theorem softReset_x : (softReset s).x = State.reset.x := rfl
@[simp] theorem softReset_pt : (softReset s).pt = State.reset.pt := rfl
@[simp] theorem softReset_f : (softReset s).f = State.reset.f := rfl
@[simp] theorem softReset_dom : (softReset s).dom = State.reset.dom := rfl
@[simp] theorem softReset_gmod : (softReset s).gmod = State.reset.gmod := rfl
@[simp] theorem softReset_hash : (softReset s).hash = State.reset.hash := rfl
@[simp] theorem softReset_digest : (softReset s).digest = State.reset.digest := rfl
@[simp] theorem softReset_spm : (softReset s).spm = resetSpm s := rfl
@[simp] theorem softReset_queue : (softReset s).queue = State.reset.queue := rfl
@[simp] theorem softReset_inExec : (softReset s).inExec = State.reset.inExec := rfl
@[simp] theorem softReset_cmdidx : (softReset s).cmdidx = State.reset.cmdidx := rfl
@[simp] theorem softReset_errs : (softReset s).errs = State.reset.errs := rfl
@[simp] theorem softReset_irqEn : (softReset s).irqEn = State.reset.irqEn := rfl
@[simp] theorem softReset_irqStatus : (softReset s).irqStatus = State.reset.irqStatus := rfl
@[simp] theorem softReset_free : (softReset s).free = { s.free with abandons := nextAbandon s } := rfl
@[simp] theorem softReset_bus : (softReset s).bus = s.bus := rfl
end

/-! ## The interrupt bits -/

@[simp] theorem irqNext_done (old hwSet hostClear : IrqBits) :
    (irqNext old hwSet hostClear).done = ((old.done && !hostClear.done) || hwSet.done) := rfl

@[simp] theorem irqNext_err (old hwSet hostClear : IrqBits) :
    (irqNext old hwSet hostClear).err = ((old.err && !hostClear.err) || hwSet.err) := rfl

@[simp] theorem noIrq_done : noIrq.done = false := rfl

@[simp] theorem noIrq_err : noIrq.err = false := rfl

end Sys2Proof.Machine
end

