-- ==== Sys2Proof/Laws/Memory.lean ====
section
/-! SUPPORT. What a read gives after a write, and that every memory operation keeps the canonical form. -/

namespace Sys2Proof.Machine

set_option Elab.async false

theorem memLookup_memStore (mem : Memory) (a b : Nat) (v : Byte) :
    memLookup (memStore mem a v) b = if a = b then some v else memLookup mem b := by
  induction mem with
  | nil => simp [memStore, memLookup]
  | cons cell rest ih =>
    obtain ⟨k, u⟩ := cell
    simp only [memStore]
    split
    · simp only [memLookup]
    · split
      · rename_i h; subst h; simp only [memLookup]; split <;> simp_all
      · simp only [memLookup, ih]; split <;> split <;> simp_all

theorem memLookup_memStoreAll (mem : Memory) (a : Nat) (bytes : List Byte) (k : Nat) :
    memLookup (memStoreAll mem a bytes) k =
      if a ≤ k ∧ k < a + bytes.length then some (bytes.getD (k - a) 0) else memLookup mem k := by
  induction bytes generalizing mem a with
  | nil =>
    simp [memStoreAll]
  | cons b rest ih =>
    simp only [memStoreAll, ih, memLookup_memStore, List.length_cons]
    by_cases h : a = k
    · subst h; simp
    · by_cases h2 : a + 1 ≤ k ∧ k < a + 1 + rest.length
      · have h3 : a ≤ k ∧ k < a + (rest.length + 1) := by omega
        rw [if_pos h2, if_pos h3]
        obtain ⟨d, rfl⟩ : ∃ d, k = a + 1 + d := ⟨k - (a + 1), by omega⟩
        simp [show a + 1 + d - a = d + 1 by omega]
      · have h3 : ¬(a ≤ k ∧ k < a + (rest.length + 1)) := by omega
        rw [if_neg h2, if_neg h3, if_neg h]

theorem wfFrom_mono {low low' : Nat} (h : low' ≤ low) {mem : Memory} (hw : Memory.wfFrom low mem = true) :
    Memory.wfFrom low' mem = true := by
  cases mem with
  | nil => rfl
  | cons cell rest => simp_all [Memory.wfFrom]; omega

theorem wfFrom_memStore {low a : Nat} {v : Byte} {mem : Memory} (hl : low ≤ a) (ha : a < Config.spmSize)
    (hw : Memory.wfFrom low mem = true) : Memory.wfFrom low (memStore mem a v) = true := by
  induction mem generalizing low with
  | nil => simp [memStore, Memory.wfFrom, hl, ha]
  | cons cell rest ih =>
    obtain ⟨k, u⟩ := cell
    simp only [Memory.wfFrom, Bool.and_eq_true, decide_eq_true_eq] at hw
    simp only [memStore]
    split
    · simp_all [Memory.wfFrom]
    · split
      · simp_all [Memory.wfFrom]
      · simp only [Memory.wfFrom, Bool.and_eq_true, decide_eq_true_eq]
        exact ⟨hw.1, ih (by omega) hw.2⟩

/-- A write inside the scratchpad keeps the canonical form. -/
theorem wf_memStore {a : Nat} {v : Byte} {mem : Memory} (ha : a < Config.spmSize) (hw : mem.wf = true) :
    (memStore mem a v).wf = true :=
  wfFrom_memStore (Nat.zero_le a) ha hw

/-- A string of writes inside the scratchpad keeps the canonical form. -/
theorem wf_memStoreAll {a : Nat} {bytes : List Byte} {mem : Memory} (hb : a + bytes.length ≤ Config.spmSize)
    (hw : mem.wf = true) : (memStoreAll mem a bytes).wf = true := by
  induction bytes generalizing mem a with
  | nil => exact hw
  | cons b rest ih =>
    simp only [List.length_cons] at hb
    exact ih (by omega) (wf_memStore (by omega) hw)

/-- An abandoned store inside the scratchpad keeps the canonical form. -/
theorem wf_abandonedStore {draw a : Nat} {bytes : List Byte} {mem : Memory}
    (hb : a + bytes.length ≤ Config.spmSize) (hw : mem.wf = true) :
    (abandonedStore draw mem a bytes).wf = true := by
  induction bytes generalizing mem a with
  | nil => exact hw
  | cons b rest ih =>
    simp only [List.length_cons] at hb
    refine ih (by omega) ?_
    split
    · exact wf_memStore (by omega) hw
    · exact hw

theorem reset_memory_wf : State.reset.spm.wf = true := rfl

/-- What one byte reads as after `memWrite`. -/
theorem readByte_memWrite (s : State) (a : Nat) (bytes : List Byte) (k : Nat) :
    readByte (memWrite s a bytes) k =
      if a ≤ k ∧ k < a + bytes.length then bytes.getD (k - a) 0 else readByte s k := by
  simp only [readByte, memWrite_spm, memWrite_free, memLookup_memStoreAll]
  split <;> rfl

/-- The read of a byte depends on the SPM and on the power-on only. -/
theorem readByte_congr {s t : State} (hm : t.spm = s.spm) (hf : t.free = s.free) (a : Nat) :
    readByte t a = readByte s a := by
  simp only [readByte, hm, hf]

@[simp] theorem memRead_length (s : State) (a n : Nat) : (memRead s a n).length = n := by simp [memRead]

/-- The k-th byte of a read string. -/
theorem memRead_getElem (s : State) (a n k : Nat) (h : k < (memRead s a n).length) :
    (memRead s a n)[k] = readByte s (a + k) := by
  simp [memRead]

theorem memRead_add (s : State) (a n m : Nat) :
    memRead s a (n + m) = memRead s a n ++ memRead s (a + n) m := by
  simp only [memRead, List.range_add, List.map_append, List.map_map]
  congr 1
  apply List.map_congr_left
  intro k _
  simp [Nat.add_assoc]

end Sys2Proof.Machine
end

