-- ==== Sys2Proof/Laws/Bytes.lean ====
section
/-! SUPPORT. Big-endian octet strings: the machine's reader and writer are those of R12, and undo each other. -/

namespace Sys2Proof.Machine

set_option Elab.async false

theorem beNat_acc (bytes : List Byte) (acc : Nat) :
    bytes.foldl (fun acc b => acc * 256 + b.toNat) acc = acc * 256 ^ bytes.length + bigEndian bytes := by
  induction bytes generalizing acc with
  | nil => simp [bigEndian]
  | cons b rest ih => simp only [List.foldl_cons, ih, bigEndian, List.length_cons]; ring

/-- The machine reads big-endian strings (R12). -/
theorem beNat_eq (bytes : List Byte) : beNat bytes = bigEndian bytes := by
  simp [beNat, beNat_acc]

theorem bigEndian_lt (bytes : List Byte) : bigEndian bytes < 256 ^ bytes.length := by
  induction bytes with
  | nil => simp [bigEndian]
  | cons b rest ih =>
    simp only [bigEndian, List.length_cons, pow_succ]
    have := b.isLt
    nlinarith

theorem bigEndian_append (a b : List Byte) : bigEndian (a ++ b) = bigEndian a * 256 ^ b.length + bigEndian b := by
  induction a with
  | nil => simp [bigEndian]
  | cons x rest ih => simp only [List.cons_append, bigEndian, ih, List.length_append, pow_add]; ring

/-- The machine writes big-endian strings (R12). -/
theorem beBytes_eq (n v : Nat) : beBytes n v = bigEndianBytes n v := by
  induction n generalizing v with
  | zero => rfl
  | succ n ih =>
    rw [beBytes, ih, bigEndianBytes, bigEndianBytes, List.range_succ, List.map_append]
    congr 1
    · apply List.map_congr_left
      intro k hk
      rw [List.mem_range] at hk
      rw [Nat.div_div_eq_div_mul, ← pow_succ', show n - 1 - k + 1 = n + 1 - 1 - k by omega]
    · simp

@[simp] theorem beBytes_length (n v : Nat) : (beBytes n v).length = n := by simp [beBytes_eq, bigEndianBytes]

/-- What is written in n bytes is read back. -/
theorem bigEndian_beBytes (n v : Nat) (h : v < 256 ^ n) : bigEndian (beBytes n v) = v := by
  induction n generalizing v with
  | zero => simp [beBytes, bigEndian]; simp at h; omega
  | succ n ih =>
    rw [beBytes, bigEndian_append, ih _ (by rw [Nat.div_lt_iff_lt_mul (by omega), ← pow_succ]; exact h)]
    simp [bigEndian]; omega

/-- Bytes just written are read back. -/
theorem memRead_memWrite (s : State) (a : Nat) (bytes : List Byte) :
    memRead (memWrite s a bytes) a bytes.length = bytes := by
  apply List.ext_getElem (by simp)
  intro k h1 h2
  rw [memRead_getElem, readByte_memWrite, if_pos (by omega)]
  simp [h2]

end Sys2Proof.Machine
end

