-- ==== Sys2Proof/Laws/Registers.lean ====
section
/-! SUPPORT. Reads of the register files after a write, and what the two ends of a command (retiring, taking a fault)
do. -/

namespace Sys2Proof.Machine

set_option Elab.async false

/-- X0 reads 0 (R21). -/
@[simp] theorem readX_zero (s : State) : readX s 0 = 0 := by simp [readX]

/-- A write to X0 changes nothing (R21). -/
@[simp] theorem writeX_zero (s : State) (v : Big) : writeX s 0 v = s := by simp [writeX]

/-- What an X register reads as after a write. -/
theorem readX_writeX (s : State) (rd r : Reg) (v : Big) :
    readX (writeX s rd v) r = if r = rd ∧ r ≠ 0 then v else readX s r := by
  by_cases h : rd = 0
  · subst h; simp only [writeX_zero]; split
    · simp_all
    · rfl
  · by_cases hr : r = 0
    · subst hr; simp
    · simp only [readX, writeX, h, hr, dite_false, ne_eq, not_false_eq_true, and_true]
      rw [Vector.getElem_set]
      have hv : (rd.val - 1 = r.val - 1) ↔ r = rd := by
        rw [Fin.ext_iff]
        have h1 : rd.val ≠ 0 := fun hh => h (Fin.ext hh)
        have h2 : r.val ≠ 0 := fun hh => hr (Fin.ext hh)
        omega
      simp only [hv]

/-- What a point register reads as after a write. -/
theorem readPT_writePT (s : State) (rd r : Reg) (v : PointReg) :
    readPT (writePT s rd v) r = if r = rd then v else readPT s r := by
  simp only [readPT, writePT_pt, Fin.getElem_fin, Vector.getElem_set]
  have : (rd.val = r.val) ↔ r = rd := by rw [Fin.ext_iff]; omega
  simp only [this]

/-- The read of an X register depends on the X file only. -/
theorem readX_congr {s t : State} (h : t.x = s.x) (r : Reg) : readX t r = readX s r := by simp only [readX, h]

/-- The read of a point register depends on the point file only. -/
theorem readPT_congr {s t : State} (h : t.pt = s.pt) (r : Reg) : readPT t r = readPT s r := by
  simp only [readPT, h]

/-- Every point register is EMPTY after `emptyPoints` (R146). -/
theorem readPT_emptyPoints (s : State) (r : Reg) : readPT (emptyPoints s) r = .empty := by
  simp [readPT]

/-- An integer below 2^256 is written to X[rd] as it is (R11). -/
theorem xWritten_writeXNat (s : State) (rd : Reg) {v : Nat} (hv : v < 2 ^ 256) :
    XWritten s rd v (writeXNat s rd v) := by
  intro r
  rw [writeXNat, readX_writeX]
  split
  · rw [BitVec.toNat_ofNat, Nat.mod_eq_of_lt hv]
  · rfl

/-- A register value that stands for a point becomes that value again. -/
theorem toReg_of_toPoint {v : PointReg} {q : Point} (h : v.toPoint = some q) : q.toReg = v := by
  cases v with
  | empty => simp [PointReg.toPoint] at h
  | inf => simp only [PointReg.toPoint, Option.some.injEq] at h; subst h; rfl
  | aff x y => simp only [PointReg.toPoint, Option.some.injEq] at h; subst h; simp [Point.toReg]

/-! ## The two ends of a command -/

/-- A command that retires with effects `u` on `s` that touch none of the sequencing state. -/
theorem retires_retired {s u : State} (hc : u.cmdidx = s.cmdidx) (hq : u.queue = s.queue) (he : u.errs = s.errs)
    (hi : u.irqEn = s.irqEn) (hs : u.irqStatus = s.irqStatus) (hf : u.free = s.free) (hb : u.bus = s.bus) :
    Retires s (retired u) where
  cmdidx := by simp [hc]
  inExec := rfl
  queue := by simp [hq]
  errs := by simp [he]
  irqEn := by simp [hi]
  done := by simp [hs, hq]
  errp := by simp [hs]
  free := by simp [hf]
  bus := by simp [hb]

/-- What taking a fault does, once for every command (R244, R245). -/
theorem faultEntry_takeFault (c : Cause) (s : State) : FaultEntry c s (takeFault c s) where
  err := rfl
  cause := rfl
  cmd w h := by simp [currentWord, h]
  idx := rfl
  cmdidx := rfl
  errp := by simp
  done := by simp
  irqEn := rfl
  queue := rfl
  inExec := rfl
  parts part _ := by
    cases part
    case x => exact fun _ => rfl
    case points => exact fun _ => rfl
    case memory => exact fun _ => rfl
    all_goals simp [Part.unchanged]
  free := rfl
  bus := rfl

/-- Everything `finishWith` can answer: the command retires with the value's effects, or takes the fault raised in the
state before it. -/
theorem finishWith_eq {α : Type} (r : Except Cause α) (s t : State) (k : α → State) :
    finishWith r s k = .next t ↔ (∃ v, r = .ok v ∧ t = retired (k v)) ∨ (∃ c, r = .error c ∧ t = takeFault c s) := by
  cases r with
  | ok v =>
    simp only [finishWith, retire, Host.Outcome.next.injEq, Except.ok.injEq, reduceCtorEq, false_and, exists_false, or_false]
    exact ⟨fun h => ⟨v, rfl, h.symm⟩, by rintro ⟨w, rfl, h⟩; exact h.symm⟩
  | error c =>
    simp only [finishWith, raise, Host.Outcome.next.injEq, Except.error.injEq, reduceCtorEq, false_and, exists_false, false_or]
    exact ⟨fun h => ⟨c, rfl, h.symm⟩, by rintro ⟨w, rfl, h⟩; exact h.symm⟩

end Sys2Proof.Machine
end

