-- ==== Sys2Proof/Laws/Commands.lean ====
section
/-! SUPPORT. From what `exec` answers to the terms of the claims, once per kind of write: a command that retires with a
write completes as `CompletesX`, `CompletesPoint`, `CompletesFlag` or `CompletesStore` say; one that raises faults. -/

namespace Sys2Proof.Machine

set_option Elab.async false

variable {i : Instr} {s : State}

@[simp] theorem finishWith_ok {α : Type} (v : α) (s : State) (k : α → State) :
    finishWith (.ok v) s k = retire (k v) := rfl

@[simp] theorem finishWith_error {α : Type} (c : Cause) (s : State) (k : α → State) :
    finishWith (.error c) s k = raise c s := rfl

/-- A command that raises takes the fault. -/
theorem faults_of_raise {c : Cause} (h : exec i s = raise c s) : Faults i s c :=
  ⟨takeFault c s, h, faultEntry_takeFault c s⟩

/-- The state differs only in what a command may write: its sequencing state is untouched. -/
structure SameSequencing (s u : State) : Prop where
  cmdidx : u.cmdidx = s.cmdidx
  queue : u.queue = s.queue
  errs : u.errs = s.errs
  irqEn : u.irqEn = s.irqEn
  irqStatus : u.irqStatus = s.irqStatus
  free : u.free = s.free
  bus : u.bus = s.bus

/-- Retiring on top of effects that touch no sequencing state. -/
theorem SameSequencing.retires {u : State} (h : SameSequencing s u) : Retires s (retired u) :=
  retires_retired h.cmdidx h.queue h.errs h.irqEn h.irqStatus h.free h.bus

/-- Retiring changes no part by itself. -/
theorem unchanged_retired {u : State} {part : Part} (h : part.unchanged s u) : part.unchanged s (retired u) := by
  cases part
  case x => exact fun r => (readX_congr rfl r).trans (h r)
  case points => exact fun r => (readPT_congr rfl r).trans (h r)
  case memory => exact fun a => (readByte_congr rfl rfl a).trans (h a)
  all_goals exact h

/-- A command that retires on the effects `u` completes, once its frame and its result are shown on `u`. -/
theorem completes_of_retire {u : State} {parts : List Part} {post : State → Prop} (h : exec i s = retire u)
    (hseq : SameSequencing s u) (hframe : OnlyChanges parts s u) (hpost : post (retired u)) :
    Completes i s parts post :=
  ⟨retired u, h, hseq.retires, fun part hp => unchanged_retired (hframe part hp), hpost⟩

/-! ## The writes -/

theorem sameSequencing_refl (s : State) : SameSequencing s s := ⟨rfl, rfl, rfl, rfl, rfl, rfl, rfl⟩

theorem sameSequencing_writeX (s : State) (r : Reg) (v : Big) : SameSequencing s (writeX s r v) := by
  constructor <;> simp

theorem sameSequencing_writePT (s : State) (r : Reg) (v : PointReg) : SameSequencing s (writePT s r v) := by
  constructor <;> simp

theorem sameSequencing_writeF (s : State) (b : Bool) : SameSequencing s (writeF s b) := by
  constructor <;> simp

theorem sameSequencing_memWrite (s : State) (a : Nat) (bytes : List Byte) :
    SameSequencing s (memWrite s a bytes) := by
  constructor <;> simp

theorem sameSequencing_writeHash (s : State) (h : HashState) : SameSequencing s (writeHash s h) := by
  constructor <;> simp

theorem unchanged_refl (s : State) (part : Part) : part.unchanged s s := by
  cases part <;> simp [Part.unchanged]

theorem onlyChanges_refl (parts : List Part) (s : State) : OnlyChanges parts s s :=
  fun part _ => unchanged_refl s part

theorem onlyChanges_writeX (s : State) (r : Reg) (v : Big) : OnlyChanges [.x] s (writeX s r v) := by
  intro part hp
  cases part
  case x => simp at hp
  case points => exact fun r => readPT_congr (writeX_pt ..) r
  case memory => exact fun a => readByte_congr (writeX_spm ..) (writeX_free ..) a
  all_goals simp [Part.unchanged]

theorem onlyChanges_writePT (s : State) (r : Reg) (v : PointReg) : OnlyChanges [.points] s (writePT s r v) := by
  intro part hp
  cases part
  case points => simp at hp
  case x => exact fun r => readX_congr rfl r
  case memory => exact fun a => readByte_congr rfl rfl a
  all_goals simp [Part.unchanged]

theorem onlyChanges_writeF (s : State) (b : Bool) : OnlyChanges [.flag] s (writeF s b) := by
  intro part hp
  cases part
  case flag => simp at hp
  case x => exact fun r => readX_congr rfl r
  case points => exact fun r => readPT_congr rfl r
  case memory => exact fun a => readByte_congr rfl rfl a
  all_goals simp [Part.unchanged]

theorem onlyChanges_memWrite (s : State) (a : Nat) (bytes : List Byte) :
    OnlyChanges [.memory] s (memWrite s a bytes) := by
  intro part hp
  cases part
  case memory => simp at hp
  case x => exact fun r => readX_congr rfl r
  case points => exact fun r => readPT_congr rfl r
  all_goals simp [Part.unchanged]

theorem onlyChanges_writeHash (s : State) (h : HashState) : OnlyChanges [.hash] s (writeHash s h) := by
  intro part hp
  cases part
  case hash => simp at hp
  case x => exact fun r => readX_congr rfl r
  case points => exact fun r => readPT_congr rfl r
  case memory => exact fun a => readByte_congr rfl rfl a
  all_goals simp [Part.unchanged]

theorem onlyChanges_writeModulus (s : State) (v : Big) : OnlyChanges [.modulus] s (writeModulus s v) := by
  intro part hp
  cases part
  case modulus => simp at hp
  case x => exact fun r => readX_congr rfl r
  case points => exact fun r => readPT_congr rfl r
  case memory => exact fun a => readByte_congr rfl rfl a
  all_goals simp [Part.unchanged]

/-- Two writes one after the other change the parts of both. -/
theorem OnlyChanges.trans {s t u : State} {p q : List Part} (h : OnlyChanges p s t) (h' : OnlyChanges q t u) :
    OnlyChanges (p ++ q) s u := by
  intro part hp
  simp only [List.mem_append, not_or] at hp
  have h1 := h part hp.1
  have h2 := h' part hp.2
  cases part
  case x => exact fun r => (h2 r).trans (h1 r)
  case points => exact fun r => (h2 r).trans (h1 r)
  case memory => exact fun a => (h2 a).trans (h1 a)
  case flag => exact Eq.trans h2 h1
  case modulus => exact Eq.trans h2 h1
  case hash => exact Eq.trans h2 h1
  case digest => exact Eq.trans h2 h1
  case curve => exact ⟨h2.1.trans h1.1, h2.2.1.trans h1.2.1, h2.2.2.1.trans h1.2.2.1, h2.2.2.2.trans h1.2.2.2⟩
  case order => exact ⟨h2.1.trans h1.1, h2.2.1.trans h1.2.1, h2.2.2.trans h1.2.2⟩
  case base => exact ⟨h2.1.trans h1.1, h2.2.trans h1.2⟩

/-- A smaller list of parts is a stronger frame. -/
theorem OnlyChanges.mono {s t : State} {p q : List Part} (h : OnlyChanges p s t) (hpq : p ⊆ q) :
    OnlyChanges q s t :=
  fun part hp => h part fun hm => hp (hpq hm)

/-! ## The kinds of commands -/

theorem completesX_of_writeX {rd : Reg} {v : Big} (h : exec i s = retire (writeX s rd v)) :
    CompletesX i s rd v.toNat := by
  refine completes_of_retire h (sameSequencing_writeX ..) (onlyChanges_writeX _ _ _) fun r => ?_
  rw [readX_congr (retired_x _), readX_writeX]
  split <;> rfl

theorem completesX_of_writeXNat {rd : Reg} {v : Nat} (hv : v < 2 ^ 256) (h : exec i s = retire (writeXNat s rd v)) :
    CompletesX i s rd v := by
  have := completesX_of_writeX (v := BitVec.ofNat 256 v) h
  rwa [BitVec.toNat_ofNat, Nat.mod_eq_of_lt hv] at this

theorem completesPoint_of_writePT {rd : Reg} {v : PointReg} (h : exec i s = retire (writePT s rd v)) :
    CompletesPoint i s rd v := by
  refine completes_of_retire h (sameSequencing_writePT ..) (onlyChanges_writePT _ _ _) fun r => ?_
  rw [readPT_congr (retired_pt _), readPT_writePT]

theorem completesFlag_of_writeF {b : Bool} (h : exec i s = retire (writeF s b)) : CompletesFlag i s b :=
  completes_of_retire h (sameSequencing_writeF ..) (onlyChanges_writeF _ _) rfl

theorem completesStore_of_memWrite {a : Nat} {bytes : List Byte} (h : exec i s = retire (memWrite s a bytes)) :
    CompletesStore i s a bytes := by
  refine completes_of_retire h (sameSequencing_memWrite ..) (onlyChanges_memWrite _ _ _) fun k => ?_
  rw [readByte_congr (retired_spm _) (retired_free _), readByte_memWrite]

theorem completes_of_writeHash {h' : HashState} {post : State → Prop} (h : exec i s = retire (writeHash s h'))
    (hpost : post (retired (writeHash s h'))) : Completes i s [.hash] post :=
  completes_of_retire h (sameSequencing_writeHash ..) (onlyChanges_writeHash _ _) hpost

/-! ## The operand checks -/

/-- The selected modulus is what `modulus` answers (R112). -/
theorem modulus_eq_ok {sel : ModSel} {m : Nat} : modulus s sel = .ok m ↔ SelectedModulus s sel m := by
  cases sel <;> simp only [modulus, configured, SelectedModulus] <;> split <;> simp_all

/-- Without the selected modulus `modulus` answers EDOMUNSET (R112). -/
theorem modulus_eq_error {sel : ModSel} (h : NoModulus s sel) : modulus s sel = .error .edomunset := by
  cases sel <;> simp_all [modulus, configured, NoModulus]

/-- A selected modulus is odd and at least 3 in a state with the invariant (R112). -/
theorem selectedModulus_odd {sel : ModSel} {m : Nat} (hs : StateOk s) (h : SelectedModulus s sel m) :
    m % 2 = 1 ∧ 3 ≤ m ∧ m < 2 ^ 256 := by
  cases sel <;> obtain ⟨hv, rfl⟩ := h
  · exact ⟨(hs.domain.curve hv).1, (hs.domain.curve hv).2.1, BitVec.isLt _⟩
  · exact ⟨(hs.domain.order hv).2.1, (hs.domain.order hv).2.2, BitVec.isLt _⟩
  · exact ⟨(hs.gmod hv).1, (hs.gmod hv).2, BitVec.isLt _⟩

theorem curvePoint_unset (h : s.dom.crv = false) (r : Reg) : curvePoint s r = .error .edomunset := by
  simp [curvePoint, h]

theorem curvePoint_empty (h : s.dom.crv = true) {r : Reg} (hr : readPT s r = .empty) :
    curvePoint s r = .error .epoint := by
  simp [curvePoint, h, ptPoint, hr, PointReg.toPoint]

theorem curvePoint_ok (h : s.dom.crv = true) {r : Reg} {q : Point} (hr : ptPoint s r = some q) :
    curvePoint s r = .ok q := by
  simp [curvePoint, h, hr]

/-- A point register that is not EMPTY holds a point. -/
theorem ptPoint_of_ne_empty {r : Reg} (h : readPT s r ≠ .empty) : ∃ q, ptPoint s r = some q ∧ q.toReg = readPT s r := by
  unfold ptPoint
  cases hr : readPT s r with
  | empty => exact absurd hr h
  | inf => exact ⟨.inf, rfl, rfl⟩
  | aff x y => exact ⟨_, rfl, toReg_of_toPoint rfl⟩

/-! ## What the checks raise -/

/-- The bounds check of R55. -/
theorem inBounds_iff {a n : Nat} : inBounds a n = true ↔ a + n ≤ 4096 := decide_eq_true_iff

/-- The modulus check of R113, R145 and R148. -/
theorem modulusOk_iff {v : Nat} : modulusOk v = true ↔ v % 2 = 1 ∧ 3 ≤ v := by
  simp only [modulusOk, Bool.and_eq_true, beq_iff_eq, decide_eq_true_eq]

theorem modulus_error {s : State} {sel : ModSel} {c : Cause} (h : modulus s sel = .error c) : c = .edomunset := by
  cases sel <;> simp only [modulus, configured] at h <;> split at h <;> simp_all

theorem curvePoint_error {s : State} {r : Reg} {c : Cause} (h : curvePoint s r = .error c) : c = .edomunset ∨ c =
    .epoint := by
  unfold curvePoint at h; split at h
  · split at h <;> simp_all
  · simp_all

theorem curvePoint_eq_ok {s : State} {r : Reg} {q : Point} (h : curvePoint s r = .ok q) : s.dom.crv = true ∧
    ptPoint s r = some q := by
  unfold curvePoint at h; split at h
  · split at h <;> simp_all
  · simp_all

theorem curvePoints_unset {s : State} (h : s.dom.crv = false) (r q : Reg) : curvePoints s r q = .error .edomunset := by
  simp [curvePoints, curvePoint_unset h]

theorem curvePoints_empty {s : State} (h : s.dom.crv = true) {r q : Reg} (hr : readPT s r = .empty ∨ readPT s q =
    .empty) : curvePoints s r q = .error .epoint := by
  rcases hr with hr | hr
  · simp [curvePoints, curvePoint_empty h hr]
  · unfold curvePoints
    by_cases h0 : readPT s r = .empty
    · simp [curvePoint_empty h h0]
    · obtain ⟨q', hq, _⟩ := ptPoint_of_ne_empty h0
      simp [curvePoint_ok h hq, curvePoint_empty h hr]

theorem curvePoints_ok {s : State} (h : s.dom.crv = true) {r q : Reg} {a b : Point} (h1 : ptPoint s r = some a) (h2 :
    ptPoint s q = some b) :
   curvePoints s r q = .ok (a, b) := by
  simp [curvePoints, curvePoint_ok h h1, curvePoint_ok h h2]

theorem curvePoints_error {s : State} {r r' : Reg} {c : Cause} (h : curvePoints s r r' = .error c) : c =
    .edomunset ∨ c = .epoint := by
  unfold curvePoints at h; split at h
  · rename_i hh; simp only [Except.error.injEq] at h; subst h; exact curvePoint_error hh
  · split at h
    · rename_i hh; simp only [Except.error.injEq] at h; subst h; exact curvePoint_error hh
    · simp_all

theorem curvePoints_eq_ok {s : State} {r r' : Reg} {q : Point × Point} (h : curvePoints s r r' = .ok q) : s.dom.crv =
    true ∧ ptPoint s r = some q.1 ∧ ptPoint s r' = some q.2 := by
  unfold curvePoints at h; split at h
  · simp at h
  · rename_i h1; split at h
    · simp at h
    · rename_i h2
      simp only [Except.ok.injEq] at h; subst h
      exact ⟨(curvePoint_eq_ok h1).1, (curvePoint_eq_ok h1).2, (curvePoint_eq_ok h2).2⟩

end Sys2Proof.Machine
end

