-- ==== Sys2Proof/Laws/CurveGroup.lean ====
section
/-! SUPPORT. Over a prime field the point functions of R155 and R158 are the group of the elliptic curve: Mathlib's
`WeierstrassCurve.Affine.Point`. -/

namespace Sys2Proof.Machine

set_option Elab.async false

/-- The curve y² = x³ + ax + b over the field of p elements. -/
def weierstrass (p a b : Nat) : WeierstrassCurve.Affine (ZMod p) := ⟨0, 0, 0, a, b⟩

/-- A point value stands for a point of the curve. -/
inductive Represents (p a b : Nat) : Point → (weierstrass p a b).Point → Prop where
  | inf : Represents p a b .inf .zero
  | aff (x y : Nat) (h : (weierstrass p a b).Nonsingular x y) : x < p → y < p →
      Represents p a b (.aff x y) (.some (x : ZMod p) (y : ZMod p) h)

theorem cast_subMod {p : Nat} (hp : p ≠ 0) (x y : Nat) : ((subMod x y p : Nat) : ZMod p) = x - y := by
  have h := (ZMod.intCast_eq_intCast_iff _ _ p).mpr (subMod_modEq x y hp)
  push_cast at h
  exact h

theorem cast_eq_iff {p x y : Nat} (hx : x < p) (hy : y < p) : (x : ZMod p) = y ↔ x = y := by
  rw [ZMod.natCast_eq_natCast_iff]
  exact ⟨fun h => Nat.ModEq.eq_of_lt_of_lt h hx hy, fun h => by rw [h]⟩

/-- Over a prime field a nonzero value has its inverse. -/
theorem inverse_prime {p v : Nat} [Fact p.Prime] (hv : (v : ZMod p) ≠ 0) :
    ∃ d, inverse v p = .ok d ∧ (d : ZMod p) = (v : ZMod p)⁻¹ := by
  have hp : p.Prime := Fact.out
  have hc : Nat.gcd v p = 1 := by
    rw [Nat.gcd_comm]
    exact (Nat.Prime.coprime_iff_not_dvd hp).mpr fun h => hv ((ZMod.natCast_eq_zero_iff v p).mpr h)
  rcases inverse_cases (v := v) hp.two_le with ⟨_, d, h1, h2, _⟩ | ⟨h, _⟩
  · refine ⟨d, h1, ?_⟩
    have : ((v * d % p : Nat) : ZMod p) = ((1 : Nat) : ZMod p) := by rw [h2]
    rw [ZMod.natCast_mod] at this
    push_cast at this
    exact eq_inv_of_mul_eq_one_right this
  · exact absurd hc h

section
variable {p a b : Nat} [Fact p.Prime]

theorem two_cast_ne_zero (h3 : 3 ≤ p) : (2 : ZMod p) ≠ 0 := by
  have : ((2 : Nat) : ZMod p) ≠ ((0 : Nat) : ZMod p) := by
    rw [Ne, cast_eq_iff (by omega) (by omega)]; omega
  exact_mod_cast this

/-- The discriminant of a curve that DOMCRV accepts is not 0. -/
theorem discriminant_ne_zero (hc : PrimeCurve p a b) : (weierstrass p a b).Δ ≠ 0 := by
  have h : ((4 * a ^ 3 + 27 * b ^ 2 : Nat) : ZMod p) ≠ 0 := fun h =>
    hc.nonsingular (Nat.mod_eq_zero_of_dvd ((ZMod.natCast_eq_zero_iff _ p).mp h))
  have e : (weierstrass p a b).Δ = -(2 ^ 4) * ((4 * a ^ 3 + 27 * b ^ 2 : Nat) : ZMod p) := by
    simp only [weierstrass, WeierstrassCurve.Δ, WeierstrassCurve.b₂, WeierstrassCurve.b₄, WeierstrassCurve.b₆,
      WeierstrassCurve.b₈]
    push_cast; ring
  rw [e]
  exact mul_ne_zero (neg_ne_zero.mpr (pow_ne_zero _ (two_cast_ne_zero hc.odd))) h

theorem nonsingular_iff_onCurve (hc : PrimeCurve p a b) {x y : Nat} (hx : x < p) (hy : y < p) :
    (weierstrass p a b).Nonsingular x y ↔ OnCurve p a b (.aff x y) := by
  rw [← WeierstrassCurve.Affine.equation_iff_nonsingular_of_Δ_ne_zero (discriminant_ne_zero hc),
    WeierstrassCurve.Affine.equation_iff]
  have : (y ^ 2 % p = (x ^ 3 + a * x + b) % p) ↔ ((y ^ 2 : Nat) : ZMod p) = ((x ^ 3 + a * x + b : Nat) : ZMod p) :=
    (ZMod.natCast_eq_natCast_iff' _ _ p).symm
  simp only [OnCurve, hx, hy, true_and, this, weierstrass]
  push_cast
  simp

/-- Every point of the curve is represented. -/
theorem exists_represents (hc : PrimeCurve p a b) {q : Point} (h : OnCurve p a b q) : ∃ P, Represents p a b q P := by
  cases q with
  | inf => exact ⟨_, .inf⟩
  | aff x y => exact ⟨_, .aff x y ((nonsingular_iff_onCurve hc h.1 h.2.1).mpr h) h.1 h.2.1⟩

theorem Represents.onCurve (hc : PrimeCurve p a b) {q : Point} {P} (h : Represents p a b q P) : OnCurve p a b q := by
  cases h with
  | inf => trivial
  | aff x y h hx hy => exact (nonsingular_iff_onCurve hc hx hy).mp h

theorem Represents.unique {q r : Point} {P} (h : Represents p a b q P) (h' : Represents p a b r P) : q = r := by
  cases h with
  | inf => cases h'; rfl
  | aff x y h hx hy =>
    generalize hP : WeierstrassCurve.Affine.Point.some (x : ZMod p) (y : ZMod p) h = P at h'
    cases h' with
    | inf => cases hP
    | aff x' y' h2 hx' hy' =>
      simp only [WeierstrassCurve.Affine.Point.some.injEq] at hP
      rw [(cast_eq_iff hx hx').mp hP.1, (cast_eq_iff hy hy').mp hP.2]

theorem represents_some {x y : Nat} {X Y : ZMod p} (h : (weierstrass p a b).Nonsingular X Y) (hx : x < p) (hy : y < p)
    (hX : (x : ZMod p) = X) (hY : (y : ZMod p) = Y) : Represents p a b (.aff x y) (.some X Y h) := by
  subst hX hY
  exact .aff x y h hx hy

theorem negY_eq (X Y : ZMod p) : (weierstrass p a b).negY X Y = -Y := by
  simp [WeierstrassCurve.Affine.negY, weierstrass]

/-- PointNeg is the negative (R158). -/
theorem Represents.neg {q : Point} {P} (h : Represents p a b q P) : Represents p a b (pointNeg p q) (-P) := by
  have hp : p ≠ 0 := (Fact.out : p.Prime).ne_zero
  cases h with
  | inf => exact .inf
  | aff x y h hx hy =>
    rw [WeierstrassCurve.Affine.Point.neg_some]
    exact represents_some _ hx (subMod_lt _ _ hp) rfl (by rw [cast_subMod hp, negY_eq]; simp)

theorem chord_represents {l x1 y1 x2 : Nat} {L : ZMod p} (hl : (l : ZMod p) = L) {X Y : ZMod p}
    (h : (weierstrass p a b).Nonsingular X Y)
    (hX : X = L ^ 2 - x1 - x2) (hY : Y = L * (x1 - X) - y1) :
    Represents p a b (chordPoint p l x1 y1 x2) (.some X Y h) := by
  have hp : p ≠ 0 := (Fact.out : p.Prime).ne_zero
  subst hl
  have e : ((subMod (l * l) (x1 + x2) p : Nat) : ZMod p) = X := by
    rw [cast_subMod hp, hX]; push_cast; ring
  refine represents_some h (subMod_lt _ _ hp) (subMod_lt _ _ hp) e ?_
  rw [cast_subMod hp]; push_cast
  rw [cast_subMod hp, e, hY]

/-- PointAdd is the group's addition (R155), and over a prime field it never fails (R157). -/
theorem Represents.add (h3 : 3 ≤ p) {q r : Point} {P Q} (hq : Represents p a b q P) (hr : Represents p a b r Q) :
    ∃ v, pointAdd p a q r = .ok v ∧ Represents p a b v (P + Q) := by
  have hp : p ≠ 0 := (Fact.out : p.Prime).ne_zero
  cases hq with
  | inf => exact ⟨r, by simp [pointAdd], by rwa [← WeierstrassCurve.Affine.Point.zero_def, zero_add]⟩
  | aff x1 y1 h1 hx1 hy1 =>
    cases hr with
    | inf => exact ⟨_, rfl, by rw [← WeierstrassCurve.Affine.Point.zero_def, add_zero]; exact .aff x1 y1 h1 hx1 hy1⟩
    | aff x2 y2 h2 hx2 hy2 =>
      by_cases hx : x1 = x2
      · subst hx
        by_cases hy : y1 = y2
        · subst hy
          by_cases hy0 : y1 = 0
          · subst hy0
            refine ⟨.inf, by simp [pointAdd], ?_⟩
            rw [WeierstrassCurve.Affine.Point.add_of_Y_eq rfl (by rw [negY_eq]; simp)]
            exact .inf
          · have hy0' : (y1 : ZMod p) ≠ 0 := by
              have := (cast_eq_iff hy1 (by omega : 0 < p)).not.mpr hy0
              simpa using this
            have h2y : (2 * y1 : ZMod p) ≠ 0 := mul_ne_zero (two_cast_ne_zero h3) hy0'
            have hne : (y1 : ZMod p) ≠ (weierstrass p a b).negY x1 y1 := by
              rw [negY_eq]; intro h; apply h2y; linear_combination h
            obtain ⟨d, hd, hd'⟩ := inverse_prime (p := p) (v := 2 * y1) (by push_cast; exact h2y)
            refine ⟨chordPoint p ((3 * x1 * x1 + a) * d % p) x1 y1 x1, by simp [pointAdd, hy0, hd], ?_⟩
            rw [WeierstrassCurve.Affine.Point.add_self_of_Y_ne hne]
            refine chord_represents rfl _ ?_ ?_
            all_goals
              simp only [WeierstrassCurve.Affine.addX, WeierstrassCurve.Affine.addY, WeierstrassCurve.Affine.negAddY,
                WeierstrassCurve.Affine.slope_of_Y_ne rfl hne, negY_eq, ZMod.natCast_mod]
              simp only [weierstrass]
              push_cast
              rw [hd']
              push_cast
              rw [div_eq_mul_inv, sub_neg_eq_add, ← two_mul]
              ring
        · have hY : (y1 : ZMod p) = (weierstrass p a b).negY x1 y2 := by
            have h1e := WeierstrassCurve.Affine.Y_eq_of_X_eq h1.1 h2.1 rfl
            exact h1e.resolve_left fun h => hy ((cast_eq_iff hy1 hy2).mp h)
          refine ⟨.inf, by simp [pointAdd, hy], ?_⟩
          rw [WeierstrassCurve.Affine.Point.add_of_Y_eq rfl hY]
          exact .inf
      · have hX : (x1 : ZMod p) ≠ x2 := (cast_eq_iff hx1 hx2).not.mpr hx
        have hX' : ((subMod x2 x1 p : Nat) : ZMod p) ≠ 0 := by
          rw [cast_subMod hp]; exact sub_ne_zero.mpr hX.symm
        obtain ⟨d, hd, hd'⟩ := inverse_prime hX'
        refine ⟨chordPoint p (subMod y2 y1 p * d % p) x1 y1 x2, by simp [pointAdd, hx, hd], ?_⟩
        rw [WeierstrassCurve.Affine.Point.add_of_X_ne hX]
        have hs : ((subMod y2 y1 p * d % p : Nat) : ZMod p) = (weierstrass p a b).slope x1 x2 y1 y2 := by
          rw [WeierstrassCurve.Affine.slope_of_X_ne hX, ZMod.natCast_mod]
          push_cast
          rw [hd', cast_subMod hp, cast_subMod hp, div_eq_mul_inv, ← neg_sub (y1 : ZMod p), ← neg_sub (x1 : ZMod p),
            inv_neg]
          ring
        refine chord_represents hs _ ?_ ?_
        all_goals
          simp only [WeierstrassCurve.Affine.addX, WeierstrassCurve.Affine.addY, WeierstrassCurve.Affine.negAddY,
            negY_eq]
          simp only [weierstrass]
          ring

theorem scalarLoop_represents (h3 : 3 ≤ p) {q : Point} {P} (hq : Represents p a b q P) (k i : Nat) :
    ∀ (n : Nat) (r : Point), Represents p a b r (n • P) →
      ∃ v, scalarLoop p a q k i r = .ok v ∧ Represents p a b v ((n * 2 ^ i + k % 2 ^ i) • P) := by
  induction i with
  | zero => intro n r hr; exact ⟨r, rfl, by simpa [Nat.mod_one] using hr⟩
  | succ i ih =>
    intro n r hr
    obtain ⟨r2, e2, h2⟩ := hr.add h3 hr
    rw [← add_nsmul] at h2
    have hm : k % 2 ^ (i + 1) = k % 2 ^ i + 2 ^ i * (k / 2 ^ i % 2) := by
      rw [pow_succ, Nat.mod_mul]
    simp only [scalarLoop, e2]
    have hb : k.testBit i = decide (k / 2 ^ i % 2 = 1) := Nat.testBit_eq_decide_div_mod_eq
    rw [hb]
    by_cases h : k / 2 ^ i % 2 = 1
    · obtain ⟨r3, e3, h3'⟩ := h2.add h3 hq
      rw [← succ_nsmul] at h3'
      simp only [h, decide_true, if_true, e3]
      obtain ⟨v, e, hv⟩ := ih _ r3 h3'
      refine ⟨v, e, ?_⟩
      rw [hm, h, pow_succ]
      convert hv using 2
      ring
    · simp only [h, decide_false, Bool.false_eq_true, if_false]
      obtain ⟨v, e, hv⟩ := ih _ r2 h2
      refine ⟨v, e, ?_⟩
      rw [hm, show k / 2 ^ i % 2 = 0 by omega, pow_succ]
      convert hv using 2
      ring

/-- ScalarMul is the scalar multiple of the group (R158), for every scalar. -/
theorem Represents.scalarMul (h3 : 3 ≤ p) {q : Point} {P} (hq : Represents p a b q P) (k : Nat) :
    ∃ v, scalarMul p a q k = .ok v ∧ Represents p a b v (k • P) := by
  obtain ⟨v, e, hv⟩ := scalarLoop_represents h3 hq k (bitlen k) 0 .inf (by
    rw [zero_nsmul, WeierstrassCurve.Affine.Point.zero_def]; exact .inf)
  refine ⟨v, e, ?_⟩
  rwa [Nat.mod_eq_of_lt (lt_two_pow_bitlen k), zero_mul, zero_add] at hv

end
end Sys2Proof.Machine
end

