-- ==== Sys2Proof/Laws/Encoding.lean ====
section
/-! SUPPORT. The fields of a packed word, and that a word is the pack of its fields, once per format (R77 to R80). -/

namespace Sys2Proof

set_option Elab.async false

section
variable (op : BitVec 6) (rd : BitVec 4) (imm : BitVec 22)

@[simp] theorem opField_packI : opField (packI op rd imm) = op := by
  apply BitVec.eq_of_getLsbD_eq
  intro i hi
  unfold opField
  rw [BitVec.getLsbD_extractLsb']
  change (_ && BitVec.getLsbD (w := 6+4+22) (op ++ rd ++ imm) _) = _
  simp only [BitVec.getLsbD_append]
  interval_cases i <;> simp

@[simp] theorem rdField_packI : rdField (packI op rd imm) = rd := by
  apply BitVec.eq_of_getLsbD_eq
  intro i hi
  unfold rdField
  rw [BitVec.getLsbD_extractLsb']
  change (_ && BitVec.getLsbD (w := 6+4+22) (op ++ rd ++ imm) _) = _
  simp only [BitVec.getLsbD_append]
  interval_cases i <;> simp

@[simp] theorem immField_packI : immField (packI op rd imm) = imm := by
  apply BitVec.eq_of_getLsbD_eq
  intro i hi
  unfold immField
  rw [BitVec.getLsbD_extractLsb']
  change (_ && BitVec.getLsbD (w := 6+4+22) (op ++ rd ++ imm) _) = _
  simp only [BitVec.getLsbD_append]
  interval_cases i <;> simp

end

/-- A word is the format-I pack of its fields. -/
theorem packI_fields (w : Word) : packI (opField w) (rdField w) (immField w) = w := by
  apply BitVec.eq_of_getLsbD_eq
  intro i hi
  change BitVec.getLsbD (w := 6+4+22) (opField w ++ rdField w ++ immField w) i = _
  simp only [BitVec.getLsbD_append]
  simp only [opField, rdField, immField, BitVec.getLsbD_extractLsb']
  interval_cases i <;> simp

section
variable (op : BitVec 6) (rd : BitVec 4) (rs1 : BitVec 4) (rs2 : BitVec 4) (rs3 : BitVec 4) (sel : BitVec 2) (neg : BitVec 1) (low : BitVec 7)

@[simp] theorem opField_packR : opField (packR op rd rs1 rs2 rs3 sel neg low) = op := by
  apply BitVec.eq_of_getLsbD_eq
  intro i hi
  unfold opField
  rw [BitVec.getLsbD_extractLsb']
  change (_ && BitVec.getLsbD (w := 6+4+4+4+4+2+1+7) (op ++ rd ++ rs1 ++ rs2 ++ rs3 ++ sel ++ neg ++ low) _) = _
  simp only [BitVec.getLsbD_append]
  interval_cases i <;> simp

@[simp] theorem rdField_packR : rdField (packR op rd rs1 rs2 rs3 sel neg low) = rd := by
  apply BitVec.eq_of_getLsbD_eq
  intro i hi
  unfold rdField
  rw [BitVec.getLsbD_extractLsb']
  change (_ && BitVec.getLsbD (w := 6+4+4+4+4+2+1+7) (op ++ rd ++ rs1 ++ rs2 ++ rs3 ++ sel ++ neg ++ low) _) = _
  simp only [BitVec.getLsbD_append]
  interval_cases i <;> simp

@[simp] theorem rs1Field_packR : rs1Field (packR op rd rs1 rs2 rs3 sel neg low) = rs1 := by
  apply BitVec.eq_of_getLsbD_eq
  intro i hi
  unfold rs1Field
  rw [BitVec.getLsbD_extractLsb']
  change (_ && BitVec.getLsbD (w := 6+4+4+4+4+2+1+7) (op ++ rd ++ rs1 ++ rs2 ++ rs3 ++ sel ++ neg ++ low) _) = _
  simp only [BitVec.getLsbD_append]
  interval_cases i <;> simp

@[simp] theorem rs2Field_packR : rs2Field (packR op rd rs1 rs2 rs3 sel neg low) = rs2 := by
  apply BitVec.eq_of_getLsbD_eq
  intro i hi
  unfold rs2Field
  rw [BitVec.getLsbD_extractLsb']
  change (_ && BitVec.getLsbD (w := 6+4+4+4+4+2+1+7) (op ++ rd ++ rs1 ++ rs2 ++ rs3 ++ sel ++ neg ++ low) _) = _
  simp only [BitVec.getLsbD_append]
  interval_cases i <;> simp

@[simp] theorem rs3Field_packR : rs3Field (packR op rd rs1 rs2 rs3 sel neg low) = rs3 := by
  apply BitVec.eq_of_getLsbD_eq
  intro i hi
  unfold rs3Field
  rw [BitVec.getLsbD_extractLsb']
  change (_ && BitVec.getLsbD (w := 6+4+4+4+4+2+1+7) (op ++ rd ++ rs1 ++ rs2 ++ rs3 ++ sel ++ neg ++ low) _) = _
  simp only [BitVec.getLsbD_append]
  interval_cases i <;> simp

@[simp] theorem selField_packR : selField (packR op rd rs1 rs2 rs3 sel neg low) = sel := by
  apply BitVec.eq_of_getLsbD_eq
  intro i hi
  unfold selField
  rw [BitVec.getLsbD_extractLsb']
  change (_ && BitVec.getLsbD (w := 6+4+4+4+4+2+1+7) (op ++ rd ++ rs1 ++ rs2 ++ rs3 ++ sel ++ neg ++ low) _) = _
  simp only [BitVec.getLsbD_append]
  interval_cases i <;> simp

@[simp] theorem negField_packR : negField (packR op rd rs1 rs2 rs3 sel neg low) = neg := by
  apply BitVec.eq_of_getLsbD_eq
  intro i hi
  unfold negField
  rw [BitVec.getLsbD_extractLsb']
  change (_ && BitVec.getLsbD (w := 6+4+4+4+4+2+1+7) (op ++ rd ++ rs1 ++ rs2 ++ rs3 ++ sel ++ neg ++ low) _) = _
  simp only [BitVec.getLsbD_append]
  interval_cases i
  simp

@[simp] theorem lowField_packR : lowField (packR op rd rs1 rs2 rs3 sel neg low) = low := by
  apply BitVec.eq_of_getLsbD_eq
  intro i hi
  unfold lowField
  rw [BitVec.getLsbD_extractLsb']
  change (_ && BitVec.getLsbD (w := 6+4+4+4+4+2+1+7) (op ++ rd ++ rs1 ++ rs2 ++ rs3 ++ sel ++ neg ++ low) _) = _
  simp only [BitVec.getLsbD_append]
  interval_cases i <;> simp

end

/-- A word is the format-R pack of its fields. -/
theorem packR_fields (w : Word) : packR (opField w) (rdField w) (rs1Field w) (rs2Field w) (rs3Field w) (selField w) (negField w) (lowField w) = w := by
  apply BitVec.eq_of_getLsbD_eq
  intro i hi
  change BitVec.getLsbD (w := 6+4+4+4+4+2+1+7) (opField w ++ rdField w ++ rs1Field w ++ rs2Field w ++ rs3Field w ++ selField w ++ negField w ++ lowField w) i = _
  simp only [BitVec.getLsbD_append]
  simp only [opField, rdField, rs1Field, rs2Field, rs3Field, selField, negField, lowField, BitVec.getLsbD_extractLsb']
  interval_cases i <;> simp

section
variable (op : BitVec 6) (r : BitVec 4) (len : BitVec 7) (gap : BitVec 3) (addr : BitVec 12)

@[simp] theorem opField_packM : opField (packM op r len gap addr) = op := by
  apply BitVec.eq_of_getLsbD_eq
  intro i hi
  unfold opField
  rw [BitVec.getLsbD_extractLsb']
  change (_ && BitVec.getLsbD (w := 6+4+7+3+12) (op ++ r ++ len ++ gap ++ addr) _) = _
  simp only [BitVec.getLsbD_append]
  interval_cases i <;> simp

@[simp] theorem rdField_packM : rdField (packM op r len gap addr) = r := by
  apply BitVec.eq_of_getLsbD_eq
  intro i hi
  unfold rdField
  rw [BitVec.getLsbD_extractLsb']
  change (_ && BitVec.getLsbD (w := 6+4+7+3+12) (op ++ r ++ len ++ gap ++ addr) _) = _
  simp only [BitVec.getLsbD_append]
  interval_cases i <;> simp

@[simp] theorem lenField_packM : lenField (packM op r len gap addr) = len := by
  apply BitVec.eq_of_getLsbD_eq
  intro i hi
  unfold lenField
  rw [BitVec.getLsbD_extractLsb']
  change (_ && BitVec.getLsbD (w := 6+4+7+3+12) (op ++ r ++ len ++ gap ++ addr) _) = _
  simp only [BitVec.getLsbD_append]
  interval_cases i <;> simp

@[simp] theorem gapField_packM : gapField (packM op r len gap addr) = gap := by
  apply BitVec.eq_of_getLsbD_eq
  intro i hi
  unfold gapField
  rw [BitVec.getLsbD_extractLsb']
  change (_ && BitVec.getLsbD (w := 6+4+7+3+12) (op ++ r ++ len ++ gap ++ addr) _) = _
  simp only [BitVec.getLsbD_append]
  interval_cases i <;> simp

@[simp] theorem addrField_packM : addrField (packM op r len gap addr) = addr := by
  apply BitVec.eq_of_getLsbD_eq
  intro i hi
  unfold addrField
  rw [BitVec.getLsbD_extractLsb']
  change (_ && BitVec.getLsbD (w := 6+4+7+3+12) (op ++ r ++ len ++ gap ++ addr) _) = _
  simp only [BitVec.getLsbD_append]
  interval_cases i <;> simp

end

/-- A word is the format-M pack of its fields. -/
theorem packM_fields (w : Word) : packM (opField w) (rdField w) (lenField w) (gapField w) (addrField w) = w := by
  apply BitVec.eq_of_getLsbD_eq
  intro i hi
  change BitVec.getLsbD (w := 6+4+7+3+12) (opField w ++ rdField w ++ lenField w ++ gapField w ++ addrField w) i = _
  simp only [BitVec.getLsbD_append]
  simp only [opField, rdField, lenField, gapField, addrField, BitVec.getLsbD_extractLsb']
  interval_cases i <;> simp

/-! ## Register numbers and selectors -/

@[simp] theorem regOf_regBits (r : Reg) : regOf (regBits r) = r := rfl

@[simp] theorem regBits_regOf (b : BitVec 4) : regBits (regOf b) = b := rfl

@[simp] theorem regBits_zero : regBits 0 = 0 := rfl

@[simp] theorem selOf_selBits (sel : ModSel) : selOf (selBits sel) = some sel := by cases sel <;> decide

/-- A selector read from two bits is written back as those bits. -/
theorem selBits_of_selOf {b : BitVec 2} {sel : ModSel} (h : selOf b = some sel) : selBits sel = b := by
  revert b sel; decide

@[simp] theorem opField_encodeRegs (op : BitVec 6) (rd rs1 rs2 rs3 : Reg) :
    opField (encodeRegs op rd rs1 rs2 rs3) = op := by simp [encodeRegs]

@[simp] theorem opField_encodeSel (op : BitVec 6) (rd rs1 rs2 : Reg) (sel : ModSel) :
    opField (encodeSel op rd rs1 rs2 sel) = op := by simp [encodeSel]

/-! ## What each decoding helper answers -/

theorem decodeZero_ok {zero : Bool} {i j : Instr} : decodeZero zero i = .ok j ↔ zero = true ∧ i = j := by
  cases zero <;> simp [decodeZero]

theorem decodeSel_ok {zero : Bool} {w : Word} {k : ModSel → Instr} {j : Instr} :
    decodeSel zero w k = .ok j ↔ zero = true ∧ ∃ sel, selOf (selField w) = some sel ∧ k sel = j := by
  cases zero
  · simp [decodeSel]
  · simp only [decodeSel, if_true, true_and]
    cases selOf (selField w) <;> simp

theorem decodeLen_ok {w : Word} {lenOk : Bool} {i j : Instr} :
    decodeLen w lenOk i = .ok j ↔ gapField w = 0 ∧ lenOk = true ∧ i = j := by
  unfold decodeLen
  split <;> cases lenOk <;> simp_all

end Sys2Proof
end

