-- ==== Sys2Proof/Laws/HashCore.lean ====
section
/-! SUPPORT. The hash core: one step in the words of R198 to R200, the bits of padding and truncation, and the state
of a digest in progress as the blocks of its message (R206, R207). -/

namespace Sys2Proof.Machine

set_option Elab.async false

/-- The integer of a little-endian word (R57). -/
theorem leWord_toNat (b0 b1 b2 b3 : Byte) : (leWord b0 b1 b2 b3).toNat =
    b0.toNat + 2 ^ 8 * b1.toNat + 2 ^ 16 * b2.toNat + 2 ^ 24 * b3.toNat := by
  have := b0.isLt; have := b1.isLt; have := b2.isLt; have := b3.isLt
  simp only [leWord, BitVec.toNat_append]
  rw [← Nat.shiftLeft_add_eq_or_of_lt b0.isLt, ← Nat.shiftLeft_add_eq_or_of_lt b1.isLt,
    ← Nat.shiftLeft_add_eq_or_of_lt b2.isLt]
  simp only [Nat.shiftLeft_eq]; omega

/-- Step j in the words of R198 to R200. -/
theorem hashStep_mixed (j : Nat) (m t : Words16) (sc : StepConsts) (l : Fin 16) : (hashStep j m sc t)[l] =
    mixedWord j t m sc sigma[l] := by
  have key : ∀ al be, (permuteWords (mixAll (xorWords t m) al be sc))[l] =
    (mixAll (xorWords t m) al be sc)[sigma[l]] := by
    intro al be; simp [permuteWords]
  have h2 : ∀ al be (l : Fin 16), (mixAll (xorWords t m) al be sc)[l] = (let i : Fin 8 := ⟨l.val % 8, by omega⟩
    let x := t[i.val] ^^^ m[i.val]
    let y := t[i.val + 8] ^^^ m[i.val + 8]
    let x1 := (x + y).rotateLeft al ^^^ sc[i]
    let y1 := (x1 + y).rotateLeft be
    if l.val < 8 then x1 + y1 else y1.rotateLeft gamma[i]) := by
    intro al be l
    simp only [mixAll, Fin.getElem_fin, Vector.getElem_ofFn]
    split
    · rename_i h
      simp [mix, rotl, xorWords, Nat.mod_eq_of_lt h]
    · rename_i h
      have e : l.val % 8 = l.val - 8 := by omega
      simp [mix, rotl, xorWords, e, show l.val - 8 + 8 = l.val by omega]
  unfold hashStep mixedWord
  split
  · rename_i h; rw [key, h2]; simp only [h, if_true]
  · rename_i h; rw [key, h2]; simp only [h, if_false]

/-- Keeping the high bits, bit by bit, the most significant first. -/
theorem keep_bit (rb : Nat) (v : Byte) (i : Nat) (hrb : rb < 8) (hi : i < 8) : (keepHighBits rb v).getMsbD i =
    (v.getMsbD i && decide (i < rb)) := by
  unfold keepHighBits
  rw [BitVec.getMsbD_and]
  congr 1
  interval_cases rb <;> interval_cases i <;> decide

theorem bit80 (rb : Nat) (i : Nat) (hrb : rb < 8) (hi : i < 8) : (0x80#8 >>> rb).getMsbD i = decide (i = rb) := by
  interval_cases rb <;> interval_cases i <;> decide

/-- The bits of a little-endian word, byte after byte. -/
theorem leBytes_bit (w : Word) (n : Nat) (hn : n < 32) : ((leBytes w).getD (n / 8) 0).getMsbD (n % 8) =
    w.getLsbD (8 * (n / 8) + (7 - n % 8)) := by
  have h1 : n / 8 < 4 := by omega
  have h2 : n % 8 < 8 := by omega
  generalize n / 8 = q at *
  generalize n % 8 = r at *
  simp only [leBytes]
  interval_cases q <;> simp [BitVec.getMsbD_eq_getLsbD, h2] <;> (intro; omega)

theorem flat_getD (l : List Word) (i k : Nat) (hi : i < l.length) (hk : k < 4) :
    (l.flatMap leBytes).getD (4 * i + k) 0 = (leBytes (l[i])).getD k 0 := by
  induction l generalizing i with
  | nil => simp at hi
  | cons x xs ih =>
    have hx : (leBytes x).length = 4 := rfl
    cases i with
    | zero => simp only [List.flatMap_cons, Nat.mul_zero, Nat.zero_add, List.getElem_cons_zero,
      List.getD_eq_getElem?_getD]; rw [List.getElem?_append_left (by omega)]
    | succ i =>
      simp only [List.flatMap_cons, List.getElem_cons_succ]
      rw [← ih i (by simpa using hi)]
      simp only [List.getD_eq_getElem?_getD]
      rw [List.getElem?_append_right (by omega), show 4 * (i + 1) + k - (leBytes x).length = 4 * i + k by omega]

theorem flat_len (l : List Word) : (l.flatMap leBytes).length = 4 * l.length := by
  induction l with
  | nil => rfl
  | cons x xs ih => rw [List.flatMap_cons, List.length_append, ih]; simp [leBytes]; omega

/-- The digest has ceil8(L) bytes (R205). -/
theorem finish_length (cv : Words16) (len : Nat) (h2 : len ≤ 256) : (finish cv len).length = (len + 7) / 8 := by
  unfold finish; simp only []
  have hf : ((fold8 cv).toList.flatMap leBytes).length = 32 := by rw [flat_len]; simp
  split <;> simp only [List.length_modify, List.length_take, hf, ceil8] <;> omega

/-- Fuel beyond the length of the message changes nothing. -/
theorem hashBlocks_mono (rest : List Byte) : ∀ (fuel fuel' : Nat) (cv : Words16), rest.length ≤ fuel →
    rest.length ≤ fuel' → hashBlocks fuel cv rest = hashBlocks fuel' cv rest := by
  induction h : rest.length using Nat.strongRecOn generalizing rest with
  | _ n ih =>
    intro fuel fuel' cv h1 h2
    by_cases hlt : rest.length < 128
    · cases fuel <;> cases fuel' <;> simp [hashBlocks, hlt]
    · obtain ⟨f, rfl⟩ : ∃ f, fuel = f + 1 := ⟨fuel - 1, by omega⟩
      obtain ⟨f', rfl⟩ : ∃ f, fuel' = f + 1 := ⟨fuel' - 1, by omega⟩
      simp only [hashBlocks, hlt, if_false]
      exact ih (rest.drop 128).length (by simp; omega) _ rfl f f' _ (by simp; omega) (by simp; omega)

/-- The hash state has absorbed these bytes since the chaining value cv0: the complete blocks are compressed, the rest
stands in the buffer (R206). -/
def Streams (h : HashState) (cv0 : Words16) (bytes : List Byte) : Prop :=
  ∃ tail, hashBlocks bytes.length cv0 bytes = (h.cv, tail) ∧ tail.length = h.bpos.val ∧ ∀ k :
    Fin 128, (hk : k.val < tail.length) → h.buf[k] = tail[k.val]

theorem hashBlocks_tail_lt (bytes : List Byte) (cv : Words16) : (hashBlocks bytes.length cv bytes).2.length < 128 := by
  induction h : bytes.length using Nat.strongRecOn generalizing bytes cv with
  | _ n ih =>
    by_cases hlt : bytes.length < 128
    · cases n with
      | zero => simp [hashBlocks]; omega
      | succ n => simp [hashBlocks, hlt]
    · obtain ⟨f, rfl⟩ : ∃ f, n = f + 1 := ⟨n - 1, by omega⟩
      simp only [hashBlocks, hlt, if_false]
      rw [hashBlocks_mono _ f (bytes.drop 128).length _ (by simp; omega) le_rfl]
      exact ih _ (by simp; omega) _ _ rfl

/-- One more byte of message. -/
theorem hashBlocks_append (bytes : List Byte) (v : Byte) (cv : Words16) :
    let r := hashBlocks bytes.length cv bytes
    hashBlocks (bytes ++ [v]).length cv (bytes ++ [v]) =
      if r.2.length + 1 < 128 then (r.1, r.2 ++ [v]) else
      (compress r.1 (Vector.ofFn fun k => (r.2 ++ [v]).getD k.val 0), []) := by
  induction h : bytes.length using Nat.strongRecOn generalizing bytes cv with
  | _ n ih =>
    subst h
    by_cases hlt : bytes.length < 128
    · have hr : hashBlocks bytes.length cv bytes = (cv, bytes) := by
        cases hb : bytes.length with
        | zero => simp [hashBlocks]
        | succ n => simp [hashBlocks, hlt]
      simp only [hr]
      rw [List.length_append, List.length_singleton]
      simp only [hashBlocks, List.length_append, List.length_singleton]
      split
      · rfl
      · have h128 : bytes.length = 127 := by omega
        rw [List.drop_of_length_le (by simp; omega)]
        rw [hashBlocks_mono [] bytes.length 0 _ (by simp) (by simp)]
        rfl
    · have e1 : hashBlocks bytes.length cv bytes =
        hashBlocks (bytes.drop 128).length (compress cv (Vector.ofFn fun k => bytes.getD k.val 0))
        (bytes.drop 128) := by
        obtain ⟨f, hf⟩ : ∃ f, bytes.length = f + 1 := ⟨bytes.length - 1, by omega⟩
        conv_lhs => rw [hf]
        simp only [hashBlocks, hlt, if_false]
        exact hashBlocks_mono _ _ _ _ (by simp; omega) le_rfl
      have e2 : hashBlocks (bytes ++ [v]).length cv (bytes ++ [v]) =
        hashBlocks (bytes.drop 128 ++ [v]).length (compress cv (Vector.ofFn fun k => bytes.getD k.val 0))
        (bytes.drop 128 ++ [v]) := by
        rw [List.length_append, List.length_singleton]
        have : ¬ (bytes ++ [v]).length < 128 := by simp; omega
        simp only [hashBlocks, this, if_false]
        rw [List.drop_append_of_le_length (by omega)]
        have : (Vector.ofFn fun k : Fin 128 => (bytes ++ [v]).getD k.val 0) = (Vector.ofFn fun k :
          Fin 128 => bytes.getD k.val 0) := by
          apply Vector.ext; intro i hi
          simp only [Vector.getElem_ofFn, List.getD_eq_getElem?_getD]
          rw [List.getElem?_append_left (by omega)]
        rw [this]
        exact hashBlocks_mono _ _ _ _ (by simp; omega) le_rfl
      have := ih _ (by simp; omega) (bytes.drop 128) (compress cv (Vector.ofFn fun k => bytes.getD k.val 0)) rfl
      simp only [e1, e2]
      exact this

/-- Absorb takes one more byte (R206). -/
theorem streams_absorb {h : HashState} {cv0 : Words16} {bytes : List Byte} (hs : Streams h cv0 bytes) (v : Byte) :
    Streams (absorb h v) cv0 (bytes ++ [v]) := by
  obtain ⟨tail, h1, h2, h3⟩ := hs
  have := hashBlocks_append bytes v cv0
  simp only [h1] at this
  unfold absorb
  by_cases hb : h.bpos.val + 1 < 128
  · rw [if_pos (by omega)] at this
    simp only [hb, dif_pos]
    refine ⟨tail ++ [v], this, by simp; omega, fun k hk => ?_⟩
    simp only [Fin.getElem_fin, Vector.getElem_set]
    by_cases hkk : h.bpos.val = k.val
    · rw [if_pos hkk, List.getElem_append_right (by omega)]; simp
    · rw [if_neg hkk, List.getElem_append_left (by simp at hk; omega)]
      exact h3 k (by simp at hk; omega)
  · rw [if_neg (by omega)] at this
    simp only [hb, dif_neg, not_false_eq_true]
    refine ⟨[], ?_, rfl, by simp⟩
    rw [this]
    suffices e : (Vector.ofFn fun k : Fin 128 => (tail ++ [v]).getD k.val 0) = h.buf.set h.bpos.val v by rw [e]
    apply Vector.ext; intro i hi
    simp only [Vector.getElem_ofFn, Vector.getElem_set]
    have hbl := h.bpos.isLt
    by_cases hkk : h.bpos.val = i
    · rw [if_pos hkk]; simp [← hkk, ← h2]
    · rw [if_neg hkk]
      have hi' : i < tail.length := by omega
      have := h3 ⟨i, hi⟩ hi'
      simp only [Fin.getElem_fin] at this
      rw [this]
      simp [List.getElem?_append_left hi', hi']

theorem streams_absorbAll {h : HashState} {cv0 : Words16} {bytes : List Byte} (hs : Streams h cv0 bytes) (vs :
    List Byte) : Streams (absorbAll h vs) cv0 (bytes ++ vs) := by
  induction vs generalizing h bytes with
  | nil => simpa [absorbAll] using hs
  | cons v vs ih =>
    have := ih (streams_absorb hs v)
    simpa [absorbAll] using this

theorem absorb_frame (h : HashState) (v : Byte) : (absorb h v).phase = h.phase ∧ (absorb h v).rb =
    h.rb ∧ (absorb h v).hl = h.hl := by
  unfold absorb; simp only []; split <;> exact ⟨rfl, rfl, rfl⟩

/-- Absorbing leaves the phase, RB and HL. -/
theorem absorbAll_frame (h : HashState) (vs : List Byte) : (absorbAll h vs).phase = h.phase ∧ (absorbAll h vs).rb =
    h.rb ∧ (absorbAll h vs).hl = h.hl := by
  induction vs generalizing h with
  | nil => exact ⟨rfl, rfl, rfl⟩
  | cons v vs ih =>
    obtain ⟨a, b, c⟩ := ih (absorb h v)
    obtain ⟨a', b', c'⟩ := absorb_frame h v
    exact ⟨a.trans a', b.trans b', c.trans c'⟩

/-- The digest of absorbed complete bytes is the hash of R207. -/
theorem digest_stream {h : HashState} {bytes : List Byte} {len : Nat} (hs : Streams h (iv len) bytes) (hrb : h.rb =
    0) (hl : h.hl.val = len) : digestBytes h = hashMessage bytes 0 0 len := by
  obtain ⟨tail, h1, h2, h3⟩ := hs
  unfold digestBytes hashMessage
  simp only [h1, if_true, hl]
  rw [hrb]
  have hlt := h.bpos.isLt
  have e : Fin.ofNat 128 tail.length = h.bpos := by apply Fin.ext; simp [h2]
  rw [e]
  suffices e : pad h.buf h.bpos (0 : Fin 8).val = pad (Vector.ofFn fun k :
    Fin 128 => tail.getD k.val 0) h.bpos 0 by rw [e]
  apply Vector.ext; intro i hi
  simp only [pad, Vector.getElem_ofFn]
  by_cases hlt : (⟨i, hi⟩ : Fin 128) < h.bpos
  · have hi' : i < tail.length := by rw [h2]; exact hlt
    have := h3 ⟨i, hi⟩ hi'
    simp only [Fin.getElem_fin] at this
    simp [hlt, this, hi']
  · simp [hlt]

/-- The digest with a last partial byte is the hash of R207. -/
theorem digest_stream_bits {h : HashState} {bytes : List Byte} {len : Nat} (hs : Streams h (iv len) bytes) (hl :
    h.hl.val = len) (v : Byte) (rb : Fin 8) (hrb : rb ≠ 0) : digestBytes (absorbBits h v rb) =
    hashMessage bytes rb.val v len := by
  obtain ⟨tail, h1, h2, h3⟩ := hs
  have hrb' : rb.val ≠ 0 := fun h => hrb (Fin.ext h)
  unfold digestBytes hashMessage absorbBits
  simp only [h1, hrb', if_false, hl]
  have hlt := h.bpos.isLt
  have e : Fin.ofNat 128 tail.length = h.bpos := by apply Fin.ext; simp [h2]
  rw [e]
  suffices e : pad (h.buf.set h.bpos.val (keepHighBits rb.val v)) h.bpos rb.val =
    pad (Vector.ofFn fun k : Fin 128 => (tail ++ [v]).getD k.val 0) h.bpos rb.val by rw [e]
  apply Vector.ext; intro i hi
  simp only [pad, Vector.getElem_ofFn, Fin.getElem_fin, Vector.getElem_set]
  by_cases hlt : (⟨i, hi⟩ : Fin 128) < h.bpos
  · have hi' : i < tail.length := by rw [h2]; exact hlt
    have := h3 ⟨i, hi⟩ hi'
    simp only [Fin.getElem_fin] at this
    have hne : h.bpos.val ≠ i := by omega
    simp [hlt, this, hi', hne, List.getElem?_append_left hi']
  · by_cases heq : (⟨i, hi⟩ : Fin 128) = h.bpos
    · have hi' : h.bpos.val = i := by rw [← heq]
      simp only [hlt, if_false, heq, if_true, hrb', hi']
      have : (tail ++ [v]).getD i 0 = v := by simp [← hi', ← h2]
      have kk : keepHighBits rb.val (keepHighBits rb.val v) = keepHighBits rb.val v := by
        apply BitVec.eq_of_getMsbD_eq
        intro k hk
        rw [keep_bit _ _ _ rb.isLt hk, keep_bit _ _ _ rb.isLt hk]; simp
      rw [this, kk]; simp
    · simp [hlt, heq]

end Sys2Proof.Machine
end

