-- ==== Sys2Proof/Laws/Host.lean ====
section
/-! SUPPORT. The host's side: which accesses wait, what a step does with the waiting ones, the bytes an access moves and
what a reset leaves of the SPM. -/

namespace Sys2Proof.Machine

set_option Elab.async false

variable {s : State}

/-! ## Waiting -/

/-- The machine's test is `MustWait` (R64, R65). -/
theorem stalls_iff {a : BusAccess} : stalls s a = true ↔ MustWait s a := by
  cases a with
  | read o w => simp [stalls, MustWait, inSpmPart]
  | write o w d =>
    unfold stalls MustWait
    by_cases hi : inSpmPart o = true
    · have hle : 0x1000 ≤ o.toNat := of_decide_eq_true hi
      have hcmd : o ≠ 0x018 := by rintro rfl; exact absurd hle (by decide)
      simp only [hi, if_true, hle, true_and, hcmd, false_and, or_false]
    · have hle : ¬0x1000 ≤ o.toNat := fun h => hi (decide_eq_true h)
      have hcmd : o.toNat = cmdOffset ↔ o = 0x018 :=
        ⟨fun h => BitVec.eq_of_toNat_eq h, fun h => by rw [h]; rfl⟩
      have hdepth : Config.queueDepth = 16 := rfl
      cases w <;> simp [accessLegal, hi, hle, hcmd, AccessWidth.size, hdepth]
      constructor
      · rintro ⟨⟨⟨_, h1⟩, h2⟩, h3⟩
        exact ⟨h1, h2, h3⟩
      · rintro ⟨rfl, h2, h3⟩
        exact ⟨⟨⟨rfl, rfl⟩, h2⟩, h3⟩

/-- An access that does not have to wait is not stalled. -/
theorem stalls_eq_false {a : BusAccess} (h : ¬MustWait s a) : stalls s a = false :=
  Bool.eq_false_iff.mpr fun hs => h (stalls_iff.mp hs)

theorem allWait_iff : AllWait s ↔ ∀ req ∈ s.bus.stalled, stalls s req.access = true := by
  simp only [AllWait, stalls_iff]

/-- No access is ready when all of them have to wait. -/
theorem takeReady_of_allWait {l : List BusRequest} (h : ∀ req ∈ l, MustWait s req.access) : takeReady s l = none := by
  induction l with
  | nil => rfl
  | cons req rest ih =>
    have hreq := stalls_iff.mpr (h req List.mem_cons_self)
    simp [takeReady, hreq, ih fun r hr => h r (List.mem_cons_of_mem _ hr)]

/-! ## What the step does -/

/-- While every waiting access has to wait, the step takes the next input. -/
theorem step_of_allWait (h : AllWait s) : step s = nextInput s := by
  simp only [step, advance, takeReady_of_allWait h]

/-- The first waiting access is made as soon as it does not have to wait. -/
theorem step_of_ready {req : BusRequest} {others : List BusRequest} (hs : s.bus.stalled = req :: others)
    (h : ¬MustWait s req.access) : step s = .next (completeRequest (setStalled s others) req) := by
  simp [step, advance, hs, takeReady, stalls_eq_false h]

/-- While accesses wait and nothing outside moves, the engine makes a move. -/
theorem step_of_nothingOutside (hne : s.bus.stalled ≠ []) (h : AllWait s) (hout : NothingOutside s) :
    step s = engineMove s := by
  rw [step_of_allWait h, nextInput]
  rcases hout with hin | ⟨req, rest, hin, held, hmem, hm⟩
  · simp [hin, hne]
  · simp only [hin]
    rw [if_pos (List.any_eq_true.mpr ⟨held, hmem, by simp [hm]⟩)]

/-- A next access is made when it does not have to wait, and joins the waiting ones when it has to. -/
theorem step_of_hostAccess {m : Nat} {a : BusAccess} {rest : List Input} (h : HostAccess s m a rest) :
    step s = if stalls s a then .next (waiting s rest { master := m, access := a })
      else .next (completeRequest (setInputs s rest) { master := m, access := a }) := by
  obtain ⟨hall, hm, hin⟩ := h
  rw [step_of_allWait hall, nextInput]
  simp only [hin]
  rw [if_neg]
  · rfl
  · rw [List.any_eq_true]
    rintro ⟨held, hmem, he⟩
    exact hm held hmem (by simpa using he)

/-- A next access that does not have to wait is made. -/
theorem step_of_access {m : Nat} {a : BusAccess} {rest : List Input} (h : HostAccess s m a rest)
    (ha : ¬MustWait s a) : step s = .next (completeRequest (setInputs s rest) { master := m, access := a }) := by
  rw [step_of_hostAccess h, stalls_eq_false ha, if_neg Bool.false_ne_true]

/-- A next access that has to wait joins the waiting ones. -/
theorem step_of_mustWait {m : Nat} {a : BusAccess} {rest : List Input} (h : HostAccess s m a rest)
    (ha : MustWait s a) : step s = .next (waiting s rest { master := m, access := a }) := by
  rw [step_of_hostAccess h, stalls_iff.mpr ha, if_pos rfl]

/-! ## Bytes -/

theorem leNat_div (l : List Byte) (k : Nat) : leNat l / 2 ^ (8 * k) % 2 ^ 8 = (l.getD k 0).toNat := by
  induction l generalizing k with
  | nil => simp [leNat]
  | cons b l ih =>
    have hb := b.isLt
    cases k with
    | zero => simp [leNat]; exact hb
    | succ k =>
      simp only [leNat, List.getD_cons_succ]
      rw [← ih k, show 8 * (k + 1) = 8 + 8 * k by ring, pow_add, ← Nat.div_div_eq_div_mul]
      congr 2
      omega

/-- Byte k of a little-endian word (R53). -/
theorem leNat_byte (l : List Byte) {k : Nat} (hk : k < 4) :
    (BitVec.ofNat 32 (leNat l)).extractLsb' (8 * k) 8 = l.getD k 0 := by
  apply BitVec.eq_of_toNat_eq
  rw [BitVec.extractLsb'_toNat, BitVec.toNat_ofNat, Nat.shiftRight_eq_div_pow, ← leNat_div l k]
  interval_cases k <;> omega

/-- The bytes of a written word (R53). -/
theorem leBytes_take (width : AccessWidth) (data : Word) {k : Nat} (hk : k < width.size) :
    ((leBytes data).take width.size).getD k 0 = data.extractLsb' (8 * k) 8 := by
  cases width <;> simp only [AccessWidth.size] at hk <;> interval_cases k <;> rfl

/-! ## Resets -/

/-- Each byte is what it was, or new and in the range of the abandoned store (R282). -/
theorem memLookup_abandonedStore (draw : Nat) (mem : Memory) (a0 : Nat) (bytes : List Byte) (a : Nat) :
    memLookup (abandonedStore draw mem a0 bytes) a = memLookup mem a ∨
      (a0 ≤ a ∧ a < a0 + bytes.length ∧
        memLookup (abandonedStore draw mem a0 bytes) a = some (bytes.getD (a - a0) 0)) := by
  induction bytes generalizing mem a0 with
  | nil => exact .inl rfl
  | cons b rest ih =>
    unfold abandonedStore
    rcases ih (if Config.abandonedByteIsNew draw a0 then memStore mem a0 b else mem) (a0 + 1) with h | ⟨h1, h2, h3⟩
    · rw [h]
      split
      · by_cases ha : a0 = a
        · exact .inr ⟨ha.le, by simp [ha], by simp [memLookup_memStore, ha]⟩
        · exact .inl (by rw [memLookup_memStore, if_neg ha])
      · exact .inl rfl
    · refine .inr ⟨by omega, by simp; omega, ?_⟩
      rw [h3, show a - a0 = a - (a0 + 1) + 1 by omega, List.getD_cons_succ]

/-- The SPM of a state that a reset leaves with the free draws of the power-on. -/
theorem spmAfterReset_of_resetSpm {t : State} (hm : t.spm = resetSpm s) (hf : t.free.powerOns = s.free.powerOns) :
    SpmAfterReset s t := by
  refine ⟨fun hn a => ?_, fun a0 bytes hb a => ?_⟩
  · simp only [readByte, hm, hf, resetSpm, hn]
  · simp only [readByte, hm, hf, resetSpm, hb]
    rcases memLookup_abandonedStore s.free.abandons s.spm a0 bytes a with h | ⟨h1, h2, h3⟩
    · rw [h]
      exact ⟨fun _ => rfl, fun _ => .inl rfl⟩
    · rw [h3]
      exact ⟨fun hout => absurd ⟨h1, h2⟩ hout, fun _ => .inr rfl⟩

/-- The reset state with any SPM and any fields of the model's own has the reset table (R278). -/
theorem resetTable_reset (spm : Memory) (free : FreeDraws) (bus : BusState) :
    ResetTable { State.reset with spm := spm, free := free, bus := bus } where
  x r := by simp only [readX]; split <;> simp [State.reset]
  points r := by simp [readPT, State.reset]
  flag := rfl
  curve := ⟨rfl, rfl, rfl, rfl⟩
  order := ⟨rfl, rfl, rfl⟩
  base := ⟨rfl, rfl⟩
  modulus := ⟨rfl, rfl⟩
  phase := rfl
  chaining k := by simp [State.reset]
  buffer k := by simp [State.reset]
  cursors := ⟨rfl, rfl, rfl⟩
  digest k := by simp [State.reset]
  digestValid := ⟨rfl, rfl⟩
  commands := ⟨rfl, rfl, rfl⟩
  errors := ⟨rfl, rfl, rfl, rfl⟩
  interrupts := ⟨rfl, rfl, rfl, rfl⟩
  irq := rfl
  status := (by decide +kernel : statusWord State.reset = 0)

end Sys2Proof.Machine
end

