-- ==== Sys2Proof/Laws/Modular.lean ====
section
/-! SUPPORT. Montgomery reduction (R119 to R122). -/

namespace Sys2Proof.Machine

set_option Elab.async false

/-- R⁻¹ is the inverse of 2^256 modulo an odd m (R119). -/
theorem montRInv_spec {m : Nat} (h1 : m % 2 = 1) (h2 : 3 ≤ m) : 2 ^ 256 * montRInv m % m = 1 ∧ montRInv m < m := by
  have hg : Nat.gcd (montR % m) m = 1 := by
    rw [← Nat.gcd_rec, Nat.gcd_comm]
    exact Nat.Coprime.pow_left 256 (Nat.coprime_two_left.mpr (Nat.odd_iff.mpr h1))
  have := invMod_spec (by omega) hg
  rw [Nat.mod_mul_mod] at this
  exact ⟨this.1, this.2.2⟩

/-- 2^256 times a Montgomery reduction is congruent to the value reduced (R120, R121). -/
theorem mont_reduce {m v : Nat} (h1 : m % 2 = 1) (h2 : 3 ≤ m) : (2 ^ 256 : Int) * ((v * montRInv m % m : Nat) :
    Int) ≡ v [ZMOD m] := by
  have h := (montRInv_spec h1 h2).1
  have h3 : ((2 ^ 256 * montRInv m : Nat) : Int) ≡ 1 [ZMOD m] := by
    have := natmod_modEq (2 ^ 256 * montRInv m) m
    rw [h] at this; exact this.symm
  calc (2 ^ 256 : Int) * ((v * montRInv m % m : Nat) : Int) ≡ 2 ^ 256 * ((v * montRInv m : Nat) : Int) [ZMOD m] :=
    (natmod_modEq _ _).mul_left _
    _ = ((2 ^ 256 * montRInv m : Nat) : Int) * v := by push_cast; ring
    _ ≡ 1 * v [ZMOD m] := h3.mul_right _
    _ = v := one_mul _

end Sys2Proof.Machine
end

