-- ==== Sys2Proof/Laws/PerInstr.lean ====
section
/-! SUPPORT. A law of every instruction as syntax, one lemma per constructor: the opcode field of its word is the
opcode R87 assigns to it. -/

namespace Sys2Proof.Laws

set_option Elab.async false

/-- The opcode of each instruction (R87). -/
def opcodeOf : Instr → BitVec 6
  | .nop => 0x00
  | .ldi _ _ => 0x01
  | .movx _ _ => 0x02
  | .cmpx _ _ => 0x03
  | .ldn _ _ _ => 0x04
  | .stn _ _ _ => 0x05
  | .setm _ => 0x06
  | .modadd _ _ _ _ => 0x08
  | .modsub _ _ _ _ => 0x09
  | .modneg _ _ _ => 0x0A
  | .modred _ _ _ => 0x0B
  | .modmul _ _ _ _ => 0x0C
  | .montmul _ _ _ _ => 0x0D
  | .montred _ _ _ _ => 0x0E
  | .tomont _ _ _ => 0x0F
  | .modinv _ _ _ => 0x10
  | .modsqrt _ _ _ => 0x11
  | .domcrv _ _ _ => 0x18
  | .domord _ _ => 0x19
  | .domgen _ => 0x1A
  | .pinf _ => 0x20
  | .pgen _ => 0x21
  | .pset _ _ _ => 0x22
  | .pgetx _ _ => 0x23
  | .pgety _ _ => 0x24
  | .pmov _ _ => 0x25
  | .peq _ _ => 0x26
  | .pisinf _ => 0x27
  | .padd _ _ _ => 0x28
  | .pdbl _ _ => 0x29
  | .pneg _ _ => 0x2A
  | .pmul _ _ _ _ => 0x2B
  | .pdec _ _ _ => 0x2C
  | .penc _ _ => 0x2D
  | .hinit _ => 0x30
  | .hupd _ _ => 0x31
  | .hfin _ => 0x32
  | .htoe _ => 0x33
  | .ecdsav _ _ _ _ => 0x38

/-- The word of the instruction carries its opcode in bits [31:26] (R76, R87). -/
def EncodedOpcode.Statement (i : Instr) : Prop := opField (encode i) = opcodeOf i

theorem EncodedOpcode.nop : EncodedOpcode.Statement (.nop) := by
  simp [EncodedOpcode.Statement, encode, opcodeOf]

theorem EncodedOpcode.ldi (rd : Reg) (imm : BitVec 22) : EncodedOpcode.Statement (.ldi rd imm) := by
  simp [EncodedOpcode.Statement, encode, opcodeOf]

theorem EncodedOpcode.movx (rd : Reg) (rs1 : Reg) : EncodedOpcode.Statement (.movx rd rs1) := by
  simp [EncodedOpcode.Statement, encode, opcodeOf]

theorem EncodedOpcode.cmpx (rs1 : Reg) (rs2 : Reg) : EncodedOpcode.Statement (.cmpx rs1 rs2) := by
  simp [EncodedOpcode.Statement, encode, opcodeOf]

theorem EncodedOpcode.ldn (r : Reg) (len : BitVec 7) (addr : BitVec 12) : EncodedOpcode.Statement (.ldn r len addr) := by
  simp [EncodedOpcode.Statement, encode, opcodeOf]

theorem EncodedOpcode.stn (r : Reg) (len : BitVec 7) (addr : BitVec 12) : EncodedOpcode.Statement (.stn r len addr) := by
  simp [EncodedOpcode.Statement, encode, opcodeOf]

theorem EncodedOpcode.setm (rs1 : Reg) : EncodedOpcode.Statement (.setm rs1) := by
  simp [EncodedOpcode.Statement, encode, opcodeOf]

theorem EncodedOpcode.modadd (rd : Reg) (rs1 : Reg) (rs2 : Reg) (sel : ModSel) : EncodedOpcode.Statement (.modadd rd rs1 rs2 sel) := by
  simp [EncodedOpcode.Statement, encode, opcodeOf]

theorem EncodedOpcode.modsub (rd : Reg) (rs1 : Reg) (rs2 : Reg) (sel : ModSel) : EncodedOpcode.Statement (.modsub rd rs1 rs2 sel) := by
  simp [EncodedOpcode.Statement, encode, opcodeOf]

theorem EncodedOpcode.modneg (rd : Reg) (rs1 : Reg) (sel : ModSel) : EncodedOpcode.Statement (.modneg rd rs1 sel) := by
  simp [EncodedOpcode.Statement, encode, opcodeOf]

theorem EncodedOpcode.modred (rd : Reg) (rs1 : Reg) (sel : ModSel) : EncodedOpcode.Statement (.modred rd rs1 sel) := by
  simp [EncodedOpcode.Statement, encode, opcodeOf]

theorem EncodedOpcode.modmul (rd : Reg) (rs1 : Reg) (rs2 : Reg) (sel : ModSel) : EncodedOpcode.Statement (.modmul rd rs1 rs2 sel) := by
  simp [EncodedOpcode.Statement, encode, opcodeOf]

theorem EncodedOpcode.montmul (rd : Reg) (rs1 : Reg) (rs2 : Reg) (sel : ModSel) : EncodedOpcode.Statement (.montmul rd rs1 rs2 sel) := by
  simp [EncodedOpcode.Statement, encode, opcodeOf]

theorem EncodedOpcode.montred (rd : Reg) (rs1 : Reg) (rs2 : Reg) (sel : ModSel) : EncodedOpcode.Statement (.montred rd rs1 rs2 sel) := by
  simp [EncodedOpcode.Statement, encode, opcodeOf]

theorem EncodedOpcode.tomont (rd : Reg) (rs1 : Reg) (sel : ModSel) : EncodedOpcode.Statement (.tomont rd rs1 sel) := by
  simp [EncodedOpcode.Statement, encode, opcodeOf]

theorem EncodedOpcode.modinv (rd : Reg) (rs1 : Reg) (sel : ModSel) : EncodedOpcode.Statement (.modinv rd rs1 sel) := by
  simp [EncodedOpcode.Statement, encode, opcodeOf]

theorem EncodedOpcode.modsqrt (rd : Reg) (rs1 : Reg) (sel : ModSel) : EncodedOpcode.Statement (.modsqrt rd rs1 sel) := by
  simp [EncodedOpcode.Statement, encode, opcodeOf]

theorem EncodedOpcode.domcrv (rs1 : Reg) (rs2 : Reg) (rs3 : Reg) : EncodedOpcode.Statement (.domcrv rs1 rs2 rs3) := by
  simp [EncodedOpcode.Statement, encode, opcodeOf]

theorem EncodedOpcode.domord (rs1 : Reg) (rs2 : Reg) : EncodedOpcode.Statement (.domord rs1 rs2) := by
  simp [EncodedOpcode.Statement, encode, opcodeOf]

theorem EncodedOpcode.domgen (rs1 : Reg) : EncodedOpcode.Statement (.domgen rs1) := by
  simp [EncodedOpcode.Statement, encode, opcodeOf]

theorem EncodedOpcode.pinf (rd : Reg) : EncodedOpcode.Statement (.pinf rd) := by
  simp [EncodedOpcode.Statement, encode, opcodeOf]

theorem EncodedOpcode.pgen (rd : Reg) : EncodedOpcode.Statement (.pgen rd) := by
  simp [EncodedOpcode.Statement, encode, opcodeOf]

theorem EncodedOpcode.pset (rd : Reg) (rs1 : Reg) (rs2 : Reg) : EncodedOpcode.Statement (.pset rd rs1 rs2) := by
  simp [EncodedOpcode.Statement, encode, opcodeOf]

theorem EncodedOpcode.pgetx (rd : Reg) (rs1 : Reg) : EncodedOpcode.Statement (.pgetx rd rs1) := by
  simp [EncodedOpcode.Statement, encode, opcodeOf]

theorem EncodedOpcode.pgety (rd : Reg) (rs1 : Reg) : EncodedOpcode.Statement (.pgety rd rs1) := by
  simp [EncodedOpcode.Statement, encode, opcodeOf]

theorem EncodedOpcode.pmov (rd : Reg) (rs1 : Reg) : EncodedOpcode.Statement (.pmov rd rs1) := by
  simp [EncodedOpcode.Statement, encode, opcodeOf]

theorem EncodedOpcode.peq (rs1 : Reg) (rs2 : Reg) : EncodedOpcode.Statement (.peq rs1 rs2) := by
  simp [EncodedOpcode.Statement, encode, opcodeOf]

theorem EncodedOpcode.pisinf (rs1 : Reg) : EncodedOpcode.Statement (.pisinf rs1) := by
  simp [EncodedOpcode.Statement, encode, opcodeOf]

theorem EncodedOpcode.padd (rd : Reg) (rs1 : Reg) (rs2 : Reg) : EncodedOpcode.Statement (.padd rd rs1 rs2) := by
  simp [EncodedOpcode.Statement, encode, opcodeOf]

theorem EncodedOpcode.pdbl (rd : Reg) (rs1 : Reg) : EncodedOpcode.Statement (.pdbl rd rs1) := by
  simp [EncodedOpcode.Statement, encode, opcodeOf]

theorem EncodedOpcode.pneg (rd : Reg) (rs1 : Reg) : EncodedOpcode.Statement (.pneg rd rs1) := by
  simp [EncodedOpcode.Statement, encode, opcodeOf]

theorem EncodedOpcode.pmul (rd : Reg) (rs1 : Reg) (rs2 : Reg) (neg : Bool) : EncodedOpcode.Statement (.pmul rd rs1 rs2 neg) := by
  simp [EncodedOpcode.Statement, encode, opcodeOf]

theorem EncodedOpcode.pdec (r : Reg) (len : BitVec 7) (addr : BitVec 12) : EncodedOpcode.Statement (.pdec r len addr) := by
  simp [EncodedOpcode.Statement, encode, opcodeOf]

theorem EncodedOpcode.penc (r : Reg) (addr : BitVec 12) : EncodedOpcode.Statement (.penc r addr) := by
  simp [EncodedOpcode.Statement, encode, opcodeOf]

theorem EncodedOpcode.hinit (imm : BitVec 22) : EncodedOpcode.Statement (.hinit imm) := by
  simp [EncodedOpcode.Statement, encode, opcodeOf]

theorem EncodedOpcode.hupd (r : Reg) (addr : BitVec 12) : EncodedOpcode.Statement (.hupd r addr) := by
  simp [EncodedOpcode.Statement, encode, opcodeOf]

theorem EncodedOpcode.hfin (addr : BitVec 12) : EncodedOpcode.Statement (.hfin addr) := by
  simp [EncodedOpcode.Statement, encode, opcodeOf]

theorem EncodedOpcode.htoe (rd : Reg) : EncodedOpcode.Statement (.htoe rd) := by
  simp [EncodedOpcode.Statement, encode, opcodeOf]

theorem EncodedOpcode.ecdsav (rd : Reg) (rs1 : Reg) (rs2 : Reg) (rs3 : Reg) : EncodedOpcode.Statement (.ecdsav rd rs1 rs2 rs3) := by
  simp [EncodedOpcode.Statement, encode, opcodeOf]

end Sys2Proof.Laws
end

