-- ==== Sys2Proof/Laws/SquareRoot.lean ====
section
/-! SUPPORT. The machine's `sqrtMod` is the relation `SquareRoot` (R137), which answers once; over a prime field it
finds the root of every residue. -/

namespace Sys2Proof.Machine

set_option Elab.async false

theorem leastOrder_none {m t mv : Nat} (h : leastOrder m t mv = none) :
    ∀ j, 1 ≤ j → j < mv → t ^ 2 ^ j % m ≠ 1 := by
  intro j h1 h2
  unfold leastOrder at h
  rw [List.find?_eq_none] at h
  have := h j (by rw [List.mem_range'_1]; omega)
  simpa [powMod_eq] using this

/-- The machine's loop follows the relation of R137. -/
theorem tonelliLoop_spec (m fuel mv c t r : Nat) (h : mv ≤ fuel) :
    TonelliShanks m mv c t r (tonelliLoop m fuel mv c t r) := by
  induction fuel generalizing mv c t r with
  | zero =>
    unfold tonelliLoop
    split
    · rename_i h1; subst h1; exact .done _ _ _
    · exact .stuck _ _ _ _ ‹_› (fun i h1 h2 => by omega)
  | succ fuel ih =>
    unfold tonelliLoop
    split
    · rename_i h1; subst h1; exact .done _ _ _
    · rename_i ht
      split
      · rename_i hn; exact .stuck _ _ _ _ ht (leastOrder_none hn)
      · rename_i i hi
        obtain ⟨h1, h2, h3, h4⟩ := leastOrder_some hi
        have := ih i (powMod c (2 ^ (mv - i - 1)) m ^ 2 % m) (t * (powMod c (2 ^ (mv - i - 1)) m ^ 2 % m) % m)
          (r * powMod c (2 ^ (mv - i - 1)) m % m) (by omega)
        have h5 := TonelliShanks.turn mv c t r i _ _ ht h1 h2 h3 h4 (powMod_eq _ _ _) this
        simpa only [pow_two] using h5

/-- The loop of R137 has one end. -/
theorem tonelli_det {m mv c t r : Nat} {o1 o2 : Except Cause Nat} (h1 : TonelliShanks m mv c t r o1)
    (h2 : TonelliShanks m mv c t r o2) : o1 = o2 := by
  induction h1 generalizing o2 with
  | done => cases h2 <;> simp_all
  | stuck mv c t r ht hn =>
    cases h2 with
    | done => simp_all
    | stuck => rfl
    | turn _ _ _ _ i b _ h1 h2 h3 h4 h5 h6 h7 => exact absurd h4 (hn _ h2 h3)
  | turn mv c t r i b out ht h1 h2 h3 h4 hb hrec ih =>
    cases h2 with
    | done => simp_all
    | stuck _ _ _ _ _ hn => exact absurd h3 (hn _ h1 h2)
    | turn _ _ _ _ i' b' _ _ g2 g3 g4 g5 hb' g7 =>
      rcases lt_trichotomy i i' with hlt | rfl | hlt
      · exact absurd h3 (g5 _ h1 hlt)
      · subst hb hb'; exact ih g7
      · exact absurd g4 (h4 _ g2 hlt)

theorem tonelli_error {m mv c t r : Nat} {e} (h1 : TonelliShanks m mv c t r (.error e)) : e = .esqrt := by
  generalize ho : (Except.error e : Except Cause Nat) = o at h1
  induction h1 with
  | done => simp at ho
  | stuck => simpa using ho
  | turn _ _ _ _ _ _ _ _ _ _ _ _ _ _ ih => exact ih ho

theorem tonelli_lt {m mv c t r x: Nat} {o : Except Cause Nat} (hm : 0 < m) (h1 : TonelliShanks m mv c t r o) (hr :
    r < m) (ho : o = .ok x) : x < m := by
  induction h1 with
  | done => simp at ho; omega
  | stuck => simp at ho
  | turn _ _ _ _ _ _ _ _ _ _ _ _ _ _ ih => exact ih (Nat.mod_lt _ hm) ho

/-- m − 1 = q · 2^e with q odd. -/
theorem splitTwos_spec (fuel n s : Nat) (hn : 0 < n) (hf : n < 2 ^ fuel) :
    (splitTwos fuel n s).1 % 2 = 1 ∧ n * 2 ^ s = (splitTwos fuel n s).1 * 2 ^ (splitTwos fuel n s).2 := by
  induction fuel generalizing n s with
  | zero => simp at hf; omega
  | succ fuel ih =>
    unfold splitTwos
    split
    · rename_i h
      have := ih (n / 2) (s + 1) (by omega) (by rw [pow_succ] at hf; omega)
      refine ⟨this.1, ?_⟩
      rw [← this.2, pow_succ']
      obtain ⟨k, rfl⟩ : ∃ k, n = 2 * k := ⟨n / 2, by omega⟩
      rw [Nat.mul_div_cancel_left _ (by omega)]; ring
    · exact ⟨by simp; omega, rfl⟩

theorem lnr_unique {m z z'} (h : LeastNonResidue m z) (h' : LeastNonResidue m z') : z = z' := by
  obtain ⟨h1, h2, h3, h4⟩ := h
  obtain ⟨g1, g2, g3, g4⟩ := h'
  rcases lt_trichotomy z z' with hlt | rfl | hlt
  · exact absurd h3 (g4 _ h1 hlt)
  · rfl
  · exact absurd g3 (h4 _ g1 hlt)

theorem odd_split_unique {q e q' e' : Nat} (hq : q % 2 = 1) (hq' : q' % 2 = 1) (h : q * 2 ^ e = q' * 2 ^ e') : q =
    q' ∧ e = e' := by
  have main : ∀ q e q' e', q % 2 = 1 → q' % 2 = 1 → q * 2 ^ e = q' * 2 ^ e' → e < e' → False := by
    intro q e q' e' hq hq' h hlt
    obtain ⟨d, rfl⟩ : ∃ d, e' = e + 1 + d := ⟨e' - e - 1, by omega⟩
    have : q * 2 ^ e = (2 * (q' * 2 ^ d)) * 2 ^ e := by rw [h, pow_add, pow_add]; ring
    have := Nat.eq_of_mul_eq_mul_right (by positivity) this
    omega
  rcases lt_trichotomy e e' with hlt | rfl | hlt
  · exact (main _ _ _ _ hq hq' h hlt).elim
  · exact ⟨Nat.eq_of_mul_eq_mul_right (by positivity) h, rfl⟩
  · exact (main _ _ _ _ hq' hq h.symm hlt).elim

/-- The machine's Sqrt is one that R137 allows. -/
theorem sqrtMod_spec (v m : Nat) (hm : 3 ≤ m) : SquareRoot v m (sqrtMod v m) := by
  unfold sqrtMod
  simp only [powMod_eq]
  split
  · exact .zero ‹_›
  · rename_i h0
    split
    · exact .nonResidue h0 ‹_›
    · rename_i h1
      have h1' : (v % m) ^ ((m - 1) / 2) % m = 1 := by simpa using h1
      split
      · rename_i hz
        refine .noWitness h0 h1' fun z hz' => ?_
        have := findNonResidue_none hz z hz'.1 (by have := hz'.2.1; omega)
        exact this hz'.2.2.1
      · rename_i z hz
        obtain ⟨g1, g2, g3, g4⟩ := findNonResidue_some hz
        obtain ⟨s1, s2⟩ := splitTwos_spec (bitlen (m - 1)) (m - 1) 0 (by omega) (lt_two_pow_bitlen _)
        rw [pow_zero, mul_one] at s2
        generalize splitTwos (bitlen (m - 1)) (m - 1) 0 = qs at *
        have hl : StartedLoop m (v % m) z qs.1 qs.2 _ := ⟨⟨g1, by omega, g3, g4⟩, s1, s2,
          tonelliLoop_spec m qs.2 qs.2 _ _ _ (le_refl _)⟩
        split
        · rename_i c hc
          rw [hc] at hl
          obtain rfl := tonelli_error hl.2.2.2
          exact .stuck z qs.1 qs.2 h0 h1' hl
        · rename_i r hr
          rw [hr] at hl
          rw [← pow_two]
          split
          · exact .root z qs.1 qs.2 r h0 h1' hl ‹_›
          · exact .notARoot z qs.1 qs.2 r h0 h1' hl ‹_›

theorem startedLoop_det {m a z q e z' q' e' : Nat} {o o' : Except Cause Nat} (h : StartedLoop m a z q e o) (h' :
    StartedLoop m a z' q' e' o') : o = o' := by
  obtain ⟨h1, h2, h3, h4⟩ := h
  obtain ⟨g1, g2, g3, g4⟩ := h'
  obtain rfl := lnr_unique h1 g1
  obtain ⟨rfl, rfl⟩ := odd_split_unique h2 g2 (h3.symm.trans g3)
  exact tonelli_det h4 g4

/-- What R137 makes of the end of its loop: the root is checked. -/
def checkedRoot (v m : Nat) : Except Cause Nat → Except Cause Nat
  | .ok r => if r ^ 2 % m = v % m then .ok r else .error .esqrt
  | .error _ => .error .esqrt

/-- Everything `SquareRoot` can answer. -/
theorem sr_cases {v m : Nat} {o : Except Cause Nat} (h : SquareRoot v m o) :
   (v % m = 0 ∧ o = .ok 0) ∨ (v % m ≠ 0 ∧ (v % m) ^ ((m - 1) / 2) % m ≠ 1 ∧ o = .error .enonresidue) ∨
   (v % m ≠ 0 ∧ (v % m) ^ ((m - 1) / 2) % m = 1 ∧ (∀ z, ¬LeastNonResidue m z) ∧ o = .error .esqrt) ∨
   (v % m ≠ 0 ∧ (v % m) ^ ((m - 1) / 2) % m = 1 ∧ ∃ z q e l, StartedLoop m (v % m) z q e l ∧ o =
     checkedRoot v m l) := by
  cases h with
  | zero h => exact .inl ⟨h, rfl⟩
  | nonResidue h1 h2 => exact .inr (.inl ⟨h1, h2, rfl⟩)
  | noWitness h1 h2 h3 => exact .inr (.inr (.inl ⟨h1, h2, h3, rfl⟩))
  | stuck z q e h1 h2 h3 => exact .inr (.inr (.inr ⟨h1, h2, z, q, e, _, h3, rfl⟩))
  | notARoot z q e r h1 h2 h3 h4 => exact .inr (.inr (.inr ⟨h1, h2, z, q, e, _, h3, by simp [checkedRoot, h4]⟩))
  | root z q e r h1 h2 h3 h4 => exact .inr (.inr (.inr ⟨h1, h2, z, q, e, _, h3, by simp [checkedRoot, h4]⟩))

/-- R137 gives one answer. -/
theorem squareRoot_det {v m : Nat} {o o' : Except Cause Nat} (h : SquareRoot v m o) (h' : SquareRoot v m o') : o =
    o' := by
  rcases sr_cases h with ⟨h1, rfl⟩ | ⟨h1, h2, rfl⟩ | ⟨h1, h2, h3, rfl⟩ | ⟨h1, h2, z, q, e, l, h3, rfl⟩ <;>
  rcases sr_cases h' with ⟨g1, rfl⟩ | ⟨g1, g2, rfl⟩ | ⟨g1, g2, g3, rfl⟩ | ⟨g1, g2, z', q', e', l', g3, rfl⟩ <;>
  first | rfl | contradiction | exact absurd g3.1 (h3 _) | exact absurd h3.1 (g3 _) | (rw [startedLoop_det h3 g3])

/-- The machine's Sqrt is the relation of R137. -/
theorem squareRoot_iff {v m : Nat} (hm : 3 ≤ m) {o : Except Cause Nat} : SquareRoot v m o ↔ sqrtMod v m = o :=
  ⟨fun h => squareRoot_det (sqrtMod_spec v m hm) h, fun h => h ▸ sqrtMod_spec v m hm⟩

/-- A root lies in [0, m − 1]. -/
theorem squareRoot_lt {v m r : Nat} (hm : 3 ≤ m) (h : SquareRoot v m (.ok r)) : r < m := by
  generalize ho : (Except.ok r : Except Cause Nat) = o at h
  cases h with
  | zero => simp at ho; omega
  | root z q e r' h1 h2 h3 h4 =>
    simp at ho; subst ho
    exact tonelli_lt (by omega) h3.2.2.2
        (Nat.mod_lt _ (by omega)) rfl
  | _ => simp at ho

theorem tonelliLoop_error {m fuel mv c t r : Nat} {e : Cause} (h : tonelliLoop m fuel mv c t r = .error e) : e =
    .esqrt := by
  induction fuel generalizing mv c t r with
  | zero => simp only [tonelliLoop] at h; split at h <;> simp_all
  | succ n ih =>
    simp only [tonelliLoop] at h
    split at h
    · simp at h
    · split at h
      · simp_all
      · exact ih h

/-- Sqrt raises ENONRESIDUE or ESQRT only (R137). -/
theorem sqrt_error {v m : Nat} {c : Cause} (h : sqrtMod v m = .error c) : c = .enonresidue ∨ c = .esqrt := by
  unfold sqrtMod at h
  simp only [] at h
  split at h
  · simp at h
  · split at h
    · simp_all
    · split at h
      · simp_all
      · split at h
        · rename_i hh; have := tonelliLoop_error hh; simp_all
        · split at h <;> simp_all

/-! ## Prime moduli -/

section
variable {m : Nat} [hp : Fact m.Prime]

theorem cast_mod_eq {t u : Nat} : t % m = u % m ↔ (t : ZMod m) = u := (ZMod.natCast_eq_natCast_iff' t u m).symm

theorem cast_one_iff {t : Nat} (hm : 3 ≤ m) : t % m = 1 ↔ (t : ZMod m) = 1 := by
  have := cast_mod_eq (m := m) (t := t) (u := 1)
  rwa [Nat.cast_one, Nat.mod_eq_of_lt (by omega : 1 < m)] at this

theorem tonelli_prime {a mv c t r : Nat} {out : Except Cause Nat} (hm : 3 ≤ m) (h :
    TonelliShanks m mv c t r out) (hmv : 1 ≤ mv) (ht : t < m)
    (h1 : (r : ZMod m) ^ 2 = a * t) (h2 : (t : ZMod m) ^ 2 ^ (mv - 1) = 1) (h3 : (c : ZMod m) ^ 2 ^ (mv - 1) = -1) :
    ∃ x, out = .ok x ∧ (x : ZMod m) ^ 2 = a := by
  induction h with
  | done mv c r => exact ⟨r, rfl, by simpa using h1⟩
  | stuck mv c t r hne hn =>
    exfalso
    rcases Nat.eq_or_lt_of_le hmv with rfl | hlt
    · have : t % m = 1 := (cast_one_iff hm).mpr (by simpa using h2)
      rw [Nat.mod_eq_of_lt ht] at this; exact hne this
    · apply hn (mv - 1) (by omega) (by omega)
      rw [cast_one_iff hm]; exact_mod_cast h2
  | turn mv c t r i b out hne hi1 hi2 hi3 hi4 hb hrec ih =>
    have hbc : (b : ZMod m) = (c : ZMod m) ^ 2 ^ (mv - i - 1) := by subst hb; rw [ZMod.natCast_mod]; push_cast; rfl
    have hb2 : (b : ZMod m) ^ 2 = (c : ZMod m) ^ 2 ^ (mv - i) := by
      rw [hbc, ← pow_mul, ← pow_succ, show mv - i - 1 + 1 = mv - i by omega]
    have hneg : (t : ZMod m) ^ 2 ^ (i - 1) = -1 := by
      have hsq : ((t : ZMod m) ^ 2 ^ (i - 1)) ^ 2 = 1 := by
        rw [← pow_mul, ← pow_succ, show i - 1 + 1 = i by omega]
        have := (cast_one_iff hm).mp hi3; exact_mod_cast this
      have hz : ((t : ZMod m) ^ 2 ^ (i - 1) - 1) * ((t : ZMod m) ^ 2 ^ (i - 1) + 1) = 0 := by linear_combination hsq
      rcases mul_eq_zero.mp hz with h | h
      · exfalso
        rw [sub_eq_zero] at h
        rcases Nat.eq_or_lt_of_le hi1 with rfl | hlt
        · have : t % m = 1 := (cast_one_iff hm).mpr (by simpa using h)
          rw [Nat.mod_eq_of_lt ht] at this; exact hne this
        · apply hi4 (i - 1) (by omega) (by omega)
          rw [cast_one_iff hm]; exact_mod_cast h
      · exact eq_neg_of_add_eq_zero_left h
    have e1 : ((b ^ 2 % m : Nat) : ZMod m) = (c : ZMod m) ^ 2 ^ (mv - i) := by
      rw [ZMod.natCast_mod]; push_cast; exact hb2
    have e2 : ((t * (b ^ 2 % m) % m : Nat) : ZMod m) = t * (c : ZMod m) ^ 2 ^ (mv - i) := by
      rw [ZMod.natCast_mod, Nat.cast_mul, e1]
    have e3 : ((r * b % m : Nat) : ZMod m) = r * b := by
      rw [ZMod.natCast_mod, Nat.cast_mul]
    refine ih hi1 (Nat.mod_lt _ (by omega)) ?_ ?_ ?_
    · rw [e3, e2, mul_pow, h1, hb2]; ring
    · rw [e2, mul_pow, hneg, ← pow_mul, ← pow_add, show mv - i + (i - 1) = mv - 1 by omega, h3]; ring
    · rw [e1, ← pow_mul, ← pow_add, show mv - i + (i - 1) = mv - 1 by omega, h3]

/-- Euler's criterion. -/
theorem euler {v : Nat} (hm : 3 ≤ m) (h0 : v % m ≠ 0) : (v % m) ^ ((m - 1) / 2) % m = 1 ↔ ∃ y : Nat, y ^ 2 % m =
    v % m := by
  have hodd : m % 2 = 1 := by
    rcases hp.out.eq_two_or_odd with h | h
    · omega
    · exact h
  have hv : (v : ZMod m) ≠ 0 := by
    rw [Ne, ZMod.natCast_eq_zero_iff]; intro hd; exact h0 (Nat.mod_eq_zero_of_dvd hd)
  rw [cast_one_iff hm, Nat.cast_pow, ZMod.natCast_mod, show (m - 1) / 2 = m / 2 by omega, ← ZMod.euler_criterion m hv]
  constructor
  · rintro ⟨y, hy⟩
    refine ⟨y.val, ?_⟩
    rw [cast_mod_eq, Nat.cast_pow, ZMod.natCast_zmod_val, pow_two, hy]
  · rintro ⟨y, hy⟩
    rw [cast_mod_eq] at hy
    exact ⟨y, by rw [← hy]; push_cast; ring⟩

theorem exists_lnr (hm : 3 ≤ m) : ∃ z, LeastNonResidue m z := by
  have hodd : m % 2 = 1 := by
    rcases hp.out.eq_two_or_odd with h | h
    · omega
    · exact h
  obtain ⟨a, ha⟩ := FiniteField.exists_nonsquare (F := ZMod m) (by rw [ZMod.ringChar_zmod_n]; omega)
  have ha0 : a ≠ 0 := by rintro rfl; exact ha ⟨0, by simp⟩
  have hneg : a ^ (m / 2) = -1 := by
    rcases ZMod.pow_div_two_eq_neg_one_or_one m ha0 with h | h
    · exact absurd ((ZMod.euler_criterion m ha0).mpr h) ha
    · exact h
  have hP : 2 ≤ a.val ∧ a.val ^ ((m - 1) / 2) % m = m - 1 := by
    refine ⟨?_, ?_⟩
    · by_contra hlt
      have : a.val = 0 ∨ a.val = 1 := by omega
      rcases this with h | h
      · exact ha0 ((ZMod.val_eq_zero a).mp h)
      · apply ha
        have : a = 1 := by rw [← ZMod.natCast_zmod_val a, h]; simp
        exact ⟨1, by simp [this]⟩
    · have : ((a.val ^ ((m - 1) / 2) : Nat) : ZMod m) = ((m - 1 : Nat) : ZMod m) := by
        rw [Nat.cast_pow, ZMod.natCast_zmod_val, show (m - 1) / 2 = m / 2 by omega, hneg, Nat.cast_sub (by omega)]
        simp
      rw [ZMod.natCast_eq_natCast_iff'] at this
      rwa [Nat.mod_eq_of_lt (by omega : m - 1 < m)] at this
  classical
  have hex : ∃ z, 2 ≤ z ∧ z ^ ((m - 1) / 2) % m = m - 1 := ⟨_, hP⟩
  obtain ⟨h1, h2⟩ := Nat.find_spec hex
  refine ⟨Nat.find hex, h1, ?_, h2, fun y hy1 hy2 hy3 => Nat.find_min hex hy2 ⟨hy1, hy3⟩⟩
  have := Nat.find_min' hex hP
  have := ZMod.val_lt a
  omega

theorem startedLoop_prime {a z q e : Nat} {out} (hm : 3 ≤ m) (ha : a ^ ((m - 1) / 2) % m = 1)
    (h : StartedLoop m a z q e out) : ∃ x, out = .ok x ∧ x ^ 2 % m = a % m := by
  obtain ⟨⟨h1, h2, h3, h4⟩, h5, h6, h7⟩ := h
  have he : 1 ≤ e := by
    rcases Nat.eq_zero_or_pos e with rfl | h
    · have hodd : m % 2 = 1 := by
        rcases hp.out.eq_two_or_odd with h | h
        · omega
        · exact h
      simp at h6; omega
    · exact h
  have hhalf : (m - 1) / 2 = q * 2 ^ (e - 1) := by
    rw [h6, show e = (e - 1) + 1 by omega, pow_succ, ← mul_assoc]; simp
  obtain ⟨x, hx, hx2⟩ := tonelli_prime (a := a) hm h7 he (Nat.mod_lt _ (by omega)) (by
      rw [ZMod.natCast_mod, ZMod.natCast_mod]
      push_cast
      rw [← pow_mul, show (q + 1) / 2 * 2 = q + 1 by omega, pow_succ]; ring)
    (by
      rw [ZMod.natCast_mod]; push_cast
      rw [← pow_mul, ← hhalf]
      have := (cast_one_iff hm).mp ha; exact_mod_cast this)
    (by
      rw [ZMod.natCast_mod]; push_cast
      rw [← pow_mul, ← hhalf]
      have : ((z ^ ((m - 1) / 2) : Nat) : ZMod m) = ((m - 1 : Nat) : ZMod m) := by
        rw [ZMod.natCast_eq_natCast_iff', h3, Nat.mod_eq_of_lt (by omega)]
      rw [Nat.cast_sub (by omega)] at this
      push_cast at this
      simpa using this)
  exact ⟨x, hx, cast_mod_eq.mpr (by push_cast; exact hx2)⟩

/-- Over a prime field the root of a residue is found. -/
theorem sqrt_prime {v : Nat} (hm : 3 ≤ m) (h : ∃ y, y ^ 2 % m = v % m) : ∃ r, sqrtMod v m = .ok r ∧ r < m ∧
    r ^ 2 % m = v % m := by
  have hs := sqrtMod_spec v m hm
  have : ∃ r, sqrtMod v m = .ok r ∧ r ^ 2 % m = v % m := by
    rcases sr_cases hs with ⟨h1, h2⟩ | ⟨h1, h2, h3⟩ | ⟨h1, h2, h3, h4⟩ | ⟨h1, h2, z, q, e, l, h3, h4⟩
    · exact ⟨0, h2, by simp [h1]⟩
    · exact absurd ((euler hm h1).mpr h) h2
    · obtain ⟨z, hz⟩ := exists_lnr hm; exact absurd hz (h3 z)
    · obtain ⟨x, rfl, hx⟩ := startedLoop_prime hm h2 h3
      rw [Nat.mod_mod] at hx
      exact ⟨x, by rw [h4]; simp [checkedRoot, hx], hx⟩
  obtain ⟨r, h1, h2⟩ := this
  exact ⟨r, h1, squareRoot_lt hm (h1 ▸ hs), h2⟩

/-- Over a prime field a non-residue raises ENONRESIDUE. -/
theorem sqrt_prime_none {v : Nat} (hm : 3 ≤ m) (h : ¬∃ y, y ^ 2 % m = v % m) : sqrtMod v m = .error .enonresidue := by
  have h0 : v % m ≠ 0 := fun h0 => h ⟨0, by simp [h0]⟩
  exact (squareRoot_iff hm).mp (.nonResidue h0 fun h1 => h ((euler hm h0).mp h1))

end

end Sys2Proof.Machine
end

