-- ==== Sys2Proof/Laws/Points.lean ====
section
/-! SUPPORT. What the point functions of R155, R158 and R185 can answer: the faults they raise, the range of the
coordinates, the third point of a chord, the recursion of ScalarMul. -/

namespace Sys2Proof.Machine

set_option Elab.async false

/-- The third point of a chord of slope l (R155). -/
theorem chordPoint_third {p : Nat} (hp : 0 < p) (hlt : p ≤ 2 ^ 256) {num den : Int} {l x1 y1 x2 :
    Nat} (hl : (l : Int) * den ≡ num [ZMOD p]) :
   ∃ x3 y3, ThirdPoint p (num, den) x1 y1 x2 x3 y3 ∧ (chordPoint p l x1 y1 x2).toReg = .aff x3 y3 := by
  have e : ∀ v, v < p → (BitVec.ofNat 256 v).toNat = v :=
    fun v hv => by rw [BitVec.toNat_ofNat, Nat.mod_eq_of_lt (lt_of_lt_of_le hv hlt)]
  have hx := subMod_lt (l * l) (x1 + x2) (m := p) (by omega)
  have hy := subMod_lt (l * subMod x1 (subMod (l * l) (x1 + x2) p) p) y1 (m := p) (by omega)
  refine ⟨_, _, ⟨?_, ?_, l, hl, ?_, ?_⟩, rfl⟩
  · rwa [e _ hx]
  · rwa [e _ hy]
  · rw [e _ hx]
    have := subMod_modEq (l * l) (x1 + x2) (m := p) (by omega)
    push_cast at this
    convert this using 1; ring
  · rw [e _ hy, e _ hx]
    have h1 := subMod_modEq (l * subMod x1 (subMod (l * l) (x1 + x2) p) p) y1 (m := p) (by omega)
    have h2 := subMod_modEq x1 (subMod (l * l) (x1 + x2) p) (m := p) (by omega)
    refine h1.trans ?_
    push_cast
    exact (h2.mul_left _).sub_right _

theorem gcd_cast {d : Nat} {den : Int} {p : Nat} (h : (d : Int) ≡ den [ZMOD p]) : Nat.gcd d p = Int.gcd den p := by
  have h' : (d : Int) % p = den % p := h
  rw [← Int.gcd_natCast_natCast, ← Int.gcd_emod, h', Int.gcd_emod]

/-- The slope of R155 exists exactly when its denominator has an inverse. -/
theorem inv_slope {p d : Nat} {num den : Int} {nn : Nat} (hp :
    2 ≤ p) (hd : (d : Int) ≡ den [ZMOD p]) (hn : (nn : Int) ≡ num [ZMOD p]) :
   (Int.gcd den p = 1 → ∃ x, inverse d p = .ok x ∧ ((nn * x % p : Nat) : Int) * den ≡ num [ZMOD p]) ∧
   (Int.gcd den p ≠ 1 → inverse d p = .error .enoinv) := by
  rw [← gcd_cast hd]
  rcases inverse_cases (v := d) hp with ⟨hc, x, hx, h4, h5, h6⟩ | ⟨hc, hx⟩
  · refine ⟨fun _ => ⟨x, hx, ?_⟩, fun h => absurd hc h⟩
    have h7 : ((d * x : Nat) : Int) ≡ 1 [ZMOD p] := by
      have := natmod_modEq (d * x) p
      rw [h4] at this; exact this.symm
    calc ((nn * x % p : Nat) : Int) * den ≡ (nn * x : Nat) * d [ZMOD p] := (natmod_modEq _ _).mul hd.symm
      _ = nn * ((d * x : Nat) : Int) := by push_cast; ring
      _ ≡ num * 1 [ZMOD p] := hn.mul h7
      _ = num := mul_one _
  · exact ⟨fun h => absurd h hc, fun _ => hx⟩

/-- PointNeg is `mirror` on register values (R158). -/
theorem mirror_toReg {p : Nat} {q : PointReg} {a : Point} (hp : p ≤ 2 ^ 256) (h0 : 0 < p) (h : q.toPoint =
    some a) (hb : q.below p = true) : (pointNeg p a).toReg = mirror p q := by
  cases q with
  | empty => simp [PointReg.toPoint] at h
  | inf => simp only [PointReg.toPoint, Option.some.injEq] at h; subst h; rfl
  | aff x y =>
    simp only [PointReg.toPoint, Option.some.injEq] at h; subst h
    simp only [PointReg.below, Bool.and_eq_true, decide_eq_true_eq] at hb
    simp only [pointNeg, Point.toReg, mirror, BitVec.ofNat_toNat, BitVec.setWidth_eq, PointReg.aff.injEq, true_and]
    congr 1
    rw [subMod_zero_left hb.2]
    split
    · rename_i h; rw [h]; simp
    · rw [Nat.mod_eq_of_lt (by omega)]

theorem inverse_error {v m : Nat} {c : Cause} (h : inverse v m = .error c) : c = .enoinv := by
  unfold inverse at h; split at h <;> simp_all

/-- PointAdd raises ENOINV only (R155). -/
theorem pointAdd_error {p a : Nat} {q r : Point} {c : Cause} (h : pointAdd p a q r = .error c) : c = .enoinv := by
  have hinv : ∀ v m, ∀ c, inverse v m = .error c → c = .enoinv := by
    intro v m c h; unfold inverse at h; split at h <;> simp_all
  cases q with
    | inf => simp [pointAdd] at h
    | aff x1 y1 =>
      cases r with
      | inf => simp [pointAdd] at h
      | aff x2 y2 =>
        simp only [pointAdd] at h
        split at h
        · split at h
          · rename_i hh; simp only [Except.error.injEq] at h; subst h; exact hinv _ _ _ hh
          · simp at h
        · split at h
          · simp at h
          · split at h
            · simp at h
            · split at h
              · rename_i hh; simp only [Except.error.injEq] at h; subst h; exact hinv _ _ _ hh
              · simp at h

/-- ScalarMul raises ENOINV only (R158). -/
theorem scalarMul_error {p a : Nat} {q : Point} {k : Nat} {c : Cause} (h : scalarMul p a q k = .error c) : c =
    .enoinv := by
  have hinv : ∀ v m, ∀ c, inverse v m = .error c → c = .enoinv := by
    intro v m c h; unfold inverse at h; split at h <;> simp_all
  have hadd : ∀ q r c, pointAdd p a q r = .error c → c = .enoinv := by
    intro q r c h
    cases q with
    | inf => simp [pointAdd] at h
    | aff x1 y1 =>
      cases r with
      | inf => simp [pointAdd] at h
      | aff x2 y2 =>
        simp only [pointAdd] at h
        split at h
        · split at h
          · rename_i hh; simp only [Except.error.injEq] at h; subst h; exact hinv _ _ _ hh
          · simp at h
        · split at h
          · simp at h
          · split at h
            · simp at h
            · split at h
              · rename_i hh; simp only [Except.error.injEq] at h; subst h; exact hinv _ _ _ hh
              · simp at h
  have : ∀ i r, scalarLoop p a q k i r = .error c → c = .enoinv := by
    intro i
    induction i with
    | zero => intro r h; simp [scalarLoop] at h
    | succ i ih =>
      intro r h
      simp only [scalarLoop] at h
      split at h
      · rename_i hh; simp only [Except.error.injEq] at h; subst h; exact hadd _ _ _ hh
      · split at h
        · split at h
          · rename_i hh; simp only [Except.error.injEq] at h; subst h; exact hadd _ _ _ hh
          · exact ih _ h
        · exact ih _ h
  exact this _ _ h

/-- The coordinates lie below p. -/
def Below (p : Nat) (q : Point) : Prop := ∀ x y, q = .aff x y → x < p ∧ y < p

theorem toReg_below {p : Nat} (hp : p ≤ 2 ^ 256) {q : Point} (h : Below p q) : q.toReg.below p = true := by
  cases q with
  | inf => rfl
  | aff x y =>
    obtain ⟨hx, hy⟩ := h x y rfl
    simp only [Point.toReg, PointReg.below, BitVec.toNat_ofNat, Nat.mod_eq_of_lt (lt_of_lt_of_le hx hp),
      Nat.mod_eq_of_lt (lt_of_lt_of_le hy hp), Bool.and_eq_true, decide_eq_true_eq]
    exact ⟨hx, hy⟩

/-- A point register holds coordinates below p (R22). -/
theorem below_of_pt {s : State} {r : Reg} {q : Point} (hs : PointsOk s) (h : ptPoint s r = some q) :
    Below (fieldP s) q := by
  intro x y hq; subst hq
  have := (hs r).2
  unfold ptPoint at h
  cases hr : readPT s r with
  | empty => rw [hr] at h; simp [PointReg.toPoint] at h
  | inf => rw [hr] at h; simp [PointReg.toPoint] at h
  | aff x' y' =>
    rw [hr] at h this
    simp only [PointReg.toPoint, Option.some.injEq, Point.aff.injEq] at h
    simp only [PointReg.below, Bool.and_eq_true, decide_eq_true_eq] at this
    obtain ⟨rfl, rfl⟩ := h; exact this

theorem pointAdd_below {p a : Nat} (hp : p ≠ 0) {q r v : Point} (hq : Below p q) (hr : Below p r) (h :
    pointAdd p a q r = .ok v) : Below p v := by
  have hch : ∀ l x1 y1 x2, Below p (chordPoint p l x1 y1 x2) := by
    intro l x1 y1 x2 x y h
    simp only [chordPoint, Point.aff.injEq] at h
    obtain ⟨rfl, rfl⟩ := h
    exact ⟨subMod_lt _ _ (by omega), subMod_lt _ _ (by omega)⟩
  have hi : Below p .inf := by intro x y h; simp at h
  cases q with
  | inf => simp [pointAdd] at h; rwa [← h]
  | aff x1 y1 =>
    cases r with
    | inf => simp [pointAdd] at h; rwa [← h]
    | aff x2 y2 =>
      simp only [pointAdd] at h
      split at h
      · split at h
        · simp at h
        · simp only [Except.ok.injEq] at h; rw [← h]; exact hch _ _ _ _
      · split at h
        · simp at h; rw [← h]; exact hi
        · split at h
          · simp at h; rw [← h]; exact hi
          · split at h
            · simp at h
            · simp only [Except.ok.injEq] at h; rw [← h]; exact hch _ _ _ _

theorem scalarMul_below {p a : Nat} (h3 : 3 ≤ p) {q : Point} (hq : ∀ x y, q = .aff x y → x < p ∧ y < p) {k :
    Nat} {v : Point} (h : scalarMul p a q k = .ok v) :
   ∀ x y, v = .aff x y → x < p ∧ y < p := by
  have hch : ∀ l x1 y1 x2 x y, chordPoint p l x1 y1 x2 = .aff x y → x < p ∧ y < p := by
    intro l x1 y1 x2 x y h
    simp only [chordPoint, Point.aff.injEq] at h
    obtain ⟨rfl, rfl⟩ := h
    exact ⟨subMod_lt _ _ (by omega), subMod_lt _ _ (by omega)⟩
  have hadd : ∀ q r v, (∀ x y, q = .aff x y → x < p ∧ y < p) → (∀ x y, r = .aff x y → x < p ∧ y < p) →
    pointAdd p a q r = .ok v → (∀ x y, v = .aff x y → x < p ∧ y < p) := by
    intro q r v hq hr h
    cases q with
    | inf => simp [pointAdd] at h; rwa [← h]
    | aff x1 y1 =>
      cases r with
      | inf => simp [pointAdd] at h; rwa [← h]
      | aff x2 y2 =>
        simp only [pointAdd] at h
        split at h
        · split at h
          · simp at h
          · simp only [Except.ok.injEq] at h; rw [← h]; exact hch _ _ _ _
        · split at h
          · simp at h; simp [← h]
          · split at h
            · simp at h; simp [← h]
            · split at h
              · simp at h
              · simp only [Except.ok.injEq] at h; rw [← h]; exact hch _ _ _ _
  have : ∀ i r, (∀ x y, r = .aff x y → x < p ∧ y < p) → scalarLoop p a q k i r = .ok v → ∀ x y, v = .aff x y →
    x < p ∧ y < p := by
    intro i
    induction i with
    | zero => intro r hr h; simp [scalarLoop] at h; rwa [← h]
    | succ i ih =>
      intro r hr h
      simp only [scalarLoop] at h
      split at h
      · simp at h
      · rename_i r2 e2
        have h2 := hadd _ _ _ hr hr e2
        split at h
        · split at h
          · simp at h
          · rename_i r3 e3; exact ih _ (hadd _ _ _ h2 hq e3) h
        · exact ih _ h2 h
  exact this _ _ (by simp) h

/-- Over a prime field PointAdd never fails (R157). -/
theorem pointAdd_prime {p a : Nat} (hp : p.Prime) (h3 : 3 ≤ p) {q r : Point} (hq : ∀ x y, q = .aff x y → x < p ∧
    y < p) (hr : ∀ x y, r = .aff x y → x < p ∧ y < p) :
   ∃ v, pointAdd p a q r = .ok v ∧ ∀ x y, v = .aff x y → x < p ∧ y < p := by
  have := Fact.mk hp
  have hp0 := hp.ne_zero
  cases q with
  | inf => exact ⟨r, by simp [pointAdd], hr⟩
  | aff x1 y1 =>
    obtain ⟨hx1, hy1⟩ := hq _ _ rfl
    cases r with
    | inf => exact ⟨_, rfl, hq⟩
    | aff x2 y2 =>
      obtain ⟨hx2, hy2⟩ := hr _ _ rfl
      have hch : ∀ l x1 y1 x2 x y, chordPoint p l x1 y1 x2 = .aff x y → x < p ∧ y < p := by
        intro l x1 y1 x2 x y h
        simp only [chordPoint, Point.aff.injEq] at h
        obtain ⟨rfl, rfl⟩ := h
        exact ⟨subMod_lt _ _ hp0, subMod_lt _ _ hp0⟩
      by_cases hx : x1 = x2
      · by_cases hy : y1 = y2
        · by_cases hy0 : y1 = 0
          · exact ⟨.inf, by subst hx hy hy0; simp [pointAdd], by simp⟩
          · obtain ⟨d, hd, _⟩ := inverse_prime (p := p) (v := 2 * y1) (by
              push_cast
              exact mul_ne_zero (two_cast_ne_zero h3) (by simpa using (cast_eq_iff hy1 (by omega : 0 < p)).not.mpr hy0))
            exact ⟨chordPoint p ((3 * x1 * x1 + a) * d % p) x1 y1 x1, by subst hx hy; simp [pointAdd, hy0, hd],
              hch _ _ _ _⟩
        · exact ⟨.inf, by subst hx; simp [pointAdd, hy], by simp⟩
      · obtain ⟨d, hd, _⟩ := inverse_prime (p := p) (v := subMod x2 x1 p) (by
          rw [cast_subMod hp0]; exact sub_ne_zero.mpr (Ne.symm ((cast_eq_iff hx1 hx2).not.mpr hx)))
        exact ⟨chordPoint p (subMod y2 y1 p * d % p) x1 y1 x2, by simp [pointAdd, hx, hd], hch _ _ _ _⟩

theorem scalarLoop_prime {p a : Nat} (hp : p.Prime) (h3 : 3 ≤ p) {q : Point} (hq : ∀ x y, q = .aff x y → x < p ∧
    y < p) (k i : Nat) :
   ∀ r : Point, (∀ x y, r = .aff x y → x < p ∧ y < p) → ∃ v, scalarLoop p a q k i r = .ok v ∧ ∀ x y, v = .aff x y →
     x < p ∧ y < p := by
  induction i with
  | zero => intro r hr; exact ⟨r, rfl, hr⟩
  | succ i ih =>
    intro r hr
    obtain ⟨r2, e2, h2⟩ := pointAdd_prime (a := a) hp h3 hr hr
    simp only [scalarLoop, e2]
    split
    · obtain ⟨r3, e3, h3'⟩ := pointAdd_prime (a := a) hp h3 h2 hq
      simp only [e3]; exact ih r3 h3'
    · exact ih r2 h2

theorem scalarMul_prime {p a : Nat} (hp : p.Prime) (h3 : 3 ≤ p) {q : Point} (hq : ∀ x y, q = .aff x y → x < p ∧
    y < p) (k : Nat) :
   ∃ v, scalarMul p a q k = .ok v ∧ ∀ x y, v = .aff x y → x < p ∧ y < p := scalarLoop_prime hp h3 hq k _ .inf (by simp)

theorem scalarLoop_add (p a : Nat) (q : Point) (k n m : Nat) (r : Point) :
    scalarLoop p a q k (n + m) r = match scalarLoop p a q
      (k / 2 ^ m) n r with | .ok v => scalarLoop p a q k m v | .error c => .error c := by
  induction n generalizing r with
  | zero => simp [scalarLoop]
  | succ n ih =>
    rw [show n + 1 + m = (n + m) + 1 by omega, scalarLoop, scalarLoop]
    have hb : k.testBit (n + m) = (k / 2 ^ m).testBit n := by
      rw [Nat.testBit_div_two_pow, Nat.add_comm]
    cases pointAdd p a r r with
    | error c => rfl
    | ok r2 =>
      simp only [hb]
      split
      · cases pointAdd p a r2 q with
        | error c => rfl
        | ok r3 => exact ih r3
      · exact ih r2

theorem bitlen_double (k : Nat) (b : Nat) (hb : b < 2) (h : 2 * k + b ≠ 0) : bitlen (2 * k + b) = bitlen k + 1 := by
  unfold bitlen
  rw [if_neg h]
  split
  · rename_i hk; subst hk
    interval_cases b
    · simp at h
    · rfl
  · rename_i hk
    rw [Nat.log2_def, if_pos (by omega), show (2 * k + b) / 2 = k by omega]

/-- One more bit of the scalar (R158). -/
theorem scalarMul_succ (p a : Nat) (q : Point) (k b : Nat) (hb : b < 2) (h : 2 * k + b ≠ 0) :
   scalarMul p a q (2 * k + b) = match scalarMul p a q k with
     | .error c => .error c
     | .ok r => match pointAdd p a r r with
       | .error c => .error c
       | .ok r2 => if b = 1 then pointAdd p a r2 q else .ok r2 := by
  rw [scalarMul, bitlen_double k b hb h, scalarLoop_add, pow_one, show (2 * k + b) / 2 = k by omega, ← scalarMul]
  cases scalarMul p a q k with
  | error c => rfl
  | ok r =>
    simp only [scalarLoop]
    have : (2 * k + b).testBit 0 = decide (b = 1) := by
      rw [Nat.testBit_zero]; congr 1; simp; omega
    rw [this]
    cases pointAdd p a r r with
    | error c => rfl
    | ok r2 =>
      simp only [decide_eq_true_eq]
      split
      · cases pointAdd p a r2 q <;> rfl
      · rfl

/-- `bitlen` is the size of R11. -/
theorem bitlen_eq_size (v : Nat) : bitlen v = Nat.size v := by
  apply le_antisymm
  · exact bitlen_le (Nat.lt_size_self v)
  · exact Nat.size_le.mpr (lt_two_pow_bitlen v)


/-- Decode raises EDECODE, ENONRESIDUE or ESQRT (R185). -/
theorem decode_error {p a b pl : Nat} {bytes : List Byte} {c : Cause} (h : decodePoint p a b pl bytes = .error c) :
    c = .edecode ∨ c = .enonresidue ∨ c = .esqrt := by
  unfold decodePoint at h
  simp only [] at h
  split at h
  · simp at h
  · split at h
    · unfold decodeCompressed at h
      split at h
      · simp_all
      · split at h
        · rename_i hh; have := sqrt_error hh; simp_all
        · split at h
          · rename_i hh; unfold parityRoot at hh; split at hh
            · simp at hh
            · split at hh <;> simp_all
          · simp at h
    · split at h
      · unfold decodeUncompressed at h; split at h <;> simp_all
      · simp_all

theorem decode_below {p a b pl : Nat} (hp : 3 ≤ p) {bytes : List Byte} {q : Point} (h : decodePoint p a b pl bytes =
    .ok q) : Below p q := by
  unfold decodePoint at h
  simp only [] at h
  split at h
  · simp at h; subst h; intro x y h; simp at h
  · split at h
    · unfold decodeCompressed at h
      split at h
      · simp_all
      · rename_i hx
        split at h
        · simp at h
        · rename_i root hr
          have hrt := squareRoot_lt hp ((squareRoot_iff hp).mpr hr)
          split at h
          · simp at h
          · rename_i y hh; unfold parityRoot at hh
            simp at h; subst h
            intro x' y' he; simp at he; obtain ⟨rfl, rfl⟩ := he
            refine ⟨by omega, ?_⟩
            split at hh
            · simp at hh; omega
            · split at hh
              · simp at hh
              · simp at hh; omega
    · split at h
      · unfold decodeUncompressed at h; split at h
        · simp at h
        · rename_i hn; simp only [Except.ok.injEq] at h; subst h; intro x' y' he; simp only
            [Point.aff.injEq] at he; obtain ⟨rfl, rfl⟩ :=
            he; rw [not_or] at hn; exact ⟨Nat.lt_of_not_le hn.1, Nat.lt_of_not_le hn.2⟩
      · simp_all

end Sys2Proof.Machine
end

