-- ==== Sys2Proof/Tests/Slice0.lean ====
section
/-! SUPPORT. The model's own tests. Expected values come from the spec's encodings and from the vectors of
95_test_vectors.md and of R92, R190, R202, R215, R234; the curve is its TOY97 (p = 97, a = 1, b = 4, G = AFF(0, 2),
n = 89). The last part shows, for each statement with hypotheses, values that meet them (`test_witness_…`). -/

namespace Sys2Proof.Machine

set_option Elab.async false

/-! ## Which terms have an encoding -/

/-- LDN with byte counts 0 and 33 has no encoding (R85). -/
theorem test_illformed_ldn :
    (Instr.ldn 1 0 0x100).wellFormed = false ∧ (Instr.ldn 1 33 0x100).wellFormed = false := by decide

/-- STN with byte counts 0 and 33 has no encoding (R85). -/
theorem test_illformed_stn :
    (Instr.stn 1 0 0x100).wellFormed = false ∧ (Instr.stn 1 33 0x100).wellFormed = false := by decide

/-- PDEC with byte counts 0 and 66 has no encoding (R85). -/
theorem test_illformed_pdec :
    (Instr.pdec 0 0 0x200).wellFormed = false ∧ (Instr.pdec 0 66 0x200).wellFormed = false := by decide

/-! ## Decoding: words from the spec, or written out from its format (R77 to R80, R87) -/

theorem test_decode_data_movement :
    decode 0x00000000 = .ok .nop ∧ decode 0x04400061 = .ok (.ldi 1 97) ∧ decode 0x07FFFFFF = .ok (.ldi 15 0x3FFFFF) ∧
    decode 0x08840000 = .ok (.movx 2 1) ∧ decode 0x0C048000 = .ok (.cmpx 1 2) ∧
    decode 0x10410100 = .ok (.ldn 1 2 0x100) ∧ decode 0x10500FE0 = .ok (.ldn 1 32 0xFE0) ∧
    decode 0x14420FFE = .ok (.stn 1 4 0xFFE) ∧ decode 0x14018010 = .ok (.stn 0 3 0x010) := by decide

/-- MODSUB, MODNEG and MODRED are written out bit by bit: opcode, rd, rs1, rs2, rs3, msel, neg, low. -/
theorem test_decode_modular :
    decode 0x18040000 = .ok (.setm 1) ∧ decode 0x20C48000 = .ok (.modadd 3 1 2 .p) ∧
    decode 0b001001_0011_0001_0010_0000_01_0_0000000 = .ok (.modsub 3 1 2 .n) ∧
    decode 0b001010_0100_0101_0000_0000_10_0_0000000 = .ok (.modneg 4 5 .m) ∧
    decode 0b001011_0100_0101_0000_0000_00_0_0000000 = .ok (.modred 4 5 .p) ∧
    decode 0x30C48000 = .ok (.modmul 3 1 2 .p) := by decide

theorem test_decode_montgomery :
    decode 0x35914200 = .ok (.montmul 6 4 5 .m) ∧ decode 0x39C18200 = .ok (.montred 7 0 6 .m) ∧
    decode 0x3D080200 = .ok (.tomont 4 2 .m) ∧ decode 0x42000200 = .ok (.modinv 8 0 .m) ∧
    decode 0x46080200 = .ok (.modsqrt 8 2 .m) := by decide

theorem test_decode_domain :
    decode 0x60048C00 = .ok (.domcrv 1 2 3) ∧ decode 0x64114000 = .ok (.domord 4 5) ∧
    decode 0x68000000 = .ok (.domgen 0) := by decide

theorem test_decode_points :
    decode 0x80C00000 = .ok (.pinf 3) ∧ decode 0x84400000 = .ok (.pgen 1) ∧ decode 0x88848000 = .ok (.pset 2 1 2) ∧
    decode 0x8D040000 = .ok (.pgetx 4 1) ∧ decode 0x91440000 = .ok (.pgety 5 1) ∧ decode 0x94800000 = .ok (.pmov 2 0) ∧
    decode 0x98048000 = .ok (.peq 1 2) ∧ decode 0x9C0C0000 = .ok (.pisinf 3) ∧
    decode 0xA0804000 = .ok (.padd 2 0 1) ∧ decode 0xA4400000 = .ok (.pdbl 1 0) ∧ decode 0xA8800000 = .ok (.pneg 2 0) ∧
    decode 0xAC414000 = .ok (.pmul 1 0 5 false) ∧ decode 0xAC414080 = .ok (.pmul 1 0 5 true) ∧
    decode 0xB0108080 = .ok (.pdec 0 33 0x080) ∧ decode 0xB4400300 = .ok (.penc 1 0x300) := by decide

theorem test_decode_hash_and_ecdsa :
    decode 0xC0000100 = .ok (.hinit 256) ∧ decode 0xC4400000 = .ok (.hupd 1 0) ∧ decode 0xC8000FE0 = .ok (.hfin 0xFE0) ∧
    decode 0xCD800000 = .ok (.htoe 6) ∧ decode 0xE059E000 = .ok (.ecdsav 1 6 7 8) := by decide

/-- The illegal words of 95_test_vectors.md section 3.1. -/
theorem test_decode_illegal :
    decode 0x00000001 = .error .nonzeroField ∧ decode 0x1C000000 = .error .unassignedOpcode ∧
    decode 0xFC000000 = .error .unassignedOpcode ∧ decode 0x20C48300 = .error .modulusSelector ∧
    decode 0x10400100 = .error .byteCount ∧ decode 0x10508100 = .error .byteCount ∧
    decode 0x10411000 = .error .nonzeroField ∧ decode 0xB0210000 = .error .byteCount ∧
    decode 0xB4408100 = .error .byteCount ∧ decode 0xC8400100 = .error .nonzeroField ∧
    decode 0xC0400100 = .error .nonzeroField ∧ decode 0x08484000 = .error .nonzeroField ∧
    decode 0xA048C080 = .error .nonzeroField := by decide

/-- No two rows of the opcode table have a word in common: they differ where both masks look. -/
theorem test_table_rows_disjoint :
    opcodeTable.Pairwise fun a b => a.mask &&& b.mask &&& (a.pattern ^^^ b.pattern) ≠ 0 := by decide +kernel

/-- The encoder writes the words the spec prints. -/
theorem test_encode :
    encode (.pmul 1 0 5 true) = 0xAC414080 ∧ encode (.pdec 0 33 0x080) = 0xB0108080 ∧
    encode (.modsqrt 8 2 .m) = 0x46080200 ∧ encode (.ecdsav 1 6 7 8) = 0xE059E000 := by decide

/-! ## One step of each instruction -/

/-- A value of the next state. -/
def out {α : Type} (r : Result) (f : State → α) : Option α :=
  match r with
  | .next t => some (f t)
  | _ => none

/-- The error registers and CMDIDX after the step. -/
def errorOf (t : State) : Bool × Byte × Word := (t.errs.err, t.errs.cause, t.cmdidx)

def withX (s : State) (vals : List (Reg × Nat)) : State := vals.foldl (fun s v => writeXNat s v.1 v.2) s

def withPT (s : State) (vals : List (Reg × PointReg)) : State := vals.foldl (fun s v => writePT s v.1 v.2) s

/-- TOY97 with its order and base point, M = 97, and points: PT0 = G, PT1 = 2·G, PT2 = −G, PT3 = INF, PT4 = 7·G,
PT5 and PT6 off the curve; the others EMPTY. X6, X7, X8 are the signature of R234. The SPM holds octet strings of R190,
each at a multiple of 16 from 0x200 on. -/
def toy : State :=
  withX
    (withPT
      { State.reset with
        dom := { dp := 97, da := 1, db := 4, dn := 89, dh := 1, dg := .aff 0 2, crv := true, ord := true, gen := true }
        gmod := { m := 97, mv := true }
        spm :=
          [(0x200, 0x00), (0x210, 0x02), (0x211, 0x61), (0x220, 0x02), (0x221, 0x02), (0x230, 0x02), (0x231, 0x00),
            (0x240, 0x03), (0x241, 0x00), (0x250, 0x04), (0x251, 0x00), (0x252, 0x02), (0x260, 0x04), (0x261, 0x61),
            (0x262, 0x00), (0x270, 0x05), (0x271, 0x00), (0x280, 0x03), (0x281, 0x01)] }
      [(0, .aff 0 2), (1, .aff 91 48), (2, .aff 0 95), (3, .inf), (4, .aff 6 41), (5, .aff 1 1), (6, .aff 5 0)])
    [(1, 5), (2, 97), (3, 4), (4, 96), (5, 1), (6, 47), (7, 29), (8, 25), (9, 255), (10, 256), (11, 2 ^ 256 - 1),
      (12, 12), (13, 7), (14, 32768), (15, 3)]

/-- The point in PT[r] after the step. -/
def pointOf (r : Reg) (t : State) : PointReg := readPT t r

theorem test_nop : out (exec .nop State.reset) (fun t => (t.cmdidx, t.errs.err)) = some (1, false) := by decide +kernel

theorem test_ldi : out (exec (.ldi 1 97) State.reset) (fun t => xNat t 1) = some 97 := by decide +kernel

theorem test_ldi_x0 : out (exec (.ldi 0 5) State.reset) (fun t => (xNat t 0, t.cmdidx)) = some (0, 1) := by
  decide +kernel

theorem test_movx : out (exec (.movx 2 1) (withX State.reset [(1, 5)])) (fun t => (xNat t 2, xNat t 1)) = some (5, 5) := by
  decide +kernel

theorem test_movx_x0 : out (exec (.movx 1 0) (withX State.reset [(1, 5)])) (fun t => xNat t 1) = some 0 := by
  decide +kernel

theorem test_cmpx : out (exec (.cmpx 1 2) (withX State.reset [(1, 7), (2, 7)])) (·.f) = some true := by decide +kernel

theorem test_cmpx_top_bit : out (exec (.cmpx 1 2) (withX State.reset [(1, 7), (2, 7 + 2 ^ 255)])) (·.f) = some false := by
  decide +kernel

theorem test_ldn : out (exec (.ldn 1 2 0x100) (memWrite State.reset 0x100 [1, 2])) (fun t => xNat t 1) = some 258 := by
  decide +kernel

theorem test_ldn_bounds :
    out (exec (.ldn 1 32 0xFF0) (withX State.reset [(1, 5)])) (fun t => (errorOf t, xNat t 1)) =
      some ((true, 2, 0), 5) := by
  decide +kernel

theorem test_stn :
    out (exec (.stn 1 8 0x000) (withX State.reset [(1, 0x11223344)])) (fun t => memRead t 0 8) =
      some [0, 0, 0, 0, 0x11, 0x22, 0x33, 0x44] := by
  decide +kernel

/-- ERANGE for a value of more than two bytes; EBOUNDS comes before it. -/
theorem test_stn_faults :
    out (exec (.stn 1 2 0x000) (withX State.reset [(1, 0x11223344)])) (fun t => (errorOf t, t.spm)) =
      some ((true, 3, 0), []) ∧
    out (exec (.stn 1 2 0xFFF) (withX State.reset [(1, 0x11223344)])) errorOf = some (true, 2, 0) := by
  decide +kernel

theorem test_setm : out (exec (.setm 1) (withX State.reset [(1, 97)])) (·.gmod) = some { m := 97, mv := true } := by
  decide +kernel

theorem test_setm_even : out (exec (.setm 1) (withX State.reset [(1, 96)])) errorOf = some (true, 5, 0) := by
  decide +kernel

/-- The last row of the table of 95_test_vectors.md section 3.3: both operands 2^256 − 1, m = 97. -/
def toyMax : State := withX toy [(1, 2 ^ 256 - 1), (2, 2 ^ 256 - 1)]

theorem test_modadd : out (exec (.modadd 3 1 2 .p) toyMax) (fun t => xNat t 3) = some 23 := by decide +kernel

theorem test_modadd_unset : out (exec (.modadd 3 1 2 .p) State.reset) errorOf = some (true, 4, 0) := by decide +kernel

theorem test_modsub : out (exec (.modsub 3 1 2 .m) (withX toy [(1, 5), (2, 7)])) (fun t => xNat t 3) = some 95 := by
  decide +kernel

theorem test_modneg : out (exec (.modneg 1 1 .m) toyMax) (fun t => xNat t 1) = some 37 := by decide +kernel

theorem test_modred : out (exec (.modred 3 1 .m) toyMax) (fun t => xNat t 3) = some 60 := by decide +kernel

theorem test_modred_order : out (exec (.modred 3 1 .n) (withX toy [(1, 91)])) (fun t => xNat t 3) = some 2 := by
  decide +kernel

theorem test_modmul : out (exec (.modmul 3 1 2 .m) toyMax) (fun t => xNat t 3) = some 11 := by decide +kernel

theorem test_montmul : out (exec (.montmul 3 1 2 .m) toyMax) (fun t => xNat t 3) = some 94 := by decide +kernel

/-- X[rs1] is the high half. -/
theorem test_montred :
    out (exec (.montred 3 1 0 .m) (withX toy [(1, 1)])) (fun t => xNat t 3) = some 1 ∧
    out (exec (.montred 3 0 1 .m) (withX toy [(1, 1)])) (fun t => xNat t 3) = some 35 := by
  decide +kernel

theorem test_tomont : out (exec (.tomont 3 1 .m) toyMax) (fun t => xNat t 3) = some 71 := by decide +kernel

theorem test_modinv : out (exec (.modinv 3 1 .m) (withX toy [(1, 5)])) (fun t => xNat t 3) = some 39 := by decide +kernel

theorem test_modinv_none : out (exec (.modinv 3 1 .m) (withX toy [(1, 97)])) errorOf = some (true, 7, 0) := by
  decide +kernel

theorem test_modsqrt :
    out (exec (.modsqrt 3 1 .m) (withX toy [(1, 101)])) (fun t => xNat t 3) = some 95 ∧
    out (exec (.modsqrt 3 1 .m) (withX toy [(1, 5)])) errorOf = some (true, 8, 0) := by
  decide +kernel

/-- Modulo the composite 9 no non-residue is found. -/
theorem test_modsqrt_composite :
    out (exec (.modsqrt 3 1 .m) (withX { State.reset with gmod := { m := 9, mv := true } } [(1, 1)])) errorOf =
      some (true, 9, 0) := by
  decide +kernel

theorem test_domcrv :
    out (exec (.domcrv 1 2 3) (withX toy [(1, 97), (2, 98), (3, 101)]))
      (fun t => (t.dom, readPT t 0)) =
      some ({ dp := 97, da := 1, db := 4, dn := 0, dh := 0, dg := .empty, crv := true, ord := false, gen := false },
        .empty) := by
  decide +kernel

theorem test_domcrv_faults :
    out (exec (.domcrv 1 2 3) (withX State.reset [(1, 97)])) errorOf = some (true, 6, 0) ∧
    out (exec (.domcrv 1 2 3) (withX State.reset [(1, 98)])) errorOf = some (true, 5, 0) := by
  decide +kernel

theorem test_domord :
    out (exec (.domord 4 5) (withX toy [(4, 91), (5, 3)])) (fun t => (t.dom.dn, t.dom.dh, t.dom.ord)) =
      some (91, 3, true) := by
  decide +kernel

theorem test_domord_unset : out (exec (.domord 4 5) State.reset) errorOf = some (true, 4, 0) := by decide +kernel

theorem test_domgen :
    out (exec (.domgen 3) toy) (fun t => (t.dom.dg, t.dom.gen)) = some (.inf, true) ∧
    out (exec (.domgen 9) toy) errorOf = some (true, 10, 0) := by
  decide +kernel

theorem test_pinf : out (exec (.pinf 9) toy) (pointOf 9) = some .inf := by decide +kernel

theorem test_pgen :
    out (exec (.pgen 9) toy) (pointOf 9) = some (.aff 0 2) ∧
    out (exec (.pgen 9) { toy with dom := { toy.dom with dg := .empty, gen := false } }) errorOf =
      some (true, 4, 0) := by
  decide +kernel

theorem test_pset :
    out (exec (.pset 9 0 0) toy) (pointOf 9) = some (.aff 0 0) ∧
    out (exec (.pset 9 1 2) (withX toy [(2, 97)])) errorOf = some (true, 3, 0) := by
  decide +kernel

theorem test_pgetx :
    out (exec (.pgetx 4 1) toy) (fun t => (xNat t 4, t.f)) = some (91, false) ∧
    out (exec (.pgetx 4 3) (withX toy [(4, 9)])) (fun t => (xNat t 4, t.f)) = some (0, true) := by
  decide +kernel

theorem test_pgety : out (exec (.pgety 5 1) toy) (fun t => (xNat t 5, t.f)) = some (48, false) := by decide +kernel

theorem test_pmov : out (exec (.pmov 9 1) toy) (pointOf 9) = some (.aff 91 48) := by decide +kernel

theorem test_peq :
    out (exec (.peq 0 2) toy) (·.f) = some false ∧ out (exec (.peq 3 3) toy) (·.f) = some true := by decide +kernel

theorem test_pisinf :
    out (exec (.pisinf 3) toy) (·.f) = some true ∧ out (exec (.pisinf 0) toy) (·.f) = some false := by decide +kernel

theorem test_padd :
    out (exec (.padd 9 0 1) toy) (pointOf 9) = some (.aff 54 24) ∧ out (exec (.padd 9 0 2) toy) (pointOf 9) = some .inf := by
  decide +kernel

theorem test_padd_same_register :
    out (exec (.padd 0 0 0) toy) (pointOf 0) = some (.aff 91 48) ∧
    out (exec (.padd 1 9 3) toy) errorOf = some (true, 10, 0) := by
  decide +kernel

theorem test_pdbl : out (exec (.pdbl 9 0) toy) (pointOf 9) = some (.aff 91 48) := by decide +kernel

theorem test_pneg :
    out (exec (.pneg 9 0) toy) (pointOf 9) = some (.aff 0 95) ∧ out (exec (.pneg 9 3) toy) (pointOf 9) = some .inf := by
  decide +kernel

/-- 2^256 − 1 ≡ 7 modulo 89, and the scalar is not reduced first. -/
theorem test_pmul : out (exec (.pmul 1 0 5 false) (withX toy [(5, 2 ^ 256 - 1)])) (pointOf 1) = some (.aff 6 41) := by
  decide +kernel

theorem test_pmul_neg : out (exec (.pmul 1 0 5 true) (withX toy [(5, 7)])) (pointOf 1) = some (.aff 6 56) := by
  decide +kernel

theorem test_pdec :
    out (exec (.pdec 9 2 0x200) (memWrite toy 0x200 [3, 0x5B])) (pointOf 9) = some (.aff 91 49) ∧
    out (exec (.pdec 9 3 0x200) (memWrite toy 0x200 [4, 1, 1])) (pointOf 9) = some (.aff 1 1) := by
  decide +kernel

theorem test_pdec_faults :
    out (exec (.pdec 9 2 0x200) (memWrite toy 0x200 [2, 2])) errorOf = some (true, 8, 0) ∧
    out (exec (.pdec 9 2 0x200) (memWrite toy 0x200 [2, 0x61])) errorOf = some (true, 11, 0) := by
  decide +kernel

theorem test_penc :
    out (exec (.penc 1 0xFFE) toy) (fun t => memRead t 0xFFE 2) = some [2, 0x5B] ∧
    out (exec (.penc 3 0xFFF) toy) (fun t => memRead t 0xFFF 1) = some [0] := by
  decide +kernel

theorem test_penc_bounds : out (exec (.penc 1 0xFFF) toy) errorOf = some (true, 2, 0) := by decide +kernel

theorem test_hinit_length :
    out (exec (.hinit 0) State.reset) errorOf = some (true, 13, 0) ∧
    out (exec (.hinit 257) State.reset) errorOf = some (true, 13, 0) := by
  decide +kernel

/-- R202: the fixed initial value for L = 256, from the rule for every length (R201). -/
theorem test_hinit_iv256 :
    iv 256 =
      #v[0x46a10f1f, 0xfddce486, 0xb41443a8, 0x198e6b9d, 0x3304388d, 0xb0f5a3c7, 0xb36061c4, 0x7adbd553,
        0x105d5378, 0x2f74de54, 0x5c2f2d95, 0xf2553fbe, 0x8051357a, 0x138668c8, 0x47aa4484, 0xe01afb41] := by
  decide +kernel

/-- R202: the fixed initial value for L = 224. -/
theorem test_hinit_iv224 :
    iv 224 =
      #v[0x068608d3, 0x62d8f7a7, 0xd76652ab, 0x4c600a43, 0xbdc40aa8, 0x1eca0b68, 0xda1a89be, 0x3147d354,
        0x707eb4f9, 0xf65b3862, 0x6b0b2abe, 0x56b8ec0a, 0xcf237286, 0xee0d1727, 0x33636595, 0x8bb8d05f] := by
  decide +kernel

/-- A digest in progress with the initial value of R202 written out. -/
def started (phase : HashPhase) : State :=
  { State.reset with
    hash :=
      { phase := phase
        cv := #v[0x46a10f1f, 0xfddce486, 0xb41443a8, 0x198e6b9d, 0x3304388d, 0xb0f5a3c7, 0xb36061c4, 0x7adbd553,
          0x105d5378, 0x2f74de54, 0x5c2f2d95, 0xf2553fbe, 0x8051357a, 0x138668c8, 0x47aa4484, 0xe01afb41]
        buf := Vector.replicate 128 0
        bpos := 0
        rb := 0
        hl := 256 } }

/-- 20 bits of "abc": two bytes and the four high bits of the third. -/
theorem test_hupd :
    out (exec (.hupd 1 0) (memWrite (withX (started .absorb) [(1, 20)]) 0 [0x61, 0x62, 0x63]))
      (fun t => (t.hash.bpos.val, t.hash.rb.val, t.hash.buf[1], t.hash.buf[2], t.hash.phase)) =
      some (2, 4, 0x62, 0x60, .finalbits) := by
  decide +kernel

theorem test_hupd_faults :
    out (exec (.hupd 1 0) State.reset) errorOf = some (true, 12, 0) ∧
    out (exec (.hupd 1 0) (withX (started .absorb) [(1, 32776)])) errorOf = some (true, 2, 0) := by
  decide +kernel

/-- The first bytes of the digest of the empty message (R215), and the end of the digest. -/
theorem test_hfin :
    out (exec (.hfin 0xFE0) (started .absorb))
      (fun t => (memRead t 0xFE0 4, t.digest.hdlen.val, t.digest.hdv, t.hash.phase)) =
      some ([0xf3, 0xcd, 0x41, 0x6a], 256, true, .idle) := by
  decide +kernel

theorem test_hfin_faults :
    out (exec (.hfin 0) State.reset) errorOf = some (true, 12, 0) ∧
    out (exec (.hfin 0xFF0) (started .absorb)) (fun t => (errorOf t, t.hash.phase)) =
      some ((true, 2, 0), .absorb) := by
  decide +kernel

/-- The digest registers after the 1-byte digest of "abc" (R215). -/
def digest8 : State :=
  { toy with digest := { hd := (Vector.replicate 32 0).set 0 0x5b, hdlen := 8, hdv := true } }

/-- 8 bits of digest for a 7-bit order: 0x5b >> 1. -/
theorem test_htoe : out (exec (.htoe 6) digest8) (fun t => xNat t 6) = some 45 := by decide +kernel

theorem test_htoe_faults :
    out (exec (.htoe 6) { digest8 with dom := State.reset.dom }) errorOf = some (true, 4, 0) ∧
    out (exec (.htoe 6) toy) errorOf = some (true, 12, 0) := by
  decide +kernel

theorem test_ecdsav :
    out (exec (.ecdsav 4 6 7 8) toy) (·.f) = some true ∧
    out (exec (.ecdsav 4 6 7 8) (withX toy [(6, 48)])) (·.f) = some false := by
  decide +kernel

/-- A range failure is a rejected signature; a key that is EMPTY is a fault. -/
theorem test_ecdsav_range :
    out (exec (.ecdsav 4 6 7 8) (withX toy [(7, 89)])) (fun t => (t.f, t.errs.err)) = some (false, false) ∧
    out (exec (.ecdsav 9 6 7 8) toy) errorOf = some (true, 10, 0) := by
  decide +kernel

/-! ## The machine -/

/-- A state whose inputs are these accesses, one after the other. -/
def withInputs (s : State) (inputs : List Input) : State := setInputs s inputs

/-- The host writes NOP to CMD; the word is queued and BUSY is 1. -/
theorem test_cmd_write :
    out (step (withInputs State.reset [.bus { master := 0, access := .write 0x018 .word 0x04400061 }]))
      (fun t => (t.queue, busy t)) = some ([0x04400061], true) := by
  decide +kernel

/-- An illegal word faults: ERRCMD is the word, the rest of the queue is flushed, ERRP is set (R240, R244). -/
theorem test_illegal_word :
    out (step { State.reset with queue := [0xFC000000, 0x04400061], cmdidx := 5 })
      (fun t => (t.errs, t.queue, t.cmdidx, t.irqStatus)) =
      some ({ err := true, cause := 1, cmd := 0xFC000000, idx := 5 }, [], 5, { done := false, err := true }) := by
  decide +kernel

/-- A soft reset leaves the SPM and clears the rest (R276). -/
theorem test_soft_reset :
    out (step (withInputs (memWrite toy 0x10 [0xAB]) [.bus { master := 0, access := .write 0x008 .word 1 }]))
      (fun t => (t.dom.crv, readPT t 0, readByte t 0x10)) = some (false, .empty, 0xAB) := by
  decide +kernel

/-- Retiring with an empty queue sets DONE (R250). -/
theorem test_done :
    out (step (State.reset.withFetchWord 32 0x04400061)) (fun t => (t.irqStatus.done, t.cmdidx, xNat t 1)) =
      some (true, 1, 97) := by
  decide +kernel

/-! ## Witnesses: each statement with hypotheses has values that meet them, clause by clause -/

/-- A composite "curve": p = 15, a = b = 1, n = 7; PT0 = (0, 5), whose double needs the inverse of 10. -/
def composite : State :=
  { toy with
    dom := { dp := 15, da := 1, db := 1, dn := 7, dh := 1, dg := .aff 0 5, crv := true, ord := true, gen := true }
    gmod := { m := 9, mv := true }
    pt := (Vector.replicate 16 .empty).set 0 (.aff 0 5) |>.set 1 (.aff 3 1) }

/-- The curve TOY97B (p = 97, a = 0, b = 96), with M = 103 and the order 91 = 7 · 13. -/
def toyB : State :=
  { toy with
    dom := { dp := 97, da := 0, db := 96, dn := 91, dh := 1, dg := .aff 1 0, crv := true, ord := true, gen := true }
    gmod := { m := 103, mv := true } }

/-- A state with the parts of `toy` that the invariant speaks of, but for the domain and the modulus. -/
theorem ok_of_toy {s : State} (hd : DomainOk s.dom) (hg : GenModOk s.gmod) (hp : PointsOk s) (hh : s.hash = idleHash)
    (hdig : s.digest = toy.digest) (hq : s.queue = []) (he : s.errs = toy.errs) (hm : s.spm.wf = true) : StateOk s where
  domain := hd
  gmod := hg
  points := hp
  hash := by rw [hh]; exact ⟨by decide, fun _ => rfl, by decide⟩
  digest := by rw [hdig]; exact ⟨by decide +kernel, by decide +kernel⟩
  sequence := by
    refine ⟨by rw [hq]; decide, fun h => ?_⟩
    rw [he] at h; exact absurd h (by decide +kernel)
  errors := by rw [he]; exact ⟨by decide +kernel, by decide +kernel⟩
  memory := hm

theorem toy_ok : StateOk toy :=
  ok_of_toy ⟨by decide +kernel, by decide +kernel, by decide +kernel, by decide +kernel, by decide +kernel⟩
    (fun _ => by decide +kernel)
    (fun r => ⟨fun _ => rfl, by revert r; decide +kernel⟩) (by rfl) rfl rfl rfl (by decide +kernel)

theorem toyB_ok : StateOk toyB :=
  ok_of_toy ⟨by decide +kernel, by decide +kernel, by decide +kernel, by decide +kernel, by decide +kernel⟩
    (fun _ => by decide +kernel)
    (fun r => ⟨fun _ => rfl, by revert r; decide +kernel⟩) (by rfl) rfl rfl rfl (by decide +kernel)

theorem composite_ok : StateOk composite :=
  ok_of_toy ⟨by decide +kernel, by decide +kernel, by decide +kernel, by decide +kernel, by decide +kernel⟩
    (fun _ => by decide +kernel)
    (fun r => ⟨fun _ => rfl, by revert r; decide +kernel⟩) (by rfl) rfl rfl rfl (by decide +kernel)

theorem test_witness_DecodeEncodeRoundTrip :
    (Instr.ldn 1 32 0).wellFormed = true ∧ (Instr.pdec 0 65 0xFFF).wellFormed = true ∧
    (Instr.stn 15 1 0).wellFormed = true := by decide

theorem test_witness_EncodeDecodeRoundTrip : decode 0xB0108080 = .ok (.pdec 0 33 0x080) := by decide

theorem test_witness_LegalWordsAreTableRows :
    (∃ row ∈ opcodeTable, row.admits 0x10500FE0 = true) ∧ ∀ row ∈ opcodeTable, row.admits 0x10508100 = false := by
  decide +kernel

theorem test_witness_ByteCountRanges :
    (1 ≤ (1#7).toNat ∧ (1#7).toNat ≤ 32) ∧ (1 ≤ (32#7).toNat ∧ (32#7).toNat ≤ 32) ∧
    ¬(1 ≤ (0#7).toNat ∧ (0#7).toNat ≤ 32) ∧ ¬(1 ≤ (33#7).toNat ∧ (33#7).toNat ≤ 32) ∧
    (1 ≤ (65#7).toNat ∧ (65#7).toNat ≤ 65) ∧ ¬(1 ≤ (66#7).toNat ∧ (66#7).toNat ≤ 65) ∧
    ((0#7) = 0 ∧ (0 : Reg) = 0) ∧ (1#7) ≠ 0 ∧ ((0#7) ≠ 0 ∨ (1 : Reg) ≠ 0) := by decide

/-- The five situations: a queued word, a command in execution, a turn for it, a turn without one, and nothing to do. -/
theorem test_witness_StepRunsDecodedInstruction :
    let queued := { toy with queue := [0x04400061, 0x00000000] }
    let busy := { toy with inExec := some 0x04400061 }
    let turn := withInputs busy [.engineTurn]
    let turnQueued := withInputs queued [.engineTurn]
    decode 0x04400061 = .ok (.ldi 1 97) ∧
    (queued.bus.stalled = [] ∧ queued.errs.err = false ∧ queued.bus.inputs = [] ∧ queued.inExec = none ∧
      queued.queue = 0x04400061 :: [0x00000000]) ∧
    (busy.bus.stalled = [] ∧ busy.errs.err = false ∧ busy.bus.inputs = [] ∧ busy.inExec = some 0x04400061) ∧
    (turn.bus.stalled = [] ∧ turn.errs.err = false ∧ turn.bus.inputs = .engineTurn :: [] ∧
      turn.inExec = some 0x04400061) ∧
    (turnQueued.bus.stalled = [] ∧ turnQueued.errs.err = false ∧ turnQueued.bus.inputs = .engineTurn :: [] ∧
      turnQueued.inExec = none ∧ turnQueued.queue = 0x04400061 :: [0x00000000]) ∧
    (toy.bus.stalled = [] ∧ toy.bus.inputs = [] ∧ (toy.errs.err = true ∨ (toy.inExec = none ∧ toy.queue = []))) := by
  decide +kernel

theorem test_witness_StateOkKeptByStep : ∃ s t, StateOk s ∧ step s = .next t :=
  ⟨toy, toy, toy_ok, rfl⟩

theorem test_witness_FaultsArePrecise :
    ∃ t, toy.errs.err = false ∧ exec (.setm 4) toy = .next t ∧ t.errs.err = true :=
  ⟨takeFault .emodulus toy, by decide +kernel, rfl, rfl⟩

/-- One command retires, with the queue empty, and one faults. -/
theorem test_witness_RetiringIsCounted :
    (∃ t, toy.errs.err = false ∧ exec .nop toy = .next t ∧ t.errs.err = false ∧ toy.irqStatus.done = false) ∧
    ∃ t, exec (.setm 4) toy = .next t ∧ t.errs.err = true :=
  ⟨⟨retired toy, by decide +kernel, rfl, by decide +kernel, by decide +kernel⟩, takeFault .emodulus toy, rfl, rfl⟩

theorem test_witness_NopOnlyRetires : opField 0x00000001 = 0 ∧ (0x00000001 : Word) ≠ 0 := by decide

theorem test_witness_LdnLoadsBigEndian :
    (1 ≤ (1#7).toNat ∧ (1#7).toNat ≤ 32) ∧ (1 ≤ (32#7).toNat ∧ (32#7).toNat ≤ 32) ∧
    ¬(1 ≤ (0#7).toNat ∧ (0#7).toNat ≤ 32) ∧ ¬(1 ≤ (33#7).toNat ∧ (33#7).toNat ≤ 32) ∧
    (0xFE0#12).toNat + (32#7).toNat ≤ 4096 ∧ 4096 < (0xFE1#12).toNat + (32#7).toNat := by decide

/-- X9 = 255 is the largest value of one byte, X10 = 256 is too large. -/
theorem test_witness_StnStoresBigEndian :
    ((0xFFF#12).toNat + (1#7).toNat ≤ 4096 ∧ xNat toy 9 < 2 ^ (8 * (1#7).toNat)) ∧
    4096 < (0xFFF#12).toNat + (2#7).toNat ∧
    ((0xFFF#12).toNat + (1#7).toNat ≤ 4096 ∧ 2 ^ (8 * (1#7).toNat) ≤ xNat toy 10) ∧
    ¬(1 ≤ (0#7).toNat ∧ (0#7).toNat ≤ 32) ∧ ¬(1 ≤ (33#7).toNat ∧ (33#7).toNat ≤ 32) := by
  decide +kernel

theorem test_witness_LdnAfterStnLoadsTheValue :
    ∃ t, 1 ≤ (32#7).toNat ∧ (32#7).toNat ≤ 32 ∧ (0xFE0#12).toNat + (32#7).toNat ≤ 4096 ∧
      xNat toy 11 < 2 ^ (8 * (32#7).toNat) ∧ exec (.stn 11 32 0xFE0) toy = .next t := by
  have h : stnBytes 11 32 0xFE0 toy = .ok (List.replicate 32 0xFF) := by decide +kernel
  exact ⟨_, by decide, by decide, by decide, by decide +kernel, by simp only [exec, execStn, h, finishWith_ok]; rfl⟩

theorem test_witness_SetmSetsModulus :
    (xNat toy 15 = 3 ∧ xNat toy 15 % 2 = 1) ∧ (xNat toy 11 = 2 ^ 256 - 1 ∧ xNat toy 11 % 2 = 1) ∧
    xNat toy 4 % 2 = 0 ∧ xNat toy 5 < 3 ∧ xNat toy 0 < 3 := by decide +kernel

theorem selected_toy : SelectedModulus toy .p 97 ∧ SelectedModulus toy .n 89 ∧ SelectedModulus toy .m 97 :=
  ⟨⟨rfl, rfl⟩, ⟨rfl, rfl⟩, rfl, rfl⟩

theorem unselected_reset : NoModulus State.reset .p ∧ NoModulus State.reset .n ∧ NoModulus State.reset .m :=
  ⟨rfl, rfl, rfl⟩

/-- For `ModularCommand`: each selector without and with its modulus. -/
theorem test_witness_PlainModularCommands :
    (NoModulus State.reset .p ∧ NoModulus State.reset .n ∧ NoModulus State.reset .m) ∧
    StateOk toy ∧ SelectedModulus toy .p 97 ∧ SelectedModulus toy .n 89 ∧ SelectedModulus toy .m 97 :=
  ⟨unselected_reset, toy_ok, selected_toy⟩

theorem test_witness_MontgomeryCommands :
    NoModulus State.reset .m ∧ StateOk toy ∧ SelectedModulus toy .m 97 := ⟨rfl, toy_ok, selected_toy.2.2⟩

/-- The least modulus and the greatest operands; the commands inside run with the modulus of `toy`. -/
theorem test_witness_MontgomeryIdentities :
    (3 % 2 = 1 ∧ 3 ≤ 3 ∧ 3 < 2 ^ 256) ∧ (97 % 2 = 1 ∧ 3 ≤ 97 ∧ 97 < 2 ^ 256) ∧ 2 ^ 256 - 1 < 2 ^ 256 ∧
    SelectedModulus toy .m 97 := ⟨by decide, by decide, by decide, selected_toy.2.2⟩

/-- 5 has an inverse modulo 97, 97 has none. -/
theorem test_witness_ModinvFindsInverse :
    NoModulus State.reset .n ∧ StateOk toy ∧ SelectedModulus toy .m 97 ∧ Nat.gcd (xNat toy 1 % 97) 97 = 1 ∧
    Nat.gcd (xNat toy 2 % 97) 97 ≠ 1 := ⟨rfl, toy_ok, selected_toy.2.2, by decide +kernel, by decide +kernel⟩

theorem test_witness_ModulusSelection :
    NoModulus State.reset .p ∧ StateOk toy ∧ SelectedModulus toy .p 97 := ⟨rfl, toy_ok, selected_toy.1⟩

/-- No value passes the non-residue test modulo 9. -/
theorem no_nonresidue_9 (z : Nat) : ¬LeastNonResidue 9 z := by
  rintro ⟨h1, h2, h3, _⟩
  have h4 : z ≤ 8 := h2
  interval_cases z <;> exact absurd h3 (by decide)

/-- The three ends of Sqrt: 97 ≡ 0 and 5, a non-residue, modulo 97; 1 modulo 9. -/
theorem test_witness_ModsqrtFollowsTonelliShanks :
    NoModulus State.reset .m ∧ StateOk toy ∧ SelectedModulus toy .m 97 ∧ SquareRoot (xNat toy 2) 97 (.ok 0) ∧
    SquareRoot (xNat toy 1) 97 (.error .enonresidue) ∧ StateOk composite ∧ SelectedModulus composite .m 9 ∧
    SquareRoot (xNat composite 5) 9 (.error .esqrt) :=
  ⟨rfl, toy_ok, selected_toy.2.2, .zero (by decide +kernel), .nonResidue (by decide +kernel) (by decide +kernel),
    composite_ok, ⟨rfl, rfl⟩, .noWitness (by decide +kernel) (by decide +kernel) no_nonresidue_9⟩

/-- 4 is a residue modulo 97 and modulo 103 ≡ 3 (mod 4); 5 is a non-residue modulo 97. -/
theorem test_witness_ModsqrtOfPrimeResidue :
    (StateOk toy ∧ SelectedModulus toy .m 97 ∧ Nat.Prime 97 ∧ (∃ y, y ^ 2 % 97 = xNat toy 3 % 97) ∧
      ¬∃ y, y ^ 2 % 97 = xNat toy 1 % 97) ∧
    StateOk toyB ∧ SelectedModulus toyB .m 103 ∧ Nat.Prime 103 ∧ (∃ y, y ^ 2 % 103 = xNat toyB 3 % 103) ∧
    103 % 4 = 3 := by
  refine ⟨⟨toy_ok, selected_toy.2.2, by norm_num, ⟨2, by decide +kernel⟩, ?_⟩, toyB_ok, ⟨rfl, rfl⟩, by norm_num,
    ⟨2, by decide +kernel⟩, by decide⟩
  rintro ⟨y, hy⟩
  rw [Nat.pow_mod] at hy
  have none : ∀ r, r < 97 → r ^ 2 % 97 ≠ xNat toy 1 % 97 := by decide +kernel
  exact none _ (Nat.mod_lt _ (by decide)) hy

/-- p even, p below 3, a singular curve, and the least p with a curve. -/
theorem test_witness_DomcrvReplacesTheDomain :
    (xNat toy 4 % 2 = 0 ∧ xNat toy 5 < 3) ∧ (xNat toy 2 % 2 = 1 ∧ 3 ≤ xNat toy 2 ∧
      (4 * (xNat toy 0 % xNat toy 2) ^ 3 + 27 * (xNat toy 0 % xNat toy 2) ^ 2) % xNat toy 2 = 0) ∧
    (xNat toy 15 = 3 ∧ xNat toy 15 % 2 = 1 ∧
      (4 * (xNat toy 5 % xNat toy 15) ^ 3 + 27 * (xNat toy 0 % xNat toy 15) ^ 2) % xNat toy 15 ≠ 0) := by
  decide +kernel

theorem test_witness_DomordAndDomgenConfigure :
    State.reset.dom.crv = false ∧ toy.dom.crv = true ∧ xNat toy 4 % 2 = 0 ∧ xNat toy 5 < 3 ∧
    (xNat toy 15 % 2 = 1 ∧ 3 ≤ xNat toy 15) ∧ readPT toy 9 = .empty ∧ readPT toy 3 ≠ .empty := by decide +kernel

/-- X2 = p and X4 = p − 1. -/
theorem test_witness_PointLoads :
    State.reset.dom.crv = false ∧ toy.dom.crv = true ∧ toy.dom.gen = true ∧
    ({ toy with dom := { toy.dom with gen := false } } : State).dom.gen = false ∧
    (toy.dom.dp.toNat ≤ xNat toy 2 ∨ toy.dom.dp.toNat ≤ xNat toy 4) ∧
    (xNat toy 4 < toy.dom.dp.toNat ∧ xNat toy 0 < toy.dom.dp.toNat) ∧ readPT toy 9 = .empty ∧
    readPT toy 0 ≠ .empty := by decide +kernel

theorem test_witness_PointReads :
    State.reset.dom.crv = false ∧ toy.dom.crv = true ∧ readPT toy 9 = .empty ∧ readPT toy 3 = .inf ∧
    readPT toy 1 = .aff 91 48 := by decide +kernel

theorem test_witness_EmptyPointRegisterFaults :
    (toy.dom.crv = true ∧ readPT toy 9 = .empty ∧ toy.dom.ord = true ∧ toy.dom.gen = true) ∧
    ∃ t, exec (.domcrv 2 5 3) toy = .next t ∧ Retires toy t := by
  refine ⟨by decide +kernel, _, rfl, ?_⟩
  exact retires_retired rfl rfl rfl rfl rfl rfl rfl

/-- The same x with other y, y = 0 twice, a chord and a tangent with a slope, and one without (p = 15). -/
theorem test_witness_PointAdditionAndNegation :
    (State.reset.dom.crv = false ∧ readPT toy 9 = .empty) ∧ (StateOk toy ∧ toy.dom.crv = true) ∧
    (readPT toy 0 = .aff 0 2 ∧ readPT toy 2 = .aff 0 95 ∧ (2 : Big) ≠ 95) ∧ readPT toy 6 = .aff 5 0 ∧
    readPT toy 3 = .inf ∧ Int.gcd (slopeParts 1 0 2 91 48).2 97 = 1 ∧ Int.gcd (slopeParts 1 0 2 0 2).2 97 = 1 ∧
    (StateOk composite ∧ composite.dom.crv = true ∧ readPT composite 0 = .aff 0 5 ∧ readPT composite 1 = .aff 3 1) ∧
    Int.gcd (slopeParts 1 0 5 0 5).2 15 ≠ 1 ∧ Int.gcd (slopeParts 1 0 5 3 1).2 15 ≠ 1 :=
  ⟨by decide +kernel, ⟨toy_ok, by decide +kernel⟩, by decide +kernel, by decide +kernel, by decide +kernel,
    by decide +kernel, by decide +kernel, ⟨composite_ok, by decide +kernel⟩, by decide +kernel, by decide +kernel⟩

theorem test_witness_PrimeFieldPointsComplete :
    StateOk toy ∧ toy.dom.crv = true ∧ Nat.Prime toy.dom.dp.toNat ∧ readPT toy 0 ≠ .empty ∧ readPT toy 3 ≠ .empty :=
  ⟨toy_ok, by decide +kernel, (by norm_num : Nat.Prime 97), by decide +kernel, by decide +kernel⟩

theorem test_witness_PointPlusNegativeIsInfinity :
    (3 ≤ 3 ∧ 3 % 2 = 1 ∧ 2 < 3 ∧ 0 < 3) ∧ (3 ≤ 15 ∧ 15 % 2 = 1 ∧ 0 < 15 ∧ 14 < 15) := by decide

/-- A product that exists and whose double does too, and (p = 15) one whose double fails and one that fails. -/
theorem test_witness_ScalarMulDoublesAndAdds :
    (scalarMul 97 1 (.aff 0 2) 1 = .ok (.aff 0 2) ∧ pointAdd 97 1 (.aff 0 2) (.aff 0 2) = .ok (.aff 91 48)) ∧
    (scalarMul 15 1 (.aff 0 5) 1 = .ok (.aff 0 5) ∧ pointAdd 15 1 (.aff 0 5) (.aff 0 5) = .error .enoinv) ∧
    scalarMul 15 1 (.aff 0 5) 2 = .error .enoinv := by decide +kernel

theorem test_witness_PmulMultipliesByScalar :
    (State.reset.dom.crv = false ∧ readPT toy 9 = .empty) ∧
    (StateOk toy ∧ toy.dom.crv = true ∧ ptPoint toy 0 = some (.aff 0 2) ∧
      scalarMul (fieldP toy) (coeffA toy) (.aff 0 2) (xNat toy 1) = .ok (.aff 22 2) ∧ xNat toy 0 = 0 ∧ xNat toy 5 = 1) ∧
    StateOk composite ∧ composite.dom.crv = true ∧ ptPoint composite 0 = some (.aff 0 5) ∧
    scalarMul (fieldP composite) (coeffA composite) (.aff 0 5) (xNat composite 1) = .error .enoinv :=
  ⟨by decide +kernel, ⟨toy_ok, by decide +kernel⟩, composite_ok, by decide +kernel⟩

theorem primeCurve_toy : PrimeCurve 97 1 4 := ⟨by norm_num, by decide, by decide⟩

theorem test_witness_ScalarMulIsRepeatedAddition :
    PrimeCurve 97 1 4 ∧ OnCurve 97 1 4 (.aff 0 2) ∧ OnCurve 97 1 4 .inf :=
  ⟨primeCurve_toy, ⟨by decide, by decide, by decide⟩, trivial⟩

theorem test_witness_PointsFormAGroup :
    PrimeCurve 97 1 4 ∧ OnCurve 97 1 4 (.aff 0 2) ∧ OnCurve 97 1 4 (.aff 91 48) ∧ OnCurve 97 1 4 (.aff 6 41) :=
  ⟨primeCurve_toy, ⟨by decide, by decide, by decide⟩, ⟨by decide, by decide, by decide⟩, by decide, by decide, by decide⟩

/-- plen = 1. The strings at 0x200 to 0x280: INF; x = p; x without a root; prefix 2 and 3 with the root 2 or 95; both
coordinates; x = p with both; an unknown prefix. On TOY97B the root for x = 1 is 0. -/
theorem test_witness_PdecFollowsDecode :
    (¬(1 ≤ (0#7).toNat ∧ (0#7).toNat ≤ 65) ∧ ¬(1 ≤ (66#7).toNat ∧ (66#7).toNat ≤ 65)) ∧
    (State.reset.dom.crv = false ∧ toy.dom.crv = true ∧ 4096 < (0xFFF#12).toNat + (2#7).toNat) ∧
    (StateOk toy ∧ (Nat.size toy.dom.dp.toNat + 7) / 8 = 1 ∧ (readByte toy 0x200).toNat = 0) ∧
    ((readByte toy 0x210).toNat = 2 ∧ 97 ≤ bigEndian (memRead toy 0x211 1)) ∧
    ((readByte toy 0x220).toNat = 2 ∧ bigEndian (memRead toy 0x221 1) = 2 ∧
      SquareRoot ((2 ^ 3 + 1 * 2 + 4) % 97) 97 (.error .enonresidue)) ∧
    ((readByte toy 0x230).toNat = 2 ∧ bigEndian (memRead toy 0x231 1) = 0 ∧
      (readByte toy 0x240).toNat = 3 ∧ bigEndian (memRead toy 0x241 1) = 0 ∧
      ∃ root, SquareRoot ((0 ^ 3 + 1 * 0 + 4) % 97) 97 (.ok root) ∧ (root % 2 = 2 - 2 ∨ root % 2 = 3 - 2) ∧ root ≠ 0) ∧
    ((readByte toy 0x250).toNat = 4 ∧ bigEndian (memRead toy 0x251 1) < 97 ∧ bigEndian (memRead toy 0x252 1) < 97) ∧
    ((readByte toy 0x260).toNat = 4 ∧ 97 ≤ bigEndian (memRead toy 0x261 1)) ∧ (readByte toy 0x270).toNat = 5 ∧
    (StateOk toyB ∧ (readByte toyB 0x280).toNat = 3 ∧ bigEndian (memRead toyB 0x281 1) = 1 ∧
      SquareRoot ((1 ^ 3 + 0 * 1 + 96) % 97) 97 (.ok 0)) := by
  refine ⟨by decide, by decide +kernel, ⟨toy_ok, by decide +kernel⟩, by decide +kernel,
    ⟨by decide +kernel, by decide +kernel, .nonResidue (by decide) (by decide +kernel)⟩,
    ⟨by decide +kernel, by decide +kernel, by decide +kernel, by decide +kernel, 95, ?_, by decide, by decide⟩,
    by decide +kernel, by decide +kernel, by decide +kernel, toyB_ok, by decide +kernel, by decide +kernel,
    .zero (by decide)⟩
  exact (squareRoot_iff (by decide)).mpr (by decide +kernel)

/-- The last address a compressed point fits at, and the first one it does not. -/
theorem test_witness_PencStoresCompressedForm :
    (State.reset.dom.crv = false ∧ readPT toy 9 = .empty) ∧ (toy.dom.crv = true ∧ readPT toy 3 = .inf) ∧
    (StateOk toy ∧ readPT toy 1 = .aff 91 48 ∧ (0xFFE#12).toNat + (1 + (Nat.size toy.dom.dp.toNat + 7) / 8) ≤ 4096 ∧
      4096 < (0xFFF#12).toNat + (1 + (Nat.size toy.dom.dp.toNat + 7) / 8)) :=
  ⟨by decide +kernel, by decide +kernel, toy_ok, by decide +kernel⟩

/-- A point on the curve and one off it. -/
theorem test_witness_PointCodecRoundTrip :
    (StateOk toy ∧ toy.dom.crv = true ∧ Nat.Prime toy.dom.dp.toNat) ∧
    (∃ t, ptPoint toy 1 = some (.aff 91 48) ∧ exec (.penc 1 0xFFE) toy = .next t ∧ Retires toy t ∧
      (2#7).toNat = (encodePoint (plen toy) (.aff 91 48)).length ∧
      OnCurve (fieldP toy) (coeffA toy) (coeffB toy) (.aff 91 48)) ∧
    ∃ t, ptPoint toy 5 = some (.aff 1 1) ∧ exec (.penc 5 0xFFE) toy = .next t ∧ Retires toy t ∧
      (2#7).toNat = (encodePoint (plen toy) (.aff 1 1)).length ∧
      ¬OnCurve (fieldP toy) (coeffA toy) (coeffB toy) (.aff 1 1) := by
  have h1 : pencBytes 1 0xFFE toy = .ok [2, 0x5B] := by decide +kernel
  have h5 : pencBytes 5 0xFFE toy = .ok [3, 1] := by decide +kernel
  refine ⟨⟨toy_ok, by decide +kernel, (by norm_num : Nat.Prime 97)⟩,
    ⟨retired (memWrite toy 0xFFE [2, 0x5B]), by decide +kernel, by simp only [exec, execPenc, h1, finishWith_ok]; rfl,
      retires_retired rfl rfl rfl rfl rfl rfl rfl, by decide +kernel, by decide +kernel, by decide +kernel,
      by decide +kernel⟩,
    retired (memWrite toy 0xFFE [3, 1]), by decide +kernel, by simp only [exec, execPenc, h5, finishWith_ok]; rfl,
    retires_retired rfl rfl rfl rfl rfl rfl rfl, by decide +kernel, fun h => ?_⟩
  exact absurd h.2.2 (by decide +kernel)

theorem test_witness_HinitStartsDigest :
    (0#22).toNat < 1 ∧ 256 < (257#22).toNat ∧ (1 ≤ (1#22).toNat ∧ (256#22).toNat ≤ 256) := by decide

/-- 32 768 bits fill the scratchpad from address 0 and do not fit from address 1; 256 is a multiple of 8, 12 is not. -/
theorem test_witness_HupdAbsorbsBits :
    toy.hash.phase ≠ .absorb ∧ (started .absorb).hash.phase = .absorb ∧ 4096 < (1#12).toNat + (xNat toy 14 + 7) / 8 ∧
    (0#12).toNat + (xNat toy 14 + 7) / 8 ≤ 4096 ∧ xNat toy 10 % 8 = 0 ∧ xNat toy 12 % 8 ≠ 0 := by decide +kernel

theorem test_witness_HfinFinalizesDigest :
    toy.hash.phase = .idle ∧ (started .finalbits).hash.phase ≠ .idle ∧
    4096 < (0xFE1#12).toNat + ((started .absorb).hash.hl.val + 7) / 8 ∧
    (0xFE0#12).toNat + ((started .absorb).hash.hl.val + 7) / 8 ≤ 4096 := by decide +kernel

theorem test_witness_HtoeTakesLeftmostBits :
    State.reset.dom.ord = false ∧ (toy.dom.ord = true ∧ toy.digest.hdv = false) ∧
    (digest8.dom.ord = true ∧ digest8.digest.hdv = true) := by decide +kernel

/-- The sub-messages, constants and words of the zero block, by their recurrences. -/
theorem test_witness_CompressFollowsTheSchedule : ∃ (m t : Nat → Words16) (sc : Nat → StepConsts),
    (m 0 = Vector.replicate 16 0 ∧ m 1 = Vector.replicate 16 0) ∧
    (∀ j, ∀ l : Fin 16, (m (j + 2))[l] = (m (j + 1))[l] + (m j)[tau[l]]) ∧ sc 0 = stepConst0 ∧
    (∀ j, ∀ l : Fin 8, (sc (j + 1))[l] = (sc j)[l] + (sc j)[l].rotateLeft 8) ∧ t 0 = ivSeed 256 ∧
    ∀ j, ∀ l : Fin 16, (t (j + 1))[l] = mixedWord j (t j) (m j) (sc j) sigma[l] := by
  let zero : Words16 := Vector.replicate 16 0
  let pair (j : Nat) : Words16 × Words16 := Nat.rec (zero, zero) (fun _ v => (v.2, nextSubMessage v.1 v.2)) j
  let sc (j : Nat) : StepConsts := Nat.rec stepConst0 (fun _ v => nextStepConst v) j
  let t (j : Nat) : Words16 :=
    Nat.rec (ivSeed 256) (fun i v => Vector.ofFn fun l => mixedWord i v (pair i).1 (sc i) sigma[l]) j
  refine ⟨fun j => (pair j).1, t, sc, ⟨rfl, rfl⟩, fun j l => ?_, rfl, fun j l => ?_, rfl, fun j l => ?_⟩
  · show (nextSubMessage (pair j).1 (pair j).2)[l] = (pair j).2[l] + (pair j).1[tau[l]]
    simp [nextSubMessage]
  · show (nextStepConst (sc j))[l] = (sc j)[l] + (sc j)[l].rotateLeft 8
    simp [nextStepConst, rotl]
  · show (Vector.ofFn fun l : Fin 16 => mixedWord j (t j) (pair j).1 (sc j) sigma[l])[l] = _
    simp

theorem test_witness_PaddingAndTruncation :
    (0 < 8 ∧ 7 < 8) ∧ ((0 : Fin 128) < 127 ∧ (126 : Fin 128) < 127) ∧ (1 ≤ 1 ∧ 256 ≤ 256) ∧ 31 < 32 ∧
    32 * (7 : Fin 8).val + 31 < 8 * ((256 + 7) / 8) ∧ 32 * (0 : Fin 8).val + 7 < 8 * ((1 + 7) / 8) := by decide

/-- A message of 32 complete bytes and of 12 bits more. -/
theorem test_witness_StreamingGivesTheHash :
    ∃ t0 s t, exec (.hinit 256) toy = .next t0 ∧ Retires toy t0 ∧
      Absorbs t0.hash ([] ++ memRead t0 (spmAddr 0x200) 32) s.hash ∧ (0xFE0#12).toNat + ((256#22).toNat + 7) / 8 ≤ 4096 ∧
      xNat s 12 = 8 * 1 + 4 ∧ exec (.hupd 12 0x200) s = .next t ∧ Retires s t := by
  let t0 := retired (writeHash toy (startedHash ⟨256, by decide⟩))
  let s := retired (writeHash t0 (absorbMessage t0 (spmAddr 0x200) 256))
  have h0 : exec (.hinit 256) toy = .next t0 := rfl
  have hx : xNat t0 10 = 256 := by decide +kernel
  have h1 : exec (.hupd 10 0x200) t0 = .next s := by
    simp only [exec, execHupd, hx]
    rw [if_neg (by simp [t0, startedHash]), if_neg (by decide)]
    rfl
  have hr : Retires t0 s := retires_retired rfl rfl rfl rfl rfl rfl rfl
  have hph : s.hash.phase = .absorb := (absorbAll_frame _ _).1
  have hx' : xNat s 12 = 12 := by
    have same : readX s 12 = readX toy 12 := readX_congr (by simp [s, t0]) 12
    simp only [xNat, same]
    decide +kernel
  have h2 : exec (.hupd 12 0x200) s = .next (retired (writeHash s (absorbMessage s (spmAddr 0x200) 12))) := by
    simp only [exec, execHupd, hx', hph]
    rw [if_neg (by simp), if_neg (by decide)]
    rfl
  exact ⟨t0, s, _, h0, retires_retired rfl rfl rfl rfl rfl rfl rfl,
    .hupd [] 10 0x200 32 t0 s .start hx h1 hr, by decide, hx', h2, retires_retired rfl rfl rfl rfl rfl rfl rfl⟩

/-- No domain; an EMPTY key; values out of range; a value without an inverse (n = 91); a signature of R234; and (p = 15)
a product that fails. -/
theorem test_witness_EcdsavVerifies :
    (State.reset.dom.crv = false ∧ (toy.dom.crv = true ∧ toy.dom.ord = true ∧ toy.dom.gen = true)) ∧
    readPT toy 9 = .empty ∧ (StateOk toy ∧ toy.dom.dg.toPoint = some (.aff 0 2) ∧ ptPoint toy 4 = some (.aff 6 41)) ∧
    ¬(1 ≤ xNat toy 0 ∧ xNat toy 0 ≤ 89 - 1) ∧ ¬(1 ≤ xNat toy 2 ∧ xNat toy 2 ≤ 89 - 1) ∧
    ((1 ≤ xNat toy 7 ∧ xNat toy 7 ≤ 89 - 1 ∧ 1 ≤ xNat toy 8 ∧ xNat toy 8 ≤ 89 - 1) ∧ 57 < 89 ∧
      xNat toy 8 * 57 % 89 = 1 ∧ Nat.Prime (fieldP toy)) ∧
    (∃ p1 p2 v, scalarMul 97 1 (.aff 0 2) (xNat toy 6 * 57 % 89) = .ok p1 ∧
      scalarMul 97 1 (.aff 6 41) (xNat toy 7 * 57 % 89) = .ok p2 ∧ pointAdd 97 1 p1 p2 = .ok v) ∧
    (StateOk toyB ∧ toyB.dom.dn.toNat = 91 ∧ Nat.gcd (xNat toyB 13) 91 ≠ 1) ∧
    StateOk composite ∧ composite.dom.dn.toNat = 7 ∧ scalarMul 15 1 (.aff 0 5) (xNat composite 15 * 1 % 7) = .error .enoinv :=
  ⟨by decide +kernel, by decide +kernel, ⟨toy_ok, by decide +kernel⟩, by decide +kernel, by decide +kernel,
    ⟨by decide +kernel, by decide, by decide +kernel, (by norm_num : Nat.Prime 97)⟩,
    ⟨.aff 32 55, .aff 0 2, .aff 29 50, by decide +kernel, by decide +kernel, by decide +kernel⟩,
    ⟨toyB_ok, by decide +kernel⟩, composite_ok, by decide +kernel⟩

/-- Key 7·G, k = 10, e = 47, r = 29, s = 25 (R234). -/
theorem test_witness_EcdsavAcceptsGenuineSignatures :
    StateOk toy ∧ toy.dom.crv = true ∧ toy.dom.ord = true ∧ toy.dom.gen = true ∧ Nat.Prime (fieldP toy) ∧
    89 = toy.dom.dn.toNat ∧ Nat.Prime 89 ∧ toy.dom.dg.toPoint = some (.aff 0 2) ∧ ptPoint toy 4 = some (.aff 6 41) ∧
    OnCurve (fieldP toy) (coeffA toy) (coeffB toy) (.aff 0 2) ∧
    scalarMul (fieldP toy) (coeffA toy) (.aff 0 2) 89 = .ok .inf ∧
    scalarMul (fieldP toy) (coeffA toy) (.aff 0 2) 7 = .ok (.aff 6 41) ∧
    ∃ x y, scalarMul (fieldP toy) (coeffA toy) (.aff 0 2) 10 = .ok (.aff x y) ∧ xNat toy 7 = x % 89 ∧ 1 ≤ x % 89 ∧
      1 ≤ xNat toy 8 ∧ xNat toy 8 < 89 ∧ 10 * xNat toy 8 % 89 = (xNat toy 6 + x % 89 * 7) % 89 :=
  ⟨toy_ok, by decide +kernel, by decide +kernel, by decide +kernel, (by norm_num : Nat.Prime 97), by decide +kernel,
    by norm_num, by decide +kernel, by decide +kernel, ⟨by decide +kernel, by decide +kernel, by decide +kernel⟩,
    by decide +kernel, by decide +kernel, 29, 50, by decide +kernel⟩

/-- Commands that write neither, F, and DH, and one that faults; each with another F and DH. -/
theorem test_witness_CofactorAndFlagAreNotRead :
    SameButCofactorAndFlag toy { toy with f := true, dom := { toy.dom with dh := 5 } } ∧
    (∃ t, exec .nop toy = .next t ∧ Retires toy t) ∧
    (∃ t, exec (.cmpx 1 2) toy = .next t ∧ Retires toy t ∧ .flag ∈ writesOf (.cmpx 1 2)) ∧
    (∃ t, exec (.domord 15 1) toy = .next t ∧ Retires toy t ∧ .order ∈ writesOf (.domord 15 1)) ∧
    ∃ t, exec (.setm 4) toy = .next t ∧ ¬Retires toy t :=
  ⟨rfl, ⟨_, rfl, retires_retired rfl rfl rfl rfl rfl rfl rfl⟩,
    ⟨_, rfl, retires_retired rfl rfl rfl rfl rfl rfl rfl, by decide⟩,
    ⟨_, rfl, retires_retired rfl rfl rfl rfl rfl rfl rfl, by decide⟩,
    takeFault .emodulus toy, rfl, fun h => absurd h.errs (by decide +kernel)⟩

/-- For each statement about one host access: a state in which that access comes next. -/
theorem hostAccess (s : State) (h : s.bus.stalled = []) (a : BusAccess) :
    HostAccess (withInputs s [.bus { master := 0, access := a }]) 0 a [] :=
  have none (p : BusRequest → Prop) : ∀ req ∈ s.bus.stalled, p req := fun _ hreq => by simp [h] at hreq
  ⟨none _, none _, rfl⟩

/-- `toy` with a command in execution, a read of the SPM part by master 1 waiting, and this access of master 0 next. -/
theorem hostAccessAmidWaiting (a : BusAccess) :
    HostAccess (withInputs (setStalled { toy with inExec := some 0 } [{ master := 1, access := .read 0x1000 .word }])
      [.bus { master := 0, access := a }]) 0 a [] :=
  ⟨allWait_iff.mpr (List.forall_mem_singleton.mpr rfl), List.forall_mem_singleton.mpr (by decide), rfl⟩

theorem test_witness_CsrReads :
    (∃ s, HostAccess s 0 (.read 0x00C .word) [] ∧ s.queue.length ≤ 16) ∧
    (∃ s, HostAccess s 0 (.read 0x00C .word) [] ∧ s.queue.length ≤ 16 ∧ s.bus.stalled ≠ []) ∧
    ((0x02C#13).toNat % 4 = 0 ∧ 0x02C ≤ (0x02C#13).toNat) ∧ ((0xFFC#13).toNat ≤ 0xFFC ∧ (0xFFC#13).toNat % 4 = 0) :=
  ⟨⟨_, hostAccess toy rfl _, by decide +kernel⟩, ⟨_, hostAccessAmidWaiting _, by decide +kernel⟩, by decide, by decide⟩

/-- ERR = 1; a queue of 15 words; a full queue. -/
theorem test_witness_CmdWriteQueuesTheWord :
    (∃ s, HostAccess s 0 (.write 0x018 .word 5) [] ∧ s.errs.err = true) ∧
    (∃ s, HostAccess s 0 (.write 0x018 .word 5) [] ∧ s.errs.err = false ∧ s.queue.length = 15) ∧
    ∃ s, HostAccess s 0 (.write 0x018 .word 5) [] ∧ s.errs.err = false ∧ s.queue.length = 16 :=
  ⟨⟨_, hostAccess (takeFault .eillegal toy) rfl _, rfl⟩,
    ⟨_, hostAccess { toy with queue := List.replicate 15 0 } rfl _, by decide +kernel, by decide +kernel⟩,
    _, hostAccess { toy with queue := List.replicate 16 0 } rfl _, by decide +kernel, by decide +kernel⟩

/-- `toy` with these words queued, this command in execution, and this access of master 0 waiting. -/
def stalledState (queue : List Word) (inExec : Option Word) (a : BusAccess) : State :=
  setStalled { toy with queue := queue, inExec := inExec } [{ master := 0, access := a }]

/-- A CMD write that waits with room and with ERR = 1; accesses to the SPM part that wait while BUSY = 0, aligned at the
end of the part and misaligned. -/
theorem test_witness_StalledAccessesComplete :
    ((stalledState (List.replicate 15 0) none (.write 0x018 .word 5)).errs.err = false ∧
      (stalledState (List.replicate 15 0) none (.write 0x018 .word 5)).queue.length < 16) ∧
    (setStalled (takeFault .eillegal toy) [{ master := 0, access := .write 0x018 .word 5 }]).errs.err = true ∧
    busy (stalledState [] none (.read 0x1FFC .word)) = false ∧
    (0x1000 ≤ (0x1FFC#13).toNat ∧ (0x1FFC#13).toNat % AccessWidth.word.size = 0) ∧
    (0x1000 ≤ (0x1000#13).toNat ∧ (0x1000#13).toNat % AccessWidth.half.size = 0) ∧
    (0x1000 ≤ (0x1FFF#13).toNat ∧ (0x1FFF#13).toNat % AccessWidth.half.size ≠ 0) := by decide +kernel

/-- Its last part: a queued word and nothing in execution, a legal and an illegal command in execution, a CMD write at
a full queue, and a next access of the master that waits. -/
theorem test_witness_StalledAccessesComplete_engine :
    let queued := stalledState [0x04400061] none (.write 0x1FFE .half 5)
    let legal := stalledState [] (some 0) (.read 0x1000 .word)
    let illegal := stalledState [] (some 0xFFFFFFFF) (.read 0x1000 .byte)
    let full := stalledState (List.replicate 16 0) none (.write 0x018 .word 5)
    (AllWait queued ∧ NothingOutside queued ∧ queued.bus.stalled ≠ [] ∧ queued.errs.err = false) ∧
    (AllWait legal ∧ decode 0 = .ok .nop) ∧ (AllWait illegal ∧ decode 0xFFFFFFFF = .error .unassignedOpcode) ∧
    AllWait full ∧
    NothingOutside (withInputs queued [.bus { master := 0, access := .read 0 .word }]) := by
  refine ⟨⟨allWait_iff.mpr ?_, .inl rfl, ?_, rfl⟩, ⟨allWait_iff.mpr ?_, ?_⟩, ⟨allWait_iff.mpr ?_, ?_⟩,
    allWait_iff.mpr ?_, .inr ⟨_, _, rfl, _, List.mem_cons_self, rfl⟩⟩ <;> decide +kernel

/-- The first and the last word of the SPM part, idle and busy. -/
theorem test_witness_SpmWindowIsLittleEndian :
    (0x1000 ≤ (0x1000#13).toNat ∧ (0x1FFC#13).toNat % AccessWidth.word.size = 0) ∧
    (∃ s, HostAccess s 0 (.read 0x1FFC .word) [] ∧ busy s = false) ∧
    (∃ s, HostAccess s 0 (.read 0x1000 .half) [] ∧ busy s = true) ∧
    (∃ s, HostAccess s 0 (.write 0x1FFC .word 5) [] ∧ busy s = false) ∧
    ∃ s, HostAccess s 0 (.write 0x1000 .byte 5) [] ∧ busy s = true :=
  ⟨by decide, ⟨_, hostAccess toy rfl _, by decide +kernel⟩,
    ⟨_, hostAccess { toy with inExec := some 0 } rfl _, by decide +kernel⟩,
    ⟨_, hostAccess toy rfl _, by decide +kernel⟩, _, hostAccess { toy with inExec := some 0 } rfl _, by decide +kernel⟩

theorem test_witness_BusErrorsChangeNothing :
    (∃ s, (0x1000 ≤ (0x1FFF#13).toNat ∧ (0x1FFF#13).toNat % AccessWidth.half.size ≠ 0 ∧ busy s = false) ∧
      HostAccess s 0 (.read 0x1FFF .half) []) ∧
    (∃ s, (0x00C#13).toNat < 0x1000 ∧ AccessWidth.byte ≠ .word ∧ HostAccess s 0 (.write 0x00C .byte 1) []) ∧
    ∃ s, (0xFFE#13).toNat < 0x1000 ∧ (0xFFE#13).toNat % 4 ≠ 0 ∧ HostAccess s 0 (.read 0xFFE .word) [] :=
  ⟨⟨_, by decide +kernel, hostAccess toy rfl _⟩, ⟨_, by decide, by decide, hostAccess toy rfl _⟩,
    _, by decide, by decide, hostAccess toy rfl _⟩

theorem test_witness_ControlAndInterruptWrites :
    (∃ s, HostAccess s 0 (.write 0x008 .word 2) []) ∧ (∃ s, HostAccess s 0 (.write 0x008 .word 0) []) ∧
    ((2 : Word).getLsbD 0 = false ∧ (2 : Word).getLsbD 1 = true ∧ (0 : Word).getLsbD 1 = false) ∧
    (∃ s, HostAccess s 0 (.write 0x010 .word 3) []) ∧ (∃ s, HostAccess s 0 (.write 0x014 .word 3) []) ∧
    (∃ s, HostAccess s 0 (.write 0x02C .word 3) []) ∧ (∃ s, HostAccess s 0 (.write 0xFFC .word 3) []) ∧
    ∀ o ∈ [(0x000 : BitVec 13), 0x004, 0x00C, 0x01C, 0x020, 0x024, 0x028],
      ∃ s, HostAccess s 0 (.write o .word 3) [] :=
  ⟨⟨_, hostAccess toy rfl _⟩, ⟨_, hostAccess toy rfl _⟩, by decide, ⟨_, hostAccess toy rfl _⟩,
    ⟨_, hostAccess toy rfl _⟩, ⟨_, hostAccess toy rfl _⟩, ⟨_, hostAccess toy rfl _⟩,
    fun _ _ => ⟨_, hostAccess toy rfl _⟩⟩

/-- An ERRCLR write while a command executes. -/
theorem test_witness_NothingInterruptsACommand :
    ∃ s t, HostAccess s 0 (.write 0x008 .word 2) [] ∧ s.inExec = some 0 ∧
      (∀ data, BusAccess.write 0x008 .word 2 = .write 0x008 .word data → data.getLsbD 0 = false) ∧ step s = .next t := by
  refine ⟨_, _, hostAccess { toy with inExec := some 0 } rfl _, by rfl, fun data h => ?_, rfl⟩
  injection h with _ _ h
  subst h
  decide

/-- A soft reset while nothing executes; the three resets while a PENC does and an access of another master waits; the
reset state with a CMD write and with accesses to the SPM part waiting. -/
theorem test_witness_SoftResetRestoresTheTable :
    let penc := stalledState [] (some 0xB4400FFE) (.read 0x1000 .word)
    let after (a : BusAccess) := setStalled State.reset [{ master := 0, access := a }]
    (AllWait toy ∧ pendingStore toy = none ∧ (1 : Word).getLsbD 0 = true) ∧
    (∀ input ∈ [Input.bus { master := 1, access := .write 0x008 .word 1 }, .hardwareReset, .powerOn],
      AllWait (withInputs penc [input]) ∧ (∀ held ∈ (withInputs penc [input]).bus.stalled, held.master ≠ 1) ∧
      (withInputs penc [input]).bus.inputs = [input] ∧
      pendingStore (withInputs penc [input]) = some (0xFFE, [2, 0x5B])) ∧
    (ResetTable (after (.write 0x018 .word 5)) ∧ ResetTable (after (.read 0x1FFC .word)) ∧
      ResetTable (after (.write 0x1FFF .byte 5))) := by
  refine ⟨⟨allWait_iff.mpr ?_, ?_⟩, fun input h => ⟨allWait_iff.mpr ?_, ?_, rfl, ?_⟩, resetTable_reset _ _ _,
    resetTable_reset _ _ _, resetTable_reset _ _ _⟩
  · decide +kernel
  · decide +kernel
  all_goals fin_cases h <;> decide +kernel

end Sys2Proof.Machine
end

section
/-! PROOFS for the state rules of 10_state.md: X0 is hardwired (R21), and an EMPTY point register cannot be read (R23).
The check every point command makes is proved once per command as `ChecksPoints`. -/

namespace Sys2Proof.Machine

/-! ## X0 -/

/-- A command whose one write goes to X0 retires and changes no part. -/
theorem completes_of_writeX_zero {i : Instr} {s : State} {v : Big} (h : exec i s = retire (writeX s 0 v)) :
    Completes i s [] fun _ => True := by
  rw [writeX_zero] at h
  exact completes_of_retire h (sameSequencing_refl s) (onlyChanges_refl [] s) trivial

/-- Settles O14: the write to X0 that LDI and MOVX retire with leaves the state as it is. -/
theorem x0IsHardwired : Obligations.X0IsHardwired := fun s =>
  ⟨readX_zero s, writeX_zero s, fun imm => completes_of_writeX_zero (v := imm.setWidth 256) rfl,
    fun r => completes_of_writeX_zero (v := readX s r) rfl⟩

/-! ## The checks of the point commands -/

section
variable {i : Instr} {s : State} {α : Type} {v : Except Cause α} {k : α → State}

/-- A command that ends with a value which raises whatever the read of PT[r] raises. -/
theorem checksPoints_of_curvePoint {r : Reg} (hexec : exec i s = finishWith v s k)
    (hv : ∀ c, curvePoint s r = .error c → v = .error c) : ChecksPoints i s [r] := by
  have raises : ∀ c, curvePoint s r = .error c → Faults i s c := fun c hc =>
    faults_of_raise (by rw [hexec, hv c hc, finishWith_error])
  refine ⟨fun hcrv => raises _ (curvePoint_unset hcrv r), fun hcrv hempty => ?_⟩
  obtain ⟨r', hmem, hr⟩ := hempty
  obtain rfl := List.mem_singleton.mp hmem
  exact raises _ (curvePoint_empty hcrv hr)

/-- A command that ends with a value which raises whatever the read of two point registers raises. -/
theorem checksPoints_of_curvePoints {r q : Reg} (hexec : exec i s = finishWith v s k)
    (hv : ∀ c, curvePoints s r q = .error c → v = .error c) : ChecksPoints i s [r, q] := by
  have raises : ∀ c, curvePoints s r q = .error c → Faults i s c := fun c hc =>
    faults_of_raise (by rw [hexec, hv c hc, finishWith_error])
  exact ⟨fun hcrv => raises _ (curvePoints_unset hcrv r q),
    fun hcrv hempty => raises _ (curvePoints_empty hcrv (by simpa using hempty))⟩

/-- The EPOINT half of the checks, for one source register. -/
theorem ChecksPoints.faults_epoint {sources : List Reg} (h : ChecksPoints i s sources) (hcrv : s.dom.crv = true)
    {r : Reg} (hmem : r ∈ sources) (hr : readPT s r = .empty) : Faults i s .epoint :=
  h.2 hcrv ⟨r, hmem, hr⟩

end

section
variable (s : State) (rd r q x : Reg)

theorem checksPoints_domgen : ChecksPoints (.domgen r) s [r] := by
  refine ⟨fun hcrv => faults_of_raise ?_, fun hcrv hempty => faults_of_raise ?_⟩
  · simp [exec, execDomgen, hcrv]
  · have hr : readPT s r = .empty := by simpa using hempty
    simp [exec, execDomgen, hcrv, hr]

theorem checksPoints_pgetx : ChecksPoints (.pgetx rd r) s [r] := checksPoints_of_curvePoint rfl fun _ h => h

theorem checksPoints_pgety : ChecksPoints (.pgety rd r) s [r] := checksPoints_of_curvePoint rfl fun _ h => h

theorem checksPoints_pmov : ChecksPoints (.pmov rd r) s [r] := checksPoints_of_curvePoint rfl fun _ h => h

theorem checksPoints_pisinf : ChecksPoints (.pisinf r) s [r] := checksPoints_of_curvePoint rfl fun _ h => h

theorem checksPoints_pneg : ChecksPoints (.pneg rd r) s [r] := checksPoints_of_curvePoint rfl fun _ h => h

theorem checksPoints_peq : ChecksPoints (.peq r q) s [r, q] := checksPoints_of_curvePoints rfl fun _ h => h

theorem checksPoints_padd : ChecksPoints (.padd rd r q) s [r, q] :=
  checksPoints_of_curvePoints rfl fun _ h => by simp only [paddValue, h]

theorem checksPoints_pdbl : ChecksPoints (.pdbl rd r) s [r] :=
  checksPoints_of_curvePoint rfl fun _ h => by simp only [pdblValue, h]

theorem checksPoints_pmul (neg : Bool) : ChecksPoints (.pmul rd r x neg) s [r] :=
  checksPoints_of_curvePoint rfl fun _ h => by simp only [pmulValue, h]

theorem checksPoints_penc (addr : BitVec 12) : ChecksPoints (.penc r addr) s [r] :=
  checksPoints_of_curvePoint rfl fun _ h => by simp only [pencBytes, h]

end

/-- ECDSAV with an EMPTY key, once the curve, the order and the base point are configured (R230). -/
theorem ecdsav_faults_epoint {s : State} {r : Reg} (e x y : Reg) (hcrv : s.dom.crv = true) (hord : s.dom.ord = true)
    (hgen : s.dom.gen = true) (hr : readPT s r = .empty) : Faults (.ecdsav r e x y) s .epoint := by
  have hkey : ptPoint s r = none := by simp only [ptPoint, hr, PointReg.toPoint]
  exact faults_of_raise (by simp [exec, execEcdsav, ecdsavValue, hcrv, hord, hgen, hkey])

/-! ## The point registers become EMPTY -/

@[simp] theorem readPT_reset (r : Reg) : readPT State.reset r = .empty := by simp [readPT, State.reset]

/-- Everything DOMCRV can do (R145, R146): fault on the modulus, fault on the curve, or retire with the new domain and
every point register EMPTY. -/
theorem exec_domcrv_cases {rs1 rs2 rs3 : Reg} {s t : State} (h : exec (.domcrv rs1 rs2 rs3) s = .next t) :
    let p := xNat s rs1
    let a := xNat s rs2 % p
    let b := xNat s rs3 % p
    (modulusOk p = false ∧ t = takeFault .emodulus s) ∨
      (modulusOk p = true ∧ singular p a b = true ∧ t = takeFault .esingular s) ∨
      (modulusOk p = true ∧ singular p a b = false ∧
        t = retired (emptyPoints (writeDomain s (curveDomain p a b)))) := by
  intro p a b
  change execDomcrv rs1 rs2 rs3 s = .next t at h
  unfold execDomcrv at h
  split at h
  case isTrue hp => exact .inl ⟨by simpa using hp, (Host.Outcome.next.inj h).symm⟩
  case isFalse hp =>
    have hp : modulusOk p = true := by simpa using hp
    split at h
    case isTrue hs => exact .inr (.inl ⟨hp, hs, (Host.Outcome.next.inj h).symm⟩)
    case isFalse hs => exact .inr (.inr ⟨hp, by simpa using hs, (Host.Outcome.next.inj h).symm⟩)

/-- A command that takes a fault does not retire: CMDIDX stays (R32, R244). -/
theorem not_retires_takeFault (c : Cause) (s : State) : ¬ Retires s (takeFault c s) := by
  intro h
  have hidx : s.cmdidx = s.cmdidx + 1 := h.cmdidx
  bv_omega

/-- A retiring DOMCRV leaves every point register EMPTY (R146). -/
theorem readPT_of_domcrv_retires {rs1 rs2 rs3 : Reg} {s t : State} (h : exec (.domcrv rs1 rs2 rs3) s = .next t)
    (hret : Retires s t) (r : Reg) : readPT t r = .empty := by
  obtain ⟨-, rfl⟩ | ⟨-, -, rfl⟩ | ⟨-, -, rfl⟩ := exec_domcrv_cases h
  · exact absurd hret (not_retires_takeFault _ s)
  · exact absurd hret (not_retires_takeFault _ s)
  · rw [readPT_congr (retired_pt _), readPT_emptyPoints]

/-- Settles O32: each command that reads PT[r] makes the checks of its family, and both ways of emptying the point file
empty all of it. -/
theorem emptyPointRegisterFaults : Obligations.EmptyPointRegisterFaults := by
  refine ⟨fun s r q rd rx ry rz neg addr hcrv hr => ⟨?_, fun hord hgen =>
    ecdsav_faults_epoint rx ry rz hcrv hord hgen hr⟩, readPT_reset, fun _ _ _ _ _ r h hret =>
    readPT_of_domcrv_retires h hret r⟩
  have faults : ∀ {i sources}, ChecksPoints i s sources → r ∈ sources → Faults i s .epoint :=
    fun checks hmem => checks.faults_epoint hcrv hmem hr
  have first : ∀ rest : List Reg, r ∈ r :: rest := fun _ => List.mem_cons_self
  have second : r ∈ [q, r] := List.mem_cons_of_mem q (first [])
  simp only [List.forall_mem_cons, List.not_mem_nil, false_imp_iff, implies_true, and_true]
  exact ⟨faults (checksPoints_domgen s r) (first _), faults (checksPoints_pgetx s rd r) (first _),
    faults (checksPoints_pgety s rd r) (first _), faults (checksPoints_pmov s rd r) (first _),
    faults (checksPoints_peq s r q) (first _), faults (checksPoints_peq s q r) second,
    faults (checksPoints_pisinf s r) (first _), faults (checksPoints_padd s rd r q) (first _),
    faults (checksPoints_padd s rd q r) second, faults (checksPoints_pdbl s rd r) (first _),
    faults (checksPoints_pneg s rd r) (first _), faults (checksPoints_pmul s rd r rx neg) (first _),
    faults (checksPoints_penc s r addr) (first _)⟩

end Sys2Proof.Machine
end

section
/-! PROOFS for the encoding rules of 30_encoding.md: the opcode table's rows are the decoder's legal words (R86), the
byte counts of format M (R85), and the words of R92. The link between the two forms of a zero-field condition, field by
field in the decoder and one mask in the table, is `extractLsb'_eq_zero_iff` with `and_eq_zero_both_iff`. -/

namespace Sys2Proof

open Machine

/-! ## Fields and masks -/

/-- A field of a word is zero exactly when the word is zero under the field's mask. -/
theorem extractLsb'_eq_zero_iff {w : Word} {start len : Nat} :
    w.extractLsb' start len = 0#len ↔ w &&& (BitVec.allOnes len).setWidth 32 <<< start = 0#32 := by
  constructor
  · intro h
    ext i hi
    have hbit := congrArg (BitVec.getLsbD · (i - start)) h
    simp at hbit ⊢
    grind
  · intro h
    ext i hi
    have hbit := congrArg (BitVec.getLsbD · (start + i)) h
    simp at hbit ⊢
    grind

/-- Two masks that both give zero join to one. -/
theorem and_eq_zero_both_iff {w a b : Word} : (w &&& a = 0#32 ∧ w &&& b = 0#32) ↔ w &&& (a ||| b) = 0#32 := by
  rw [BitVec.and_or_distrib_left]
  exact BitVec.or_eq_zero_iff.symm

section
variable {w : Word}

theorem opField_eq_zero_iff : opField w = 0#6 ↔ w &&& 0xFC000000#32 = 0#32 := extractLsb'_eq_zero_iff

theorem rdField_eq_zero_iff : rdField w = 0#4 ↔ w &&& 0x03C00000#32 = 0#32 := extractLsb'_eq_zero_iff

theorem rs1Field_eq_zero_iff : rs1Field w = 0#4 ↔ w &&& 0x003C0000#32 = 0#32 := extractLsb'_eq_zero_iff

theorem rs2Field_eq_zero_iff : rs2Field w = 0#4 ↔ w &&& 0x0003C000#32 = 0#32 := extractLsb'_eq_zero_iff

theorem rs3Field_eq_zero_iff : rs3Field w = 0#4 ↔ w &&& 0x00003C00#32 = 0#32 := extractLsb'_eq_zero_iff

theorem selField_eq_zero_iff : selField w = 0#2 ↔ w &&& 0x00000300#32 = 0#32 := extractLsb'_eq_zero_iff

theorem negField_eq_zero_iff : negField w = 0#1 ↔ w &&& 0x00000080#32 = 0#32 := extractLsb'_eq_zero_iff

theorem lowField_eq_zero_iff : lowField w = 0#7 ↔ w &&& 0x0000007F#32 = 0#32 := extractLsb'_eq_zero_iff

theorem immField_eq_zero_iff : immField w = 0#22 ↔ w &&& 0x003FFFFF#32 = 0#32 := extractLsb'_eq_zero_iff

theorem lenField_eq_zero_iff : lenField w = 0#7 ↔ w &&& 0x003F8000#32 = 0#32 := extractLsb'_eq_zero_iff

theorem gapField_eq_zero_iff : gapField w = 0#3 ↔ w &&& 0x00007000#32 = 0#32 := extractLsb'_eq_zero_iff

/-! The zero conditions of format R as one mask each (R79). -/

theorem zeroFromRs3_iff : zeroFromRs3 w = true ↔ w &&& 0x00003FFF#32 = 0#32 := by
  simp [zeroFromRs3, rs3Field_eq_zero_iff, selField_eq_zero_iff, negField_eq_zero_iff, lowField_eq_zero_iff,
    and_eq_zero_both_iff]

theorem zeroFromRs2_iff : zeroFromRs2 w = true ↔ w &&& 0x0003FFFF#32 = 0#32 := by
  simp [zeroFromRs2, rs2Field_eq_zero_iff, zeroFromRs3_iff, and_eq_zero_both_iff]

theorem zeroFromRs1_iff : zeroFromRs1 w = true ↔ w &&& 0x003FFFFF#32 = 0#32 := by
  simp [zeroFromRs1, rs1Field_eq_zero_iff, zeroFromRs2_iff, and_eq_zero_both_iff]

theorem zeroSel3_iff : zeroSel3 w = true ↔ w &&& 0x00003CFF#32 = 0#32 := by
  simp [zeroSel3, rs3Field_eq_zero_iff, negField_eq_zero_iff, lowField_eq_zero_iff, and_eq_zero_both_iff]

theorem zeroSel2_iff : zeroSel2 w = true ↔ w &&& 0x0003FCFF#32 = 0#32 := by
  simp [zeroSel2, rs2Field_eq_zero_iff, zeroSel3_iff, and_eq_zero_both_iff]

end

/-- The operand bits of a word: all but the opcode (R76). -/
def operandBits : Word := 0x03FFFFFF

/-- A word is zero when its opcode and its operand bits are. -/
theorem eq_zero_iff_opField {v : Word} : v = 0#32 ↔ opField v = 0#6 ∧ v &&& operandBits = 0#32 := by
  rw [opField_eq_zero_iff, operandBits, and_eq_zero_both_iff]
  change _ ↔ v &&& BitVec.allOnes 32 = 0#32
  rw [BitVec.and_allOnes]

/-- `Bool.and_xor_distrib_right`, bit by bit. -/
theorem xor_and_distrib_right (a b m : Word) : (a ^^^ b) &&& m = (a &&& m) ^^^ (b &&& m) := by
  ext i hi
  simp [Bool.and_xor_distrib_right]

theorem opField_and (w m : Word) : opField (w &&& m) = opField w &&& opField m := BitVec.extractLsb'_and ..

theorem opField_xor (w m : Word) : opField (w ^^^ m) = opField w ^^^ opField m := BitVec.extractLsb'_xor ..

/-- Condition (2) of R86 for a word that has the opcode of a row: its operand bits under the mask are zero. -/
theorem and_mask_eq_pattern_iff {w mask pattern : Word} (hmask : opField mask = BitVec.allOnes 6)
    (hpattern : pattern &&& operandBits = 0#32) (hop : opField w = opField pattern) :
    w &&& mask = pattern ↔ w &&& (mask &&& operandBits) = 0#32 := by
  have hopcode : opField (w &&& mask ^^^ pattern) = 0#6 := by
    rw [opField_xor, opField_and, hmask, BitVec.and_allOnes, hop, BitVec.xor_self]
  have hoperands : (w &&& mask ^^^ pattern) &&& operandBits = w &&& (mask &&& operandBits) := by
    rw [xor_and_distrib_right, hpattern, BitVec.xor_zero, BitVec.and_assoc]
  rw [← BitVec.xor_eq_zero_iff, eq_zero_iff_opField, hoperands]
  simp [hopcode]

/-! ## The rows of the opcode table -/

/-- The opcode of a row (condition (1) of R86). -/
def OpcodeRow.opcode (row : OpcodeRow) : Nat := row.pattern.toNat / 2 ^ 26

theorem OpcodeRow.opcode_eq (row : OpcodeRow) : row.opcode = (opField row.pattern).toNat := by
  simp [opcode, opField, BitVec.extractLsb'_toNat, Nat.shiftRight_eq_div_pow]
  omega

/-- The operand conditions (2) to (4) of R86 that a row makes. -/
def OpcodeRow.OperandsOk (row : OpcodeRow) (w : Word) : Prop :=
  w &&& (row.mask &&& operandBits) = 0#32 ∧ (row.usesSel = true → selField w ≠ 3#2) ∧
    ∀ low high, row.lens = some (low, high) → low ≤ (lenField w).toNat ∧ (lenField w).toNat ≤ high

/-- Every mask covers the opcode, and no match word has operand bits. -/
theorem mask_pattern_of_mem : ∀ row ∈ opcodeTable,
    opField row.mask = BitVec.allOnes 6 ∧ row.pattern &&& operandBits = 0#32 := by decide

/-- A row admits the words that have its opcode and meet its operand conditions. -/
theorem admits_iff {row : OpcodeRow} (hrow : row ∈ opcodeTable) {w : Word} :
    row.admits w = true ↔ (opField w).toNat = row.opcode ∧ row.OperandsOk w := by
  obtain ⟨hmask, hpattern⟩ := mask_pattern_of_mem row hrow
  rw [row.opcode_eq, ← BitVec.toNat_eq]
  by_cases hop : opField w = opField row.pattern
  case pos =>
    have hbits := and_mask_eq_pattern_iff hmask hpattern hop
    obtain ⟨mask, pattern, usesSel, lens⟩ := row
    cases usesSel <;> rcases lens with - | ⟨low, high⟩ <;>
      simp [OpcodeRow.admits, OpcodeRow.OperandsOk, hop, hbits, and_assoc]
  case neg =>
    have hne : w &&& row.mask ≠ row.pattern := fun h => hop (by rw [← h, opField_and, hmask, BitVec.and_allOnes])
    simp [OpcodeRow.admits, hne, hop]

/-- A word is legal: it decodes to an instruction. -/
def Legal (w : Word) : Prop := ∃ i, decode w = .ok i

/-! When some instruction comes out of each decoding helper. -/

theorem exists_decodeZero_ok {zero : Bool} {i : Instr} : (∃ j, decodeZero zero i = .ok j) ↔ zero = true := by
  simp [decodeZero_ok]

theorem exists_decodeLen_ok {w : Word} {lenOk : Bool} {i : Instr} :
    (∃ j, decodeLen w lenOk i = .ok j) ↔ gapField w = 0#3 ∧ lenOk = true := by
  simp [decodeLen_ok]

/-- Every selector but 3 is one (R83). -/
theorem exists_selOf_iff : ∀ b : BitVec 2, (∃ sel, selOf b = some sel) ↔ b ≠ 3#2 := by
  simp only [← Option.isSome_iff_exists]
  decide

/-- The selector is legal unless it is 3, condition (3) of R86. -/
theorem exists_decodeSel_ok {zero : Bool} {w : Word} {k : ModSel → Instr} :
    (∃ j, decodeSel zero w k = .ok j) ↔ zero = true ∧ selField w ≠ 3#2 := by
  rw [← exists_selOf_iff]
  simp [decodeSel_ok]

/-- A check before the rest of a decoder's arm. -/
theorem exists_guarded_ok {c : Prop} [Decidable c] {e : DecodeError} {arm : Except DecodeError Instr} :
    (∃ i, (if c then arm else .error e) = .ok i) ↔ c ∧ ∃ i, arm = .ok i := by
  by_cases hc : c <;> simp [hc]

/-- Row by row: the decoder's arm for the row's opcode checks its fields one at a time, and the masks of the fields that
must be zero join to the row's mask. -/
theorem legal_iff_operandsOk {row : OpcodeRow} (hrow : row ∈ opcodeTable) {w : Word}
    (hop : (opField w).toNat = row.opcode) : Legal w ↔ row.OperandsOk w := by
  unfold opcodeTable integerRows curveRows at hrow
  fin_cases hrow
  all_goals
    simp only [OpcodeRow.opcode, BitVec.reduceToNat, Nat.reducePow, Nat.reduceDiv] at hop
    simp only [Legal, decode, hop, exists_decodeZero_ok, exists_decodeSel_ok, exists_decodeLen_ok, exists_guarded_ok]
    simp [OpcodeRow.OperandsOk, operandBits, and_eq_zero_both_iff, zeroFromRs1_iff, zeroFromRs2_iff, zeroFromRs3_iff,
      zeroSel2_iff, zeroSel3_iff, rdField_eq_zero_iff, rs3Field_eq_zero_iff, selField_eq_zero_iff,
      negField_eq_zero_iff, lowField_eq_zero_iff, immField_eq_zero_iff, lenField_eq_zero_iff, gapField_eq_zero_iff,
      integerLenOk, pointLenOk]

/-- Condition (1) of R86: a legal word has the opcode of a row. -/
theorem exists_opcode_of_legal {w : Word} (h : Legal w) : ∃ row ∈ opcodeTable, (opField w).toNat = row.opcode := by
  obtain ⟨i, hi⟩ := h
  unfold decode at hi
  split at hi
  case h_40 => cases hi
  all_goals
    rename_i hop
    rw [hop]
    decide

/-- The legal words are those a row admits (R86). -/
theorem legal_iff_admits {w : Word} : Legal w ↔ ∃ row ∈ opcodeTable, row.admits w = true := by
  constructor
  · intro h
    obtain ⟨row, hrow, hop⟩ := exists_opcode_of_legal h
    exact ⟨row, hrow, (admits_iff hrow).mpr ⟨hop, (legal_iff_operandsOk hrow hop).mp h⟩⟩
  · rintro ⟨row, hrow, hadmits⟩
    obtain ⟨hop, hoperands⟩ := (admits_iff hrow).mp hadmits
    exact (legal_iff_operandsOk hrow hop).mpr hoperands

/-- A word that is not legal ends as a command that takes EILLEGAL (R86). -/
theorem runCommand_of_not_legal {w : Word} (h : ¬ Legal w) (s : State) : runCommand w s = raise .eillegal s := by
  unfold runCommand
  split
  case h_1 i hi => exact absurd ⟨i, hi⟩ h
  case h_2 => rfl

/-- Settles O3: the rows admit what the decoder's arms accept, and any other word raises EILLEGAL. -/
theorem legalWordsAreTableRows : Obligations.LegalWordsAreTableRows := by
  refine ⟨fun w => legal_iff_admits, fun w s rest hnone => ?_⟩
  have hillegal : ¬ Legal w := by
    rw [legal_iff_admits]
    rintro ⟨row, hrow, hadmits⟩
    exact absurd hadmits (by simp [hnone row hrow])
  exact ⟨_, runCommand_of_not_legal hillegal _, faultEntry_takeFault _ _⟩

/-! ## Words of format M -/

section
variable (r : Reg) (len : BitVec 7) (addr : BitVec 12)

/-- A word packed with bits [14:12] zero is refused by its byte count only (R80, R85). -/
theorem decodeLen_packM (op : BitVec 6) (reg : BitVec 4) (lenOk : Bool) (i : Instr) :
    decodeLen (packM op reg len 0#3 addr) lenOk i = if lenOk then .ok i else .error .byteCount := by
  simp [decodeLen]

theorem decode_packM_ldn : decode (packM 0x04 (regBits r) len 0 addr) =
    if integerLenOk len then .ok (.ldn r len addr) else .error .byteCount := by
  simp [decode, decodeLen_packM]

theorem decode_packM_stn : decode (packM 0x05 (regBits r) len 0 addr) =
    if integerLenOk len then .ok (.stn r len addr) else .error .byteCount := by
  simp [decode, decodeLen_packM]

theorem decode_packM_pdec : decode (packM 0x2C (regBits r) len 0 addr) =
    if pointLenOk len then .ok (.pdec r len addr) else .error .byteCount := by
  simp [decode, decodeLen_packM]

theorem decode_packM_penc : decode (packM 0x2D (regBits r) len 0 addr) =
    if len = 0 then .ok (.penc r addr) else .error .byteCount := by
  simp [decode, decodeLen_packM]

theorem decode_packM_hupd : decode (packM 0x31 (regBits r) len 0 addr) =
    if len = 0 then .ok (.hupd r addr) else .error .byteCount := by
  simp [decode, decodeLen_packM]

/-- HFIN has no register: its register field is zero too (R211). -/
theorem decode_packM_hfin : decode (packM 0x32 (regBits r) len 0 addr) =
    if r = 0 then if len = 0 then .ok (.hfin addr) else .error .byteCount else .error .nonzeroField := by
  have hreg : regBits r = 0#4 ↔ r = 0 := by revert r; decide
  simp [decode, decodeLen_packM, hreg]

end

theorem integerLenOk_iff {len : BitVec 7} : integerLenOk len = true ↔ 1 ≤ len.toNat ∧ len.toNat ≤ 32 := by
  simp [integerLenOk]

theorem pointLenOk_iff {len : BitVec 7} : pointLenOk len = true ↔ 1 ≤ len.toNat ∧ len.toNat ≤ 65 := by
  simp [pointLenOk]

/-- Settles O4: what each opcode of format M decodes to, at every byte count. -/
theorem byteCountRanges : Obligations.ByteCountRanges := by
  intro r len addr
  simp only [decode_packM_ldn, decode_packM_stn, decode_packM_pdec, decode_packM_penc, decode_packM_hupd,
    decode_packM_hfin, integerLenOk_iff, pointLenOk_iff]
  refine ⟨fun h => ⟨if_pos h, if_pos h⟩, fun h => ⟨if_neg h, if_neg h⟩, fun h => if_pos h, fun h => if_neg h,
    fun h => ⟨if_pos h, if_pos h⟩, fun ⟨hlen, hr⟩ => (if_pos hr).trans (if_pos hlen),
    fun h => ⟨if_neg h, if_neg h⟩, fun h => ?_⟩
  by_cases hr : r = 0
  case pos => exact ⟨_, (if_pos hr).trans (if_neg (h.resolve_right (not_not_intro hr)))⟩
  case neg => exact ⟨_, if_neg hr⟩

/-- Settles O6: the decoder evaluates on six fixed words. -/
theorem specWordsDecode : Obligations.SpecWordsDecode := by
  unfold Obligations.SpecWordsDecode
  decide

end Sys2Proof
end

section
/-! PROOFS for 40_data_movement.md: NOP (R100), LDI, MOVX and CMPX (R101 to R103), LDN and STN (R104, R105). That a
command has exactly one word is shown once for every command: a decoded instruction encodes to the word it came from
(`encode_of_decode`), so a word that decodes to the instruction is the only one. -/

namespace Sys2Proof

open Machine

/-! ## One word for each instruction -/

theorem opField_eq_of_toNat {w : Word} {k : Nat} (h : (opField w).toNat = k) : opField w = BitVec.ofNat 6 k := by
  simp [← h]

/-- The negate bit, read as a `Bool` and written back (R170). -/
theorem negBit_eq_self : ∀ b : BitVec 1, (if b = 1#1 then 1#1 else 0#1) = b := by decide

/-- In each arm the fields of the word are those of the instruction or the zeros the arm checks; by format I, M, R with
a selector, and R without (R77 to R80). -/
theorem encode_of_decode {w : Word} {i : Instr} (h : decode w = .ok i) : encode i = w := by
  unfold decode at h
  split at h
  case h_40 => cases h
  all_goals
    rename_i hop
    replace hop := opField_eq_of_toNat hop
  case h_2 =>
    cases h
    exact Eq.trans (by simp [encode, hop]) (packI_fields w)
  case h_1 | h_35 =>
    obtain ⟨hzero, rfl⟩ := decodeZero_ok.mp h
    refine Eq.trans ?_ (packI_fields w)
    simp_all [encode]
  case h_37 =>
    obtain ⟨hrd, h⟩ : rdField w = 0 ∧ decodeLen w (lenField w == 0) (.hfin (addrField w)) = .ok i := by
      split at h
      case isTrue hrd => exact ⟨hrd, h⟩
      case isFalse => cases h
    obtain ⟨hgap, hlen, rfl⟩ := decodeLen_ok.mp h
    refine Eq.trans ?_ (packM_fields w)
    simp_all [encode]
  case h_5 | h_6 | h_33 | h_34 | h_36 =>
    obtain ⟨hgap, hlen, rfl⟩ := decodeLen_ok.mp h
    refine Eq.trans ?_ (packM_fields w)
    simp_all [encode]
  case h_8 | h_9 | h_10 | h_11 | h_12 | h_13 | h_14 | h_15 | h_16 | h_17 =>
    obtain ⟨hzero, sel, hsel, rfl⟩ := decodeSel_ok.mp h
    refine Eq.trans ?_ (packR_fields w)
    simp_all [encode, encodeSel, selBits_of_selOf hsel, zeroSel2, zeroSel3]
  all_goals
    obtain ⟨hzero, rfl⟩ := decodeZero_ok.mp h
    refine Eq.trans ?_ (packR_fields w)
    simp_all [encode, encodeRegs, zeroFromRs1, zeroFromRs2, zeroFromRs3, negBit_eq_self]

/-- A word that decodes to an instruction is its one word. -/
theorem encodedAs_of_decode {i : Instr} {w : Word} (h : decode w = .ok i) : EncodedAs i w := fun _ =>
  ⟨fun hv => (encode_of_decode hv).symm.trans (encode_of_decode h), fun hv => hv ▸ h⟩

/-! ## The words of the data movement commands -/

theorem encodedAs_nop : EncodedAs .nop 0 := encodedAs_of_decode (by decide)

/-- A word with opcode 0 is zero when its rd field and its immediate are. -/
theorem eq_zero_of_fields {w : Word} (hop : opField w = 0) (hrd : rdField w = 0) (himm : immField w = 0) : w = 0 := by
  rw [← packI_fields w, hop, hrd, himm]
  rfl

/-- A word with opcode 0 and another bit set is illegal (R88, R100). -/
theorem decode_of_opField_eq_zero {w : Word} (hop : opField w = 0) (hw : w ≠ 0) :
    decode w = .error .nonzeroField := by
  have hfields : ¬(rdField w = 0 ∧ immField w = 0) := fun ⟨hrd, himm⟩ => hw (eq_zero_of_fields hop hrd himm)
  simpa [decode, hop, decodeZero] using hfields

theorem encodedAs_ldi (rd : Reg) (imm : BitVec 22) : EncodedAs (.ldi rd imm) (packI 0x01 (regBits rd) imm) :=
  encodedAs_of_decode (by simp [decode])

theorem encodedAs_movx (rd rs1 : Reg) :
    EncodedAs (.movx rd rs1) (packR 0x02 (regBits rd) (regBits rs1) 0 0 0 0 0) :=
  encodedAs_of_decode (by simp [decode, decodeZero_ok, zeroFromRs2, zeroFromRs3])

theorem encodedAs_cmpx (rs1 rs2 : Reg) :
    EncodedAs (.cmpx rs1 rs2) (packR 0x03 0 (regBits rs1) (regBits rs2) 0 0 0 0) :=
  encodedAs_of_decode (by simp [decode, decodeZero_ok, zeroFromRs3])

theorem encodedAs_ldn (r : Reg) {len : BitVec 7} (addr : BitVec 12) (hlen : integerLenOk len = true) :
    EncodedAs (.ldn r len addr) (packM 0x04 (regBits r) len 0 addr) :=
  encodedAs_of_decode ((decode_packM_ldn r len addr).trans (if_pos hlen))

theorem encodedAs_stn (r : Reg) {len : BitVec 7} (addr : BitVec 12) (hlen : integerLenOk len = true) :
    EncodedAs (.stn r len addr) (packM 0x05 (regBits r) len 0 addr) :=
  encodedAs_of_decode ((decode_packM_stn r len addr).trans (if_pos hlen))

end Sys2Proof

namespace Sys2Proof.Machine

/-! ## NOP, LDI, MOVX and CMPX -/

/-- Settles O15: NOP retires on the state as it is. -/
theorem nopOnlyRetires : Obligations.NopOnlyRetires :=
  ⟨encodedAs_nop, fun _ hop hw => decode_of_opField_eq_zero hop hw,
    fun s => completes_of_retire rfl (sameSequencing_refl s) (onlyChanges_refl [] s) trivial⟩

/-- LDI writes the zero-extended immediate (R101). -/
theorem completesX_ldi (s : State) (rd : Reg) (imm : BitVec 22) : CompletesX (.ldi rd imm) s rd imm.toNat := by
  have hvalue : (imm.setWidth 256).toNat = imm.toNat := BitVec.toNat_setWidth_of_le (by omega)
  exact hvalue ▸ completesX_of_writeX rfl

/-- CMPX writes whether the full values are equal (R103). -/
theorem completesFlag_cmpx (s : State) (rs1 rs2 : Reg) :
    CompletesFlag (.cmpx rs1 rs2) s (decide (readX s rs1 = readX s rs2)) :=
  completesFlag_of_writeF rfl

/-- Settles O16: LDI, MOVX and CMPX end with one write, of X[rd] or of F. -/
theorem registerMovesAndCompare : Obligations.RegisterMovesAndCompare :=
  ⟨encodedAs_ldi, encodedAs_movx, encodedAs_cmpx, completesX_ldi, fun _ _ _ => completesX_of_writeX rfl,
    completesFlag_cmpx⟩

/-! ## LDN and STN -/

section
variable (s : State) (r : Reg) {len : BitVec 7} {addr : BitVec 12}

theorem inBounds_eq_false {a n : Nat} (h : 4096 < a + n) : inBounds a n = false :=
  Bool.eq_false_iff.mpr fun hb => absurd (inBounds_iff.mp hb) (by omega)

/-- What LDN does with a legal byte count (R104): the bounds check, then the write. -/
theorem exec_ldn (hlen : integerLenOk len = true) : exec (.ldn r len addr) s =
    if inBounds addr.toNat len.toNat = true then
      retire (writeXNat s r (bigEndian (memRead s addr.toNat len.toNat)))
    else raise .ebounds s := by
  change execLdn r len addr s = _
  cases hb : inBounds addr.toNat len.toNat <;> simp [execLdn, hlen, spmAddr, hb, beNat_eq]

/-- At most 32 bytes hold an integer below 2^256. -/
theorem bigEndian_memRead_lt (a : Nat) {n : Nat} (hn : n ≤ 32) : bigEndian (memRead s a n) < 2 ^ 256 := by
  calc bigEndian (memRead s a n)
      < 256 ^ (memRead s a n).length := bigEndian_lt _
    _ = 256 ^ n := by rw [memRead_length]
    _ ≤ 256 ^ 32 := Nat.pow_le_pow_right (by omega) hn
    _ = 2 ^ 256 := by norm_num

theorem completesX_ldn (hlen : integerLenOk len = true) (hb : addr.toNat + len.toNat ≤ 4096) :
    CompletesX (.ldn r len addr) s r (bigEndian (memRead s addr.toNat len.toNat)) :=
  completesX_of_writeXNat (bigEndian_memRead_lt s _ (integerLenOk_iff.mp hlen).2)
    ((exec_ldn s r hlen).trans (if_pos (inBounds_iff.mpr hb)))

theorem faults_ldn_ebounds (hlen : integerLenOk len = true) (hb : 4096 < addr.toNat + len.toNat) :
    Faults (.ldn r len addr) s .ebounds :=
  faults_of_raise ((exec_ldn s r hlen).trans (if_neg (by simp [inBounds_eq_false hb])))

/-- What STN does with a legal byte count (R105): EBOUNDS before ERANGE, then the write. -/
theorem exec_stn (hlen : integerLenOk len = true) : exec (.stn r len addr) s =
    if inBounds addr.toNat len.toNat = true then
      if xNat s r < 2 ^ (8 * len.toNat) then
        retire (memWrite s (spmAddr addr) (bigEndianBytes len.toNat (xNat s r)))
      else raise .erange s
    else raise .ebounds s := by
  change execStn r len addr s = _
  cases hb : inBounds addr.toNat len.toNat
  case false => simp [execStn, stnBytes, hlen, spmAddr, hb]
  case true =>
    by_cases hv : xNat s r < 2 ^ (8 * len.toNat)
    case pos => simp [execStn, stnBytes, hlen, spmAddr, hb, not_le.mpr hv, beBytes_eq]
    case neg => simp [execStn, stnBytes, hlen, spmAddr, hb, hv, not_lt.mp hv]

theorem completesStore_stn (hlen : integerLenOk len = true) (hb : addr.toNat + len.toNat ≤ 4096)
    (hv : xNat s r < 2 ^ (8 * len.toNat)) :
    CompletesStore (.stn r len addr) s (spmAddr addr) (bigEndianBytes len.toNat (xNat s r)) :=
  completesStore_of_memWrite <| by rw [exec_stn s r hlen, if_pos (inBounds_iff.mpr hb), if_pos hv]

theorem faults_stn_ebounds (hlen : integerLenOk len = true) (hb : 4096 < addr.toNat + len.toNat) :
    Faults (.stn r len addr) s .ebounds :=
  faults_of_raise ((exec_stn s r hlen).trans (if_neg (by simp [inBounds_eq_false hb])))

theorem faults_stn_erange (hlen : integerLenOk len = true) (hb : addr.toNat + len.toNat ≤ 4096)
    (hv : 2 ^ (8 * len.toNat) ≤ xNat s r) : Faults (.stn r len addr) s .erange :=
  faults_of_raise <| by rw [exec_stn s r hlen, if_pos (inBounds_iff.mpr hb), if_neg (not_lt.mpr hv)]

end

/-- Settles O17: the byte count fits X[r], and the one check left is the range's end. -/
theorem ldnLoadsBigEndian : Obligations.LdnLoadsBigEndian := by
  refine fun r len addr => ⟨fun hlen => ?_, fun hlen =>
    (decode_packM_ldn r len addr).trans (if_neg (mt integerLenOk_iff.mp hlen))⟩
  have hok : integerLenOk len = true := integerLenOk_iff.mpr hlen
  exact ⟨encodedAs_ldn r addr hok, fun s => ⟨completesX_ldn s r hok, faults_ldn_ebounds s r hok⟩⟩

/-- Settles O18: the three outcomes of `exec_stn`, one for each case of the two checks. -/
theorem stnStoresBigEndian : Obligations.StnStoresBigEndian := by
  refine fun r len addr => ⟨fun hlen => ?_, fun hlen =>
    (decode_packM_stn r len addr).trans (if_neg (mt integerLenOk_iff.mp hlen))⟩
  have hok : integerLenOk len = true := integerLenOk_iff.mpr hlen
  exact ⟨encodedAs_stn r addr hok, fun s =>
    ⟨completesStore_stn s r hok, faults_stn_ebounds s r hok, faults_stn_erange s r hok⟩⟩

end Sys2Proof.Machine
end

section
/-! PROOFS for 41_modular.md: SETM (R113), the modular commands (R114 to R118), the Montgomery commands and their
identities (R119 to R122, R125), MODINV (R123). Every command but SETM ends with the selected modulus m, so each is one
residue of an exact integer; for Montgomery that residue is fixed by `mul_montR_mul_montRInv`: 2^256 is invertible
modulo an odd m. -/

namespace Sys2Proof.Machine

/-! ## SETM -/

theorem encodedAs_setm (rs1 : Reg) : EncodedAs (.setm rs1) (packR 0x06 0 (regBits rs1) 0 0 0 0 0) :=
  encodedAs_of_decode (by simp [decode, decodeZero_ok, zeroFromRs2, zeroFromRs3])

theorem sameSequencing_writeModulus (s : State) (v : Big) : SameSequencing s (writeModulus s v) := by
  constructor <;> simp

/-- What SETM does (R113): the check, then the write. -/
theorem exec_setm (rs1 : Reg) (s : State) : exec (.setm rs1) s =
    if modulusOk (xNat s rs1) = true then retire (writeModulus s (readX s rs1)) else raise .emodulus s := rfl

/-- Settles O20: the two outcomes of the modulus check. -/
theorem setmSetsModulus : Obligations.SetmSetsModulus := by
  refine fun rs1 => ⟨encodedAs_setm rs1, fun s => ⟨fun hodd hge => ?_, fun hbad => ?_⟩⟩
  · have hexec := (exec_setm rs1 s).trans (if_pos (modulusOk_iff.mpr ⟨hodd, hge⟩))
    exact completes_of_retire hexec (sameSequencing_writeModulus s _) (onlyChanges_writeModulus s _) ⟨rfl, rfl⟩
  · have hcheck : ¬ modulusOk (xNat s rs1) = true := fun hok => by
      obtain ⟨hodd, hge⟩ := modulusOk_iff.mp hok
      omega
    exact faults_of_raise ((exec_setm rs1 s).trans (if_neg hcheck))

/-! ## Commands that end with a function of the selected modulus -/

section
variable {i : Instr} {s : State} {rd : Reg} {sel : ModSel}

theorem modularResult_selected {m : Nat} (h : SelectedModulus s sel m) (f : Nat → Nat) :
    modularResult s rd sel f = retire (writeXNat s rd (f m)) := by
  rw [modularResult, modulus_eq_ok.mpr h, finishWith_ok]

theorem modularResult_noModulus (h : NoModulus s sel) (f : Nat → Nat) :
    modularResult s rd sel f = raise .edomunset s := by
  rw [modularResult, modulus_eq_error h, finishWith_error]

/-- With the modulus m, a value below m is written as it is: m itself fits a register. -/
theorem completesX_of_modularResult {m : Nat} (f : Nat → Nat) (hsel : SelectedModulus s sel m)
    (hexec : exec i s = modularResult s rd sel f) (hlt : f m < m) (hm : m < 2 ^ 256) : CompletesX i s rd (f m) :=
  completesX_of_writeXNat (hlt.trans hm) (hexec.trans (modularResult_selected hsel f))

theorem faults_of_modularResult {f : Nat → Nat} (h : NoModulus s sel) (hexec : exec i s = modularResult s rd sel f) :
    Faults i s .edomunset :=
  faults_of_raise (hexec.trans (modularResult_noModulus h f))

/-- The rule of a modular command, from its word and the value it writes for an odd modulus of at least 3. -/
theorem modularCommand_of_exec {w : Word} {scale : Int} {value : State → Int} {f : State → Nat → Nat}
    (hw : decode w = .ok i) (hexec : ∀ s, exec i s = modularResult s rd sel (f s))
    (hf : ∀ s m, m % 2 = 1 → 3 ≤ m → f s m < m ∧ scale * f s m ≡ value s [ZMOD m]) :
    ModularCommand i w sel rd scale value := by
  refine ⟨encodedAs_of_decode hw, fun s => ⟨fun hno => faults_of_modularResult hno (hexec s), fun m hok hsel => ?_⟩⟩
  obtain ⟨hodd, hge, hm⟩ := selectedModulus_odd hok hsel
  obtain ⟨hlt, hmod⟩ := hf s m hodd hge
  exact ⟨f s m, hlt, hmod, completesX_of_modularResult (f s) hsel (hexec s) hlt hm⟩

end

/-! ## The residues of exact integers -/

section
variable {m : Nat} (h3 : 3 ≤ m)
include h3

theorem mod_isResidue (v : Nat) : v % m < m ∧ 1 * ((v % m : Nat) : Int) ≡ v [ZMOD m] :=
  ⟨Nat.mod_lt _ (by omega), by rw [one_mul]; exact natmod_modEq v m⟩

theorem subMod_isResidue (a b : Nat) : subMod a b m < m ∧ 1 * (subMod a b m : Int) ≡ (a : Int) - b [ZMOD m] :=
  ⟨subMod_lt a b (by omega), by rw [one_mul]; exact subMod_modEq a b (by omega)⟩

end

/-- Settles O21: each command writes the residue of its exact integer, MODSUB and MODNEG through `subMod`. -/
theorem plainModularCommands : Obligations.PlainModularCommands := by
  refine fun rd rs1 rs2 sel => ⟨?modadd, ?modsub, ?modneg, ?modred, ?modmul⟩
  case modadd =>
    refine modularCommand_of_exec (by simp [decode, decodeSel_ok, zeroSel3]) (fun _ => rfl) fun s m _ h3 => ?_
    exact_mod_cast mod_isResidue h3 (xNat s rs1 + xNat s rs2)
  case modsub =>
    exact modularCommand_of_exec (by simp [decode, decodeSel_ok, zeroSel3]) (fun _ => rfl)
      fun s _ _ h3 => subMod_isResidue h3 (xNat s rs1) (xNat s rs2)
  case modneg =>
    refine modularCommand_of_exec (by simp [decode, decodeSel_ok, zeroSel2, zeroSel3]) (fun _ => rfl)
      fun s m _ h3 => ?_
    simpa using subMod_isResidue h3 0 (xNat s rs1)
  case modred =>
    exact modularCommand_of_exec (by simp [decode, decodeSel_ok, zeroSel2, zeroSel3]) (fun _ => rfl)
      fun s _ _ h3 => mod_isResidue h3 (xNat s rs1)
  case modmul =>
    refine modularCommand_of_exec (by simp [decode, decodeSel_ok, zeroSel3]) (fun _ => rfl) fun s m _ h3 => ?_
    exact_mod_cast mod_isResidue h3 (xNat s rs1 * xNat s rs2)

/-! ## The Montgomery commands -/

section
variable {m : Nat} (hodd : m % 2 = 1) (h3 : 3 ≤ m)
include hodd h3

/-- The value MONTMUL and MONTRED write for the integer v (R120, R121). -/
theorem montReduce_isResidue (v : Nat) :
    v * montRInv m % m < m ∧ 2 ^ 256 * ((v * montRInv m % m : Nat) : Int) ≡ v [ZMOD m] :=
  ⟨Nat.mod_lt _ (by omega), mont_reduce hodd h3⟩

/-- A factor R and a factor R⁻¹ cancel (R119). -/
theorem mul_montR_mul_montRInv (v : Nat) : v * montR * montRInv m ≡ v [MOD m] := by
  have hone : montR * montRInv m ≡ 1 [MOD m] :=
    (montRInv_spec hodd h3).1.trans (Nat.mod_eq_of_lt (by omega)).symm
  calc v * montR * montRInv m = v * (montR * montRInv m) := mul_assoc ..
    _ ≡ v * 1 [MOD m] := hone.mul_left v
    _ = v := mul_one v

end

/-- Settles O22: MONTMUL and MONTRED by the cancellation of R and R⁻¹, TOMONT as a plain residue. -/
theorem montgomeryCommands : Obligations.MontgomeryCommands := by
  refine fun rd rs1 rs2 sel => ⟨?montmul, ?montred, ?tomont⟩
  case montmul =>
    refine modularCommand_of_exec (by simp [decode, decodeSel_ok, zeroSel3]) (fun _ => rfl) fun s m hodd h3 => ?_
    simpa using montReduce_isResidue hodd h3 (xNat s rs1 * xNat s rs2)
  case montred =>
    refine modularCommand_of_exec (by simp [decode, decodeSel_ok, zeroSel3]) (fun _ => rfl) fun s m hodd h3 => ?_
    exact_mod_cast montReduce_isResidue hodd h3 (xNat s rs1 * montR + xNat s rs2)
  case tomont =>
    refine modularCommand_of_exec (by simp [decode, decodeSel_ok, zeroSel2, zeroSel3]) (fun _ => rfl)
      fun s m _ h3 => ?_
    exact_mod_cast mod_isResidue h3 (xNat s rs1 * montR)

/-! ## The identities of R125 -/

section
variable {m : Nat} (h3 : 3 ≤ m) (hm : m < 2 ^ 256) (a b : Nat)
include h3 hm

theorem montmulGives : MontmulGives m a b (a * b * montRInv m % m) := by
  rintro s rd rs1 rs2 sel hsel rfl rfl
  exact completesX_of_modularResult (fun m => xNat s rs1 * xNat s rs2 * montRInv m % m) hsel rfl
    (Nat.mod_lt _ (by omega)) hm

theorem montredGives : MontredGives m a b ((a * montR + b) * montRInv m % m) := by
  rintro s rd rs1 rs2 sel hsel rfl rfl
  exact completesX_of_modularResult (fun m => (xNat s rs1 * montR + xNat s rs2) * montRInv m % m) hsel rfl
    (Nat.mod_lt _ (by omega)) hm

theorem tomontGives : TomontGives m a (a * montR % m) := by
  rintro s rd rs1 sel hsel rfl
  exact completesX_of_modularResult (fun m => xNat s rs1 * montR % m) hsel rfl (Nat.mod_lt _ (by omega)) hm

theorem modmulGives : ModmulGives m a b (a * b % m) := by
  rintro s rd rs1 rs2 sel hsel rfl rfl
  exact completesX_of_modularResult (fun m => xNat s rs1 * xNat s rs2 % m) hsel rfl (Nat.mod_lt _ (by omega)) hm

end

section
variable {m : Nat} (hodd : m % 2 = 1) (h3 : 3 ≤ m) (a b : Nat)
include hodd h3

/-- The Montgomery product of two Montgomery forms is the Montgomery form of the product. -/
theorem montmul_tomont_tomont :
    a * montR % m * (b * montR % m) * montRInv m ≡ a * b % m * montR [MOD m] :=
  calc a * montR % m * (b * montR % m) * montRInv m
      ≡ a * montR * (b * montR) * montRInv m [MOD m] :=
        ((Nat.mod_modEq _ m).mul (Nat.mod_modEq _ m)).mul_right _
    _ = a * b * montR * montR * montRInv m := by ring
    _ ≡ a * b * montR [MOD m] := mul_montR_mul_montRInv hodd h3 _
    _ ≡ a * b % m * montR [MOD m] := (Nat.mod_modEq _ m).symm.mul_right _

/-- Montgomery reduction takes a value out of its Montgomery form. -/
theorem montred_tomont : (0 * montR + a * montR % m) * montRInv m ≡ a [MOD m] :=
  calc (0 * montR + a * montR % m) * montRInv m
      = a * montR % m * montRInv m := by rw [zero_mul, zero_add]
    _ ≡ a * montR * montRInv m [MOD m] := (Nat.mod_modEq _ m).mul_right _
    _ ≡ a [MOD m] := mul_montR_mul_montRInv hodd h3 a

/-- The Montgomery product with R² is the Montgomery form. -/
theorem montmul_montR_sq : a * (montR ^ 2 % m) * montRInv m ≡ a * montR [MOD m] :=
  calc a * (montR ^ 2 % m) * montRInv m
      ≡ a * montR ^ 2 * montRInv m [MOD m] := ((Nat.mod_modEq _ m).mul_left a).mul_right _
    _ = a * montR * montR * montRInv m := by ring
    _ ≡ a * montR [MOD m] := mul_montR_mul_montRInv hodd h3 _

end

/-- Settles O23: each command's value is known, and the two sides of each identity are congruent. -/
theorem montgomeryIdentities : Obligations.MontgomeryIdentities := by
  intro m a b hodd h3 hm _ _
  have montmul := montmulGives h3 hm
  have montred := montredGives h3 hm
  have tomont := tomontGives h3 hm
  have modmul := modmulGives h3 hm
  obtain ⟨hinv, hlt⟩ := montRInv_spec hodd h3
  refine ⟨⟨_, _, _, tomont a, tomont b, montmul _ _, ?product⟩, ⟨_, tomont a, ?reduction⟩,
    ⟨_, _, montRInv m, hlt, (Nat.mod_mul_mod ..).trans hinv, montmul a b, modmul a b, ?inverse⟩,
    ⟨_, montmul a _, ?square⟩, ⟨_, montmul a 1, ?one⟩⟩
  case product =>
    rw [show _ % m = _ % m from montmul_tomont_tomont hodd h3 a b]
    exact tomont _
  case reduction =>
    rw [← show _ % m = _ % m from montred_tomont hodd h3 a]
    exact montred _ _
  case inverse =>
    rw [← Nat.mod_mul_mod (a * b)]
    exact modmul _ _
  case square =>
    rw [← montR, show _ % m = _ % m from montmul_montR_sq hodd h3 a]
    exact tomont a
  case one => simpa using montred 0 a

/-! ## MODINV -/

section
variable {s : State} (rd rs1 : Reg) {sel : ModSel}

theorem encodedAs_modinv :
    EncodedAs (.modinv rd rs1 sel) (packR 0x10 (regBits rd) (regBits rs1) 0 0 (selBits sel) 0 0) :=
  encodedAs_of_decode (by simp [decode, decodeSel_ok, zeroSel2, zeroSel3])

/-- With the modulus m MODINV ends with what `inverse` answers (R123). -/
theorem exec_modinv_selected {m : Nat} (h : SelectedModulus s sel m) :
    exec (.modinv rd rs1 sel) s = finishWith (inverse (xNat s rs1) m) s fun v => writeXNat s rd v := by
  change finishWith (modinvValue s rs1 sel) s _ = _
  rw [modinvValue, modulus_eq_ok.mpr h]

theorem exec_modinv_noModulus (h : NoModulus s sel) : exec (.modinv rd rs1 sel) s = raise .edomunset s := by
  change finishWith (modinvValue s rs1 sel) s _ = _
  rw [modinvValue, modulus_eq_error h, finishWith_error]

end

/-- Settles O24: with a modulus, the two cases of `inverse_cases`. -/
theorem modinvFindsInverse : Obligations.ModinvFindsInverse := by
  refine fun rd rs1 sel => ⟨encodedAs_modinv rd rs1, fun s =>
    ⟨fun hno => faults_of_raise (exec_modinv_noModulus rd rs1 hno), fun m hok hsel => ?_⟩⟩
  obtain ⟨-, hge, hm⟩ := selectedModulus_odd hok hsel
  have hexec := exec_modinv_selected rd rs1 hsel
  rw [(Nat.mod_modEq (xNat s rs1) m).gcd_eq]
  obtain ⟨hgcd, x, hx, hmul, hpos, hlt⟩ | ⟨hgcd, hx⟩ := inverse_cases (v := xNat s rs1) (m := m) (by omega)
  · rw [hx, finishWith_ok] at hexec
    exact ⟨fun _ => ⟨x, hpos, by omega, hmul, completesX_of_writeXNat (hlt.trans hm) hexec⟩, fun h => absurd hgcd h⟩
  · rw [hx, finishWith_error] at hexec
    exact ⟨fun h => absurd h hgcd, fun _ => faults_of_raise hexec⟩

end Sys2Proof.Machine
end

section
/-! PROOFS for 42_sqrt.md: MODSQRT (R135). The selected modulus is at least 3, so by `squareRoot_iff` the relation of
R137 and the machine's `sqrtMod` give the same answer, and MODSQRT ends with it. -/

namespace Sys2Proof.Machine

section
variable {s : State} (rd rs1 : Reg) {sel : ModSel}

theorem encodedAs_modsqrt :
    EncodedAs (.modsqrt rd rs1 sel) (packR 0x11 (regBits rd) (regBits rs1) 0 0 (selBits sel) 0 0) :=
  encodedAs_of_decode (by simp [decode, decodeSel_ok, zeroSel2, zeroSel3])

theorem exec_modsqrt_noModulus (h : NoModulus s sel) : exec (.modsqrt rd rs1 sel) s = raise .edomunset s := by
  change finishWith (modsqrtValue s rs1 sel) s _ = _
  rw [modsqrtValue, modulus_eq_error h, finishWith_error]

/-- With the modulus m MODSQRT ends with what `sqrtMod` answers (R135). -/
theorem exec_modsqrt_selected {m : Nat} (h : SelectedModulus s sel m) :
    exec (.modsqrt rd rs1 sel) s = finishWith (sqrtMod (xNat s rs1) m) s fun v => writeXNat s rd v := by
  change finishWith (modsqrtValue s rs1 sel) s _ = _
  rw [modsqrtValue, modulus_eq_ok.mpr h]

/-- MODSQRT ends with any answer of the relation of R137. -/
theorem exec_modsqrt_of_squareRoot {m : Nat} {out : Except Cause Nat} (hsel : SelectedModulus s sel m) (hm : 3 ≤ m)
    (hout : SquareRoot (xNat s rs1) m out) :
    exec (.modsqrt rd rs1 sel) s = finishWith out s fun v => writeXNat s rd v := by
  rw [exec_modsqrt_selected rd rs1 hsel, (squareRoot_iff hm).mp hout]

/-- A root lies below the modulus, so it fits X[rd]. -/
theorem completesX_modsqrt {m r : Nat} (hok : StateOk s) (hsel : SelectedModulus s sel m)
    (hroot : SquareRoot (xNat s rs1) m (.ok r)) : CompletesX (.modsqrt rd rs1 sel) s rd r := by
  obtain ⟨-, hge, hm⟩ := selectedModulus_odd hok hsel
  exact completesX_of_writeXNat ((squareRoot_lt hge hroot).trans hm) (exec_modsqrt_of_squareRoot rd rs1 hsel hge hroot)

theorem faults_modsqrt {m : Nat} {c : Cause} (hok : StateOk s) (hsel : SelectedModulus s sel m)
    (hfault : SquareRoot (xNat s rs1) m (.error c)) : Faults (.modsqrt rd rs1 sel) s c := by
  obtain ⟨-, hge, -⟩ := selectedModulus_odd hok hsel
  exact faults_of_raise (exec_modsqrt_of_squareRoot rd rs1 hsel hge hfault)

end

/-- Settles O26: without the modulus EDOMUNSET; with it `sqrtMod` itself is an answer of the relation, and MODSQRT
ends with every answer the relation has. -/
theorem modsqrtFollowsTonelliShanks : Obligations.ModsqrtFollowsTonelliShanks := by
  refine fun rd rs1 sel => ⟨encodedAs_modsqrt rd rs1, fun s =>
    ⟨fun hno => faults_of_raise (exec_modsqrt_noModulus rd rs1 hno), fun m hok hsel => ?_⟩⟩
  obtain ⟨-, hge, -⟩ := selectedModulus_odd hok hsel
  exact ⟨⟨_, sqrtMod_spec (xNat s rs1) m hge⟩, fun _ => completesX_modsqrt rd rs1 hok hsel,
    fun _ => faults_modsqrt rd rs1 hok hsel⟩

end Sys2Proof.Machine
end

section
/-! PROOFS for 43_domain.md: DOMCRV (R145, R146), DOMORD (R148), DOMGEN (R151). Each retires with one write of the
domain registers, so one frame lemma (`onlyChanges_writeDomain`) serves all three; DOMCRV also empties the point
registers. -/

namespace Sys2Proof.Machine

/-! ## The writes of the domain and of all point registers -/

/-- Effects that touch no sequencing state, one after the other. -/
theorem SameSequencing.trans {s u v : State} (h : SameSequencing s u) (h' : SameSequencing u v) :
    SameSequencing s v where
  cmdidx := h'.cmdidx.trans h.cmdidx
  queue := h'.queue.trans h.queue
  errs := h'.errs.trans h.errs
  irqEn := h'.irqEn.trans h.irqEn
  irqStatus := h'.irqStatus.trans h.irqStatus
  free := h'.free.trans h.free
  bus := h'.bus.trans h.bus

theorem sameSequencing_writeDomain (s : State) (d : Domain) : SameSequencing s (writeDomain s d) := by
  constructor <;> simp

theorem sameSequencing_emptyPoints (s : State) : SameSequencing s (emptyPoints s) := by
  constructor <;> simp

/-- Outside the domain registers a write of them changes nothing; inside, what the new values say. -/
theorem onlyChanges_writeDomain {parts : List Part} {s : State} {d : Domain}
    (hdomain : ∀ part ∈ [Part.curve, .order, .base], part ∉ parts → part.unchanged s (writeDomain s d)) :
    OnlyChanges parts s (writeDomain s d) := by
  intro part hp
  cases part
  case curve | order | base => exact hdomain _ (by simp) hp
  case x => exact fun r => readX_congr rfl r
  case points => exact fun r => readPT_congr rfl r
  case memory => exact fun a => readByte_congr rfl rfl a
  all_goals simp [Part.unchanged]

theorem onlyChanges_emptyPoints (s : State) : OnlyChanges [.points] s (emptyPoints s) := by
  intro part hp
  cases part
  case points => simp at hp
  case x => exact fun r => readX_congr rfl r
  case memory => exact fun a => readByte_congr rfl rfl a
  all_goals simp [Part.unchanged]

/-! ## DOMCRV -/

/-- The two ways to fail the modulus check (R145, R148). -/
theorem modulusOk_eq_false {v : Nat} (h : v % 2 = 0 ∨ v < 3) : modulusOk v = false := by
  rw [Bool.eq_false_iff, ne_eq, modulusOk_iff]
  omega

theorem singular_iff {p a b : Nat} : singular p a b = true ↔ (4 * a ^ 3 + 27 * b ^ 2) % p = 0 := beq_iff_eq

theorem encodedAs_domcrv (rs1 rs2 rs3 : Reg) :
    EncodedAs (.domcrv rs1 rs2 rs3) (packR 0x18 0 (regBits rs1) (regBits rs2) (regBits rs3) 0 0 0) :=
  encodedAs_of_decode (by simp [decode, decodeZero_ok])

/-- What DOMCRV does (R145, R146): the two checks, then the write of the domain and of the point registers. -/
theorem exec_domcrv {rs1 rs2 rs3 : Reg} {s : State} {p a b : Nat} (hp : p = xNat s rs1) (ha : a = xNat s rs2 % p)
    (hb : b = xNat s rs3 % p) : exec (.domcrv rs1 rs2 rs3) s =
    if modulusOk p = true then
      if singular p a b = true then raise .esingular s
      else retire (emptyPoints (writeDomain s (curveDomain p a b)))
    else raise .emodulus s := by
  subst ha hb hp
  change execDomcrv rs1 rs2 rs3 s = _
  cases hok : modulusOk (xNat s rs1) <;> simp [execDomcrv, hok]

/-- The frame of DOMCRV: all of the domain, and the point registers. -/
theorem onlyChanges_domcrv (s : State) (d : Domain) :
    OnlyChanges [.curve, .order, .base, .points] s (emptyPoints (writeDomain s d)) :=
  OnlyChanges.trans (p := [.curve, .order, .base])
    (onlyChanges_writeDomain fun _ hdomain hnot => absurd hdomain hnot) (onlyChanges_emptyPoints _)

/-- An integer that is not above a register's value fits a register. -/
theorem toNat_ofNat_of_le_xNat {s : State} {r : Reg} {v : Nat} (h : v ≤ xNat s r) :
    (BitVec.ofNat 256 v).toNat = v := by
  rw [BitVec.toNat_ofNat, Nat.mod_eq_of_lt (h.trans_lt (BitVec.isLt _))]

/-- Settles O28: one outcome of `exec_domcrv` for each case of the two checks. -/
theorem domcrvReplacesTheDomain : Obligations.DomcrvReplacesTheDomain := by
  refine fun rs1 rs2 rs3 => ⟨encodedAs_domcrv rs1 rs2 rs3, fun s p a b hp ha hb => ?_⟩
  have hexec := exec_domcrv hp ha hb
  refine ⟨fun hbad => ?emodulus, fun hodd h3 hzero => ?esingular, fun hodd h3 hnonzero => ?completes⟩
  case emodulus => exact faults_of_raise (hexec.trans (if_neg (by simp [modulusOk_eq_false hbad])))
  case esingular =>
    rw [if_pos (modulusOk_iff.mpr ⟨hodd, h3⟩), if_pos (singular_iff.mpr hzero)] at hexec
    exact faults_of_raise hexec
  case completes =>
    rw [if_pos (modulusOk_iff.mpr ⟨hodd, h3⟩), if_neg (mt singular_iff.mp hnonzero)] at hexec
    have stored : ∀ v ≤ p, (BitVec.ofNat 256 v).toNat = v := fun v hv => toNat_ofNat_of_le_xNat (hp ▸ hv)
    have residue : ∀ v, v % p ≤ p := fun v => (Nat.mod_lt v (by omega)).le
    exact completes_of_retire hexec ((sameSequencing_writeDomain s _).trans (sameSequencing_emptyPoints _))
      (onlyChanges_domcrv s _) ⟨stored p le_rfl, stored a (ha ▸ residue _), stored b (hb ▸ residue _),
        rfl, rfl, rfl, rfl, rfl, rfl, fun r => (readPT_congr (retired_pt _) r).trans (readPT_emptyPoints _ r)⟩

/-! ## DOMORD and DOMGEN -/

section
variable (rs1 rs2 : Reg) (s : State)

theorem encodedAs_domord : EncodedAs (.domord rs1 rs2) (packR 0x19 0 (regBits rs1) (regBits rs2) 0 0 0 0) :=
  encodedAs_of_decode (by simp [decode, decodeZero_ok, zeroFromRs3])

theorem encodedAs_domgen : EncodedAs (.domgen rs1) (packR 0x1A 0 (regBits rs1) 0 0 0 0 0) :=
  encodedAs_of_decode (by simp [decode, decodeZero_ok, zeroFromRs2, zeroFromRs3])

/-- What DOMORD does (R148): EDOMUNSET before EMODULUS, then the write of DN, DH and ORD. -/
theorem exec_domord : exec (.domord rs1 rs2) s =
    if s.dom.crv = true then
      if modulusOk (xNat s rs1) = true then
        retire (writeDomain s { s.dom with dn := readX s rs1, dh := readX s rs2, ord := true })
      else raise .emodulus s
    else raise .edomunset s := by
  change execDomord rs1 rs2 s = _
  cases hcrv : s.dom.crv <;> cases hn : modulusOk (xNat s rs1) <;> simp [execDomord, hcrv, hn]

/-- DOMGEN with a curve and a point that is not EMPTY (R151); its checks are `checksPoints_domgen`. -/
theorem exec_domgen_of_ne_empty (hcrv : s.dom.crv = true) (hr : readPT s rs1 ≠ .empty) :
    exec (.domgen rs1) s = retire (writeDomain s { s.dom with dg := readPT s rs1, gen := true }) := by
  change execDomgen rs1 s = _
  rw [execDomgen, if_neg (by simp [hcrv]), if_neg hr]

theorem onlyChanges_writeOrder (n h : Big) (b : Bool) :
    OnlyChanges [.order] s (writeDomain s { s.dom with dn := n, dh := h, ord := b }) :=
  onlyChanges_writeDomain <| by simp [Part.unchanged]

theorem onlyChanges_writeBase (g : PointReg) (b : Bool) :
    OnlyChanges [.base] s (writeDomain s { s.dom with dg := g, gen := b }) :=
  onlyChanges_writeDomain <| by simp [Part.unchanged]

end

/-- Settles O29: DOMORD by the outcomes of `exec_domord`; DOMGEN makes the checks of a point command and has one other
outcome. -/
theorem domordAndDomgenConfigure : Obligations.DomordAndDomgenConfigure := by
  refine ⟨fun rs1 rs2 => ⟨encodedAs_domord rs1 rs2, fun s => ?domord⟩,
    fun rs1 => ⟨encodedAs_domgen rs1, fun s => ⟨checksPoints_domgen s rs1, fun hcrv hr => ?domgen⟩⟩⟩
  case domord =>
    have hexec := exec_domord rs1 rs2 s
    refine ⟨fun hunset => ?edomunset, fun hcrv hbad => ?emodulus, fun hcrv hodd h3 => ?completes⟩
    case edomunset => exact faults_of_raise (hexec.trans (if_neg (by simp [hunset])))
    case emodulus =>
      rw [if_pos hcrv, if_neg (by simp [modulusOk_eq_false hbad])] at hexec
      exact faults_of_raise hexec
    case completes =>
      rw [if_pos hcrv, if_pos (modulusOk_iff.mpr ⟨hodd, h3⟩)] at hexec
      exact completes_of_retire hexec (sameSequencing_writeDomain s _) (onlyChanges_writeOrder s _ _ _)
        ⟨rfl, rfl, rfl⟩
  case domgen =>
    exact completes_of_retire (exec_domgen_of_ne_empty rs1 s hcrv hr) (sameSequencing_writeDomain s _)
      (onlyChanges_writeBase s _ _) ⟨rfl, rfl⟩

end Sys2Proof.Machine
end

section
/-! PROOFS for 44_point.md: the loads of a point register (R159 to R161, R164), the reads of one (R162, R163, R165,
R166), and PADD, PDBL and PNEG (R155, R156, R167 to R169). A command that reads points makes the checks of
`ChecksPoints` and then goes on with the points it read (`exec_of_curvePoint`); the sum is one lemma about `pointAdd`
for the two commands that end with it (`EndsWithSum`). -/

namespace Sys2Proof.Machine

/-! ## The words of the point commands -/

section
variable (rd rs1 rs2 : Reg)

theorem encodedAs_pinf : EncodedAs (.pinf rd) (packR 0x20 (regBits rd) 0 0 0 0 0 0) :=
  encodedAs_of_decode (by simp [decode, decodeZero_ok, zeroFromRs1, zeroFromRs2, zeroFromRs3])

theorem encodedAs_pgen : EncodedAs (.pgen rd) (packR 0x21 (regBits rd) 0 0 0 0 0 0) :=
  encodedAs_of_decode (by simp [decode, decodeZero_ok, zeroFromRs1, zeroFromRs2, zeroFromRs3])

theorem encodedAs_pset :
    EncodedAs (.pset rd rs1 rs2) (packR 0x22 (regBits rd) (regBits rs1) (regBits rs2) 0 0 0 0) :=
  encodedAs_of_decode (by simp [decode, decodeZero_ok, zeroFromRs3])

theorem encodedAs_pgetx : EncodedAs (.pgetx rd rs1) (packR 0x23 (regBits rd) (regBits rs1) 0 0 0 0 0) :=
  encodedAs_of_decode (by simp [decode, decodeZero_ok, zeroFromRs2, zeroFromRs3])

theorem encodedAs_pgety : EncodedAs (.pgety rd rs1) (packR 0x24 (regBits rd) (regBits rs1) 0 0 0 0 0) :=
  encodedAs_of_decode (by simp [decode, decodeZero_ok, zeroFromRs2, zeroFromRs3])

theorem encodedAs_pmov : EncodedAs (.pmov rd rs1) (packR 0x25 (regBits rd) (regBits rs1) 0 0 0 0 0) :=
  encodedAs_of_decode (by simp [decode, decodeZero_ok, zeroFromRs2, zeroFromRs3])

theorem encodedAs_peq : EncodedAs (.peq rs1 rs2) (packR 0x26 0 (regBits rs1) (regBits rs2) 0 0 0 0) :=
  encodedAs_of_decode (by simp [decode, decodeZero_ok, zeroFromRs3])

theorem encodedAs_pisinf : EncodedAs (.pisinf rs1) (packR 0x27 0 (regBits rs1) 0 0 0 0 0) :=
  encodedAs_of_decode (by simp [decode, decodeZero_ok, zeroFromRs2, zeroFromRs3])

theorem encodedAs_padd :
    EncodedAs (.padd rd rs1 rs2) (packR 0x28 (regBits rd) (regBits rs1) (regBits rs2) 0 0 0 0) :=
  encodedAs_of_decode (by simp [decode, decodeZero_ok, zeroFromRs3])

theorem encodedAs_pdbl : EncodedAs (.pdbl rd rs1) (packR 0x29 (regBits rd) (regBits rs1) 0 0 0 0 0) :=
  encodedAs_of_decode (by simp [decode, decodeZero_ok, zeroFromRs2, zeroFromRs3])

theorem encodedAs_pneg : EncodedAs (.pneg rd rs1) (packR 0x2A (regBits rd) (regBits rs1) 0 0 0 0 0) :=
  encodedAs_of_decode (by simp [decode, decodeZero_ok, zeroFromRs2, zeroFromRs3])

end

/-! ## Commands that go on with the points they read -/

section
variable {s : State}

/-- A command without sources makes one check. -/
theorem checksPoints_nil {i : Instr} (h : s.dom.crv = false → Faults i s .edomunset) : ChecksPoints i s [] :=
  ⟨h, fun _ hempty => by simp at hempty⟩

theorem exec_of_curvePoint (i : Instr) {r : Reg} {q : Point} {k : Point → State}
    (hexec : exec i s = finishWith (curvePoint s r) s k) (hcrv : s.dom.crv = true) (hq : ptPoint s r = some q) :
    exec i s = retire (k q) := by
  rw [hexec, curvePoint_ok hcrv hq, finishWith_ok]

theorem exec_of_curvePoints (i : Instr) {r r' : Reg} {q q' : Point} {k : Point × Point → State}
    (hexec : exec i s = finishWith (curvePoints s r r') s k) (hcrv : s.dom.crv = true) (hq : ptPoint s r = some q)
    (hq' : ptPoint s r' = some q') : exec i s = retire (k (q, q')) := by
  rw [hexec, curvePoints_ok hcrv hq hq', finishWith_ok]

end

/-! ## PINF, PGEN, PSET and PMOV -/

section
variable (s : State) (rd rs1 rs2 : Reg)

theorem exec_pinf : exec (.pinf rd) s =
    if s.dom.crv = true then retire (writePT s rd .inf) else raise .edomunset s := rfl

theorem checksPoints_pinf : ChecksPoints (.pinf rd) s [] :=
  checksPoints_nil fun hcrv => faults_of_raise ((exec_pinf s rd).trans (if_neg (by simp [hcrv])))

/-- What PGEN does (R160): both valid bits are needed. -/
theorem exec_pgen : exec (.pgen rd) s =
    if s.dom.crv = true ∧ s.dom.gen = true then retire (writePT s rd s.dom.dg) else raise .edomunset s := by
  change execPgen rd s = _
  cases hcrv : s.dom.crv <;> cases hgen : s.dom.gen <;> simp [execPgen, hcrv, hgen]

/-- What PSET does (R161): EDOMUNSET before ERANGE. -/
theorem exec_pset : exec (.pset rd rs1 rs2) s =
    if s.dom.crv = true then
      if fieldP s ≤ xNat s rs1 ∨ fieldP s ≤ xNat s rs2 then raise .erange s
      else retire (writePT s rd (.aff (readX s rs1) (readX s rs2)))
    else raise .edomunset s := by
  change execPset rd rs1 rs2 s = _
  cases hcrv : s.dom.crv <;> simp [execPset, hcrv]

theorem checksPoints_pset : ChecksPoints (.pset rd rs1 rs2) s [] :=
  checksPoints_nil fun hcrv => faults_of_raise ((exec_pset s rd rs1 rs2).trans (if_neg (by simp [hcrv])))

end

/-- Settles O30: PINF, PGEN and PSET by the outcomes of their `exec` lemmas; PMOV goes on with the point it read. -/
theorem pointLoads : Obligations.PointLoads := by
  refine ⟨fun rd => ⟨encodedAs_pinf rd, fun s => ⟨checksPoints_pinf s rd, fun hcrv => ?pinf⟩⟩,
    fun rd => ⟨encodedAs_pgen rd, fun s => ⟨fun hunset => ?pgenUnset, fun hcrv hgen => ?pgen⟩⟩,
    fun rd rs1 rs2 => ⟨encodedAs_pset rd rs1 rs2, fun s =>
      ⟨checksPoints_pset s rd rs1 rs2, fun hcrv hrange => ?psetRange, fun hcrv hx hy => ?pset⟩⟩,
    fun rd rs1 => ⟨encodedAs_pmov rd rs1, fun s => ⟨checksPoints_pmov s rd rs1, fun hcrv hr => ?pmov⟩⟩⟩
  case pinf => exact completesPoint_of_writePT ((exec_pinf s rd).trans (if_pos hcrv))
  case pgenUnset =>
    have hnot : ¬(s.dom.crv = true ∧ s.dom.gen = true) := fun ⟨hcrv, hgen⟩ => by simp [hcrv, hgen] at hunset
    exact faults_of_raise ((exec_pgen s rd).trans (if_neg hnot))
  case pgen => exact completesPoint_of_writePT ((exec_pgen s rd).trans (if_pos ⟨hcrv, hgen⟩))
  case psetRange => exact faults_of_raise ((exec_pset s rd rs1 rs2).trans ((if_pos hcrv).trans (if_pos hrange)))
  case pset =>
    have hinside : ¬(fieldP s ≤ xNat s rs1 ∨ fieldP s ≤ xNat s rs2) := not_or.mpr ⟨hx.not_ge, hy.not_ge⟩
    exact completesPoint_of_writePT ((exec_pset s rd rs1 rs2).trans ((if_pos hcrv).trans (if_neg hinside)))
  case pmov =>
    obtain ⟨q, hq, -⟩ := ptPoint_of_ne_empty hr
    exact completesPoint_of_writePT (exec_of_curvePoint (.pmov rd rs1) rfl hcrv hq)

/-! ## PGETX, PGETY, PEQ and PISINF -/

/-- A command that retires with a write of X[rd] and then of F. -/
theorem completes_of_writeXNat_writeF {i : Instr} {s : State} {rd : Reg} {v : Nat} {b : Bool} (hv : v < 2 ^ 256)
    (h : exec i s = retire (writeF (writeXNat s rd v) b)) :
    Completes i s [.x, .flag] fun t => XWritten s rd v t ∧ t.f = b :=
  completes_of_retire h ((sameSequencing_writeX s rd _).trans (sameSequencing_writeF _ b))
    ((onlyChanges_writeX s rd _).trans (onlyChanges_writeF _ b))
    ⟨fun r => (congrArg BitVec.toNat (readX_congr rfl r)).trans (xWritten_writeXNat s rd hv r), rfl⟩

/-- Two register values are equal exactly when they hold the same point. -/
theorem toPoint_eq_iff {v w : PointReg} {q r : Point} (hq : v.toPoint = some q) (hr : w.toPoint = some r) :
    q = r ↔ v = w := by
  constructor
  · rintro rfl
    rw [← toReg_of_toPoint hq, toReg_of_toPoint hr]
  · rintro rfl
    exact Option.some.inj (hq.symm.trans hr)

theorem flagPointsEqual_eq_decide {v w : PointReg} {q r : Point} (hq : v.toPoint = some q) (hr : w.toPoint = some r) :
    flagPointsEqual q r = decide (v = w) :=
  (beq_eq_decide q r).trans (decide_eq_decide.mpr (toPoint_eq_iff hq hr))

theorem flagIsInf_eq_decide {v : PointReg} {q : Point} (hq : v.toPoint = some q) :
    flagIsInf q = decide (v = .inf) := by
  have hflag : flagIsInf q = decide (q = .inf) := by cases q <;> rfl
  exact hflag.trans (decide_eq_decide.mpr (toPoint_eq_iff hq rfl))

section
variable {s : State} {r : Reg} {q : Point} (hcrv : s.dom.crv = true) (hq : ptPoint s r = some q) (rd : Reg)
include hcrv hq

/-- PGETX writes the x coordinate and whether the point is INF (R162). -/
theorem completes_pgetx (hlt : q.xCoord < 2 ^ 256) : Completes (.pgetx rd r) s [.x, .flag] fun t =>
    XWritten s rd q.xCoord t ∧ t.f = flagIsInf q :=
  completes_of_writeXNat_writeF hlt (exec_of_curvePoint (.pgetx rd r) rfl hcrv hq)

/-- PGETY writes the y coordinate and whether the point is INF (R163). -/
theorem completes_pgety (hlt : q.yCoord < 2 ^ 256) : Completes (.pgety rd r) s [.x, .flag] fun t =>
    XWritten s rd q.yCoord t ∧ t.f = flagIsInf q :=
  completes_of_writeXNat_writeF hlt (exec_of_curvePoint (.pgety rd r) rfl hcrv hq)

end

theorem ptPoint_of_inf {s : State} {r : Reg} (h : readPT s r = .inf) : ptPoint s r = some .inf :=
  congrArg PointReg.toPoint h

theorem ptPoint_of_aff {s : State} {r : Reg} {x y : Big} (h : readPT s r = .aff x y) :
    ptPoint s r = some (.aff x.toNat y.toNat) :=
  congrArg PointReg.toPoint h

/-- Settles O31: PGETX and PGETY for INF and for an affine value; PEQ and PISINF write a comparison of points, which is
one of register values. -/
theorem pointReads : Obligations.PointReads := by
  refine ⟨fun rd rs1 => ⟨encodedAs_pgetx rd rs1, encodedAs_pgety rd rs1, fun s =>
      ⟨checksPoints_pgetx s rd rs1, checksPoints_pgety s rd rs1, fun hcrv hr => ?inf, fun x y hcrv hr => ?aff⟩⟩,
    fun rs1 rs2 => ⟨encodedAs_peq rs1 rs2, fun s => ⟨checksPoints_peq s rs1 rs2, fun hcrv h1 h2 => ?peq⟩⟩,
    fun rs1 => ⟨encodedAs_pisinf rs1, fun s => ⟨checksPoints_pisinf s rs1, fun hcrv hr => ?pisinf⟩⟩⟩
  case inf =>
    have hq := ptPoint_of_inf hr
    exact ⟨completes_pgetx hcrv hq rd (Nat.two_pow_pos _), completes_pgety hcrv hq rd (Nat.two_pow_pos _)⟩
  case aff =>
    have hq := ptPoint_of_aff hr
    exact ⟨completes_pgetx hcrv hq rd x.isLt, completes_pgety hcrv hq rd y.isLt⟩
  case peq =>
    obtain ⟨q1, hq1, -⟩ := ptPoint_of_ne_empty h1
    obtain ⟨q2, hq2, -⟩ := ptPoint_of_ne_empty h2
    rw [← flagPointsEqual_eq_decide hq1 hq2]
    exact completesFlag_of_writeF (exec_of_curvePoints (.peq rs1 rs2) rfl hcrv hq1 hq2)
  case pisinf =>
    obtain ⟨q, hq, -⟩ := ptPoint_of_ne_empty hr
    rw [← flagIsInf_eq_decide hq]
    exact completesFlag_of_writeF (exec_of_curvePoint (.pisinf rs1) rfl hcrv hq)

/-! ## What PointAdd answers -/

section
variable {p a x1 y1 x2 y2 : Nat}

theorem pointAdd_inf_left (p a : Nat) (q : Point) : pointAdd p a .inf q = .ok q := by cases q <;> rfl

theorem pointAdd_inf_right (p a : Nat) (q : Point) : pointAdd p a q .inf = .ok q := by cases q <;> rfl

/-- A vertical chord or tangent gives INF. -/
theorem pointAdd_vertical {x : Nat} (hy : y1 ≠ y2 ∨ y1 = 0) :
    pointAdd p a (.aff x y1) (.aff x y2) = .ok .inf := by
  rw [pointAdd, if_neg (by simp)]
  by_cases heq : y1 = y2
  · rw [if_neg (not_not.mpr heq), if_pos (hy.resolve_left (not_not.mpr heq))]
  · rw [if_pos heq]

/-- Any other chord or tangent: residues of the numerator and the denominator of its slope, and PointAdd needs the
inverse of the latter. -/
theorem pointAdd_slope (hp : p ≠ 0) (h : x1 ≠ x2 ∨ (y1 = y2 ∧ y1 ≠ 0)) : ∃ num den : Nat,
    (num : Int) ≡ (slopeParts a x1 y1 x2 y2).1 [ZMOD p] ∧ (den : Int) ≡ (slopeParts a x1 y1 x2 y2).2 [ZMOD p] ∧
      pointAdd p a (.aff x1 y1) (.aff x2 y2) = (inverse den p).map fun d => chordPoint p (num * d % p) x1 y1 x2 := by
  by_cases hx : x1 = x2
  case neg =>
    have hslope : slopeParts a x1 y1 x2 y2 = ((y2 : Int) - y1, (x2 : Int) - x1) := if_neg (by exact_mod_cast hx)
    refine ⟨subMod y2 y1 p, subMod x2 x1 p, hslope ▸ subMod_modEq y2 y1 hp, hslope ▸ subMod_modEq x2 x1 hp, ?_⟩
    rw [pointAdd, if_pos hx]
    cases inverse (subMod x2 x1 p) p <;> rfl
  case pos =>
    obtain ⟨rfl, hy⟩ : y1 = y2 ∧ y1 ≠ 0 := h.resolve_left (not_not.mpr hx)
    subst hx
    have hslope : slopeParts a x1 y1 x1 y1 = (3 * (x1 : Int) ^ 2 + a, 2 * (y1 : Int)) := if_pos rfl
    have hnum : ((3 * x1 * x1 + a : Nat) : Int) = 3 * (x1 : Int) ^ 2 + a := by push_cast; ring
    have hden : ((2 * y1 : Nat) : Int) = 2 * (y1 : Int) := by push_cast; rfl
    refine ⟨3 * x1 * x1 + a, 2 * y1, by rw [hslope, hnum], by rw [hslope, hden], ?_⟩
    rw [pointAdd, if_neg (by simp), if_neg (by simp), if_neg hy]
    cases inverse (2 * y1) p <;> rfl

/-- A slope whose denominator is invertible gives the reduced third point (R155). -/
theorem pointAdd_third (hp : 2 ≤ p) (hlt : p ≤ 2 ^ 256) (h : x1 ≠ x2 ∨ (y1 = y2 ∧ y1 ≠ 0))
    (hgcd : Int.gcd (slopeParts a x1 y1 x2 y2).2 p = 1) : ∃ q x3 y3,
    pointAdd p a (.aff x1 y1) (.aff x2 y2) = .ok q ∧ q.toReg = .aff x3 y3 ∧
      ThirdPoint p (slopeParts a x1 y1 x2 y2) x1 y1 x2 x3 y3 := by
  obtain ⟨num, den, hnum, hden, hadd⟩ := pointAdd_slope (p := p) (a := a) (by omega) h
  obtain ⟨d, hinv, hl⟩ := (inv_slope hp hden hnum).1 hgcd
  obtain ⟨x3, y3, hthird, hreg⟩ := chordPoint_third (x1 := x1) (y1 := y1) (x2 := x2) (by omega) hlt hl
  exact ⟨_, x3, y3, by rw [hadd, hinv]; rfl, hreg, hthird⟩

/-- A slope whose denominator is not invertible raises ENOINV (R155). -/
theorem pointAdd_enoinv (hp : 2 ≤ p) (h : x1 ≠ x2 ∨ (y1 = y2 ∧ y1 ≠ 0))
    (hgcd : Int.gcd (slopeParts a x1 y1 x2 y2).2 p ≠ 1) :
    pointAdd p a (.aff x1 y1) (.aff x2 y2) = .error .enoinv := by
  obtain ⟨num, den, hnum, hden, hadd⟩ := pointAdd_slope (p := p) (a := a) (by omega) h
  rw [hadd, (inv_slope hp hden hnum).2 hgcd]
  rfl

end

/-! ## PADD, PDBL and PNEG -/

/-- The instruction ends with what PointAdd answers for two register values that hold points. -/
def EndsWithSum (i : Instr) (s : State) (rd : Reg) (v w : PointReg) : Prop :=
  ∀ q r, v.toPoint = some q → w.toPoint = some r →
    exec i s = finishWith (pointAdd (fieldP s) (coeffA s) q r) s fun sum => writePT s rd sum.toReg

section
variable {i : Instr} {s : State} {rd : Reg} {v w : PointReg} {q r : Point}

theorem EndsWithSum.completes {sum : Point} (h : EndsWithSum i s rd v w) (hq : v.toPoint = some q)
    (hr : w.toPoint = some r) (hsum : pointAdd (fieldP s) (coeffA s) q r = .ok sum) :
    CompletesPoint i s rd sum.toReg :=
  completesPoint_of_writePT (by rw [h q r hq hr, hsum, finishWith_ok])

theorem EndsWithSum.faults {c : Cause} (h : EndsWithSum i s rd v w) (hq : v.toPoint = some q)
    (hr : w.toPoint = some r) (hsum : pointAdd (fieldP s) (coeffA s) q r = .error c) : Faults i s c :=
  faults_of_raise (by rw [h q r hq hr, hsum, finishWith_error])

theorem toPoint_of_ne_empty (h : v ≠ .empty) : ∃ q, v.toPoint = some q ∧ q.toReg = v := by
  cases v with
  | empty => exact absurd rfl h
  | inf => exact ⟨_, rfl, rfl⟩
  | aff x y => exact ⟨_, rfl, toReg_of_toPoint rfl⟩

theorem EndsWithSum.inf_left (h : EndsWithSum i s rd .inf v) (hv : v ≠ .empty) : CompletesPoint i s rd v := by
  obtain ⟨q, hq, hreg⟩ := toPoint_of_ne_empty hv
  exact hreg ▸ h.completes rfl hq (pointAdd_inf_left _ _ q)

theorem EndsWithSum.inf_right (h : EndsWithSum i s rd v .inf) (hv : v ≠ .empty) : CompletesPoint i s rd v := by
  obtain ⟨q, hq, hreg⟩ := toPoint_of_ne_empty hv
  exact hreg ▸ h.completes hq rfl (pointAdd_inf_right _ _ q)

/-- The sum of two affine values, in a state whose p is at least 2. -/
theorem EndsWithSum.aff {x1 y1 x2 y2 : Big} (h : EndsWithSum i s rd (.aff x1 y1) (.aff x2 y2))
    (hp : 2 ≤ fieldP s) : AddsPoints i s rd (.aff x1 y1) (.aff x2 y2) := by
  refine ⟨fun ⟨hx, hy⟩ => ?vertical, fun hline => ?line⟩
  case vertical =>
    subst hx
    refine h.completes rfl rfl (pointAdd_vertical (hy.imp (mt BitVec.eq_of_toNat_eq) ?_))
    rintro rfl
    rfl
  case line =>
    have hline' : x1.toNat ≠ x2.toNat ∨ (y1.toNat = y2.toNat ∧ y1.toNat ≠ 0) :=
      hline.imp (mt BitVec.eq_of_toNat_eq) fun ⟨hy, hy0⟩ => ⟨congrArg _ hy, BitVec.toNat_ne_iff_ne.mpr hy0⟩
    refine ⟨fun hgcd => ?_, fun hgcd => h.faults rfl rfl (pointAdd_enoinv hp hline' hgcd)⟩
    obtain ⟨sum, x3, y3, hsum, hreg, hthird⟩ := pointAdd_third hp (BitVec.isLt _).le hline' hgcd
    exact ⟨x3, y3, hthird, hreg ▸ h.completes rfl rfl hsum⟩

/-- A command that ends with the sum follows the cases of R155. -/
theorem EndsWithSum.addsPoints (hp : 2 ≤ fieldP s) (h : EndsWithSum i s rd v w) : AddsPoints i s rd v w := by
  match v, w with
  | .inf, _ => exact h.inf_left
  | .empty, .inf | .aff _ _, .inf => exact h.inf_right
  | .aff _ _, .aff _ _ => exact h.aff hp
  | .empty, .empty | .empty, .aff _ _ | .aff _ _, .empty => trivial

end

section
variable {s : State} (hcrv : s.dom.crv = true) (rd rs1 rs2 : Reg)
include hcrv

theorem endsWithSum_padd : EndsWithSum (.padd rd rs1 rs2) s rd (readPT s rs1) (readPT s rs2) := by
  intro q r hq hr
  change finishWith (paddValue rs1 rs2 s) s _ = _
  rw [paddValue, curvePoints_ok hcrv hq hr]

/-- PDBL adds the point to itself (R168). -/
theorem endsWithSum_pdbl : EndsWithSum (.pdbl rd rs1) s rd (readPT s rs1) (readPT s rs1) := by
  intro q r hq hr
  obtain rfl := (toPoint_eq_iff hq hr).mpr rfl
  change finishWith (pdblValue rs1 s) s _ = _
  rw [pdblValue, curvePoint_ok hcrv hq]

/-- PNEG writes the mirrored value: coordinates below p are negated within p (R158, R169). -/
theorem completesPoint_pneg (hok : StateOk s) (hr : readPT s rs1 ≠ .empty) :
    CompletesPoint (.pneg rd rs1) s rd (mirror s.dom.dp.toNat (readPT s rs1)) := by
  obtain ⟨q, hq, -⟩ := ptPoint_of_ne_empty hr
  obtain ⟨-, hge, hlt⟩ := selectedModulus_odd (sel := .p) hok ⟨hcrv, rfl⟩
  rw [← mirror_toReg hlt.le (by omega) hq (hok.points rs1).2]
  exact completesPoint_of_writePT (exec_of_curvePoint (.pneg rd rs1) rfl hcrv hq)

end

/-- Settles O33: PADD and PDBL end with a sum, PNEG with the mirrored value. -/
theorem pointAdditionAndNegation : Obligations.PointAdditionAndNegation := by
  refine fun rd rs1 rs2 => ⟨encodedAs_padd rd rs1 rs2, encodedAs_pdbl rd rs1, encodedAs_pneg rd rs1, fun s =>
    ⟨checksPoints_padd s rd rs1 rs2, checksPoints_pdbl s rd rs1, checksPoints_pneg s rd rs1, fun hok hcrv => ?_⟩⟩
  obtain ⟨-, hge, -⟩ := selectedModulus_odd (sel := .p) hok ⟨hcrv, rfl⟩
  have hp : 2 ≤ fieldP s := le_trans (by decide) hge
  exact ⟨(endsWithSum_padd hcrv rd rs1 rs2).addsPoints hp, (endsWithSum_pdbl hcrv rd rs1).addsPoints hp,
    completesPoint_pneg hcrv rd rs1 hok⟩

end Sys2Proof.Machine
end

section
/-! PROOFS for 45_point_codec.md: PDEC (R185, R187) and PENC (R188). Decode is computed form by form on a string split
into its prefix byte and its coordinates (`decodePoint_…`); PDEC ends with what Decode answers for the string at addr,
PENC with the store of the encoding. -/

namespace Sys2Proof.Machine

/-! ## The words of the codec commands -/

theorem encodedAs_pdec (r : Reg) {len : BitVec 7} (addr : BitVec 12) (hlen : pointLenOk len = true) :
    EncodedAs (.pdec r len addr) (packM 0x2C (regBits r) len 0 addr) :=
  encodedAs_of_decode ((decode_packM_pdec r len addr).trans (if_pos hlen))

theorem encodedAs_penc (r : Reg) (addr : BitVec 12) : EncodedAs (.penc r addr) (packM 0x2D (regBits r) 0 0 addr) :=
  encodedAs_of_decode ((decode_packM_penc r 0 addr).trans (if_pos rfl))

/-! ## Strings read from the scratchpad -/

/-- plen is the byte length of p (R17, R19). -/
theorem plen_eq_size (s : State) : plen s = (Nat.size s.dom.dp.toNat + 7) / 8 := by
  rw [plen, bitlen_eq_size, ceil8, fieldP]

/-- A string from the scratchpad starts with the byte at its address. -/
theorem memRead_succ (s : State) (a n : Nat) : memRead s a (n + 1) = readByte s a :: memRead s (a + 1) n := by
  rw [Nat.add_comm, memRead_add]
  rfl

/-! ## What Decode answers -/

section
variable {p a b pl x y odd : Nat} {first : Byte} {body : List Byte}

/-- The tests of Decode (R185) on a string with a first byte, in their order. -/
theorem decodePoint_cons : decodePoint p a b pl (first :: body) =
    if body.length = 0 ∧ first.toNat = 0 then .ok .inf
    else if body.length = pl ∧ (first.toNat = 2 ∨ first.toNat = 3) then
      decodeCompressed p a b (first.toNat - 2) (bigEndian body)
    else if body.length = 2 * pl ∧ first.toNat = 4 then
      decodeUncompressed p (bigEndian (body.take pl)) (bigEndian (body.drop pl))
    else .error .edecode := by
  simp only [decodePoint, List.headD_cons, List.tail_cons, List.length_cons, beNat_eq, Nat.add_comm 1,
    Nat.add_right_cancel_iff, Nat.add_eq_right]

theorem decodePoint_inf (hlen : body.length = 0) (hfirst : first.toNat = 0) :
    decodePoint p a b pl (first :: body) = .ok .inf :=
  decodePoint_cons.trans (if_pos ⟨hlen, hfirst⟩)

theorem decodePoint_compressed (hlen : body.length = pl) (hfirst : first.toNat = 2 ∨ first.toNat = 3) :
    decodePoint p a b pl (first :: body) = decodeCompressed p a b (first.toNat - 2) (bigEndian body) := by
  rw [decodePoint_cons, if_neg (by omega), if_pos ⟨hlen, hfirst⟩]

theorem decodePoint_uncompressed {xs ys : List Byte} (hxs : xs.length = pl) (hys : ys.length = pl)
    (hfirst : first.toNat = 4) :
    decodePoint p a b pl (first :: (xs ++ ys)) = decodeUncompressed p (bigEndian xs) (bigEndian ys) := by
  have hlen : (xs ++ ys).length = 2 * pl := by rw [List.length_append]; omega
  rw [decodePoint_cons, if_neg (by omega), if_neg (by omega), if_pos ⟨hlen, hfirst⟩, List.take_left' hxs,
    List.drop_left' hxs]

/-- A string of none of the three forms (R185). -/
theorem decodePoint_other (hinf : ¬(body.length = 0 ∧ first.toNat = 0))
    (hcompressed : ¬(body.length = pl ∧ (first.toNat = 2 ∨ first.toNat = 3)))
    (huncompressed : ¬(body.length = 2 * pl ∧ first.toNat = 4)) :
    decodePoint p a b pl (first :: body) = .error .edecode := by
  rw [decodePoint_cons, if_neg hinf, if_neg hcompressed, if_neg huncompressed]

theorem decodeUncompressed_ge (h : p ≤ x ∨ p ≤ y) : decodeUncompressed p x y = .error .edecode := if_pos h

theorem decodeUncompressed_lt (hx : x < p) (hy : y < p) : decodeUncompressed p x y = .ok (.aff x y) :=
  if_neg (not_or.mpr ⟨hx.not_ge, hy.not_ge⟩)

theorem decodeCompressed_ge (h : p ≤ x) : decodeCompressed p a b odd x = .error .edecode := if_pos h

section
variable (hp : 3 ≤ p) (hx : x < p)
include hp hx

/-- Below p, a fault of the square root is the fault of Decode. -/
theorem decodeCompressed_noRoot {c : Cause} (h : SquareRoot ((x ^ 3 + a * x + b) % p) p (.error c)) :
    decodeCompressed p a b odd x = .error c := by
  rw [decodeCompressed, if_neg hx.not_ge, (squareRoot_iff hp).mp h]

/-- Below p, a root of the square root goes on to the choice of the parity. -/
theorem decodeCompressed_root {root : Nat} (h : SquareRoot ((x ^ 3 + a * x + b) % p) p (.ok root)) :
    decodeCompressed p a b odd x = (parityRoot p root odd).map (Point.aff x) := by
  rw [decodeCompressed, if_neg hx.not_ge, (squareRoot_iff hp).mp h]
  dsimp only
  cases parityRoot p root odd <;> rfl

end

theorem parityRoot_same (h : y % 2 = odd) : parityRoot p y odd = .ok y := if_pos h

/-- The root 0 has no other root (R185). -/
theorem parityRoot_zero (h : y % 2 ≠ odd) (hy : y = 0) : parityRoot p y odd = .error .edecode :=
  (if_neg h).trans (if_pos hy)

theorem parityRoot_other (h : y % 2 ≠ odd) (hy : y ≠ 0) : parityRoot p y odd = .ok (p - y) :=
  (if_neg h).trans (if_neg hy)

end

/-! ## PDEC -/

section
variable {s : State} {r : Reg} {len : BitVec 7} {addr : BitVec 12} (hlen : pointLenOk len = true)
include hlen

/-- What PDEC does with a legal byte count (R187): EDOMUNSET, EBOUNDS, then what Decode answers for the string. -/
theorem exec_pdec : exec (.pdec r len addr) s =
    if s.dom.crv = true then
      if inBounds addr.toNat len.toNat = true then
        finishWith (decodePoint (fieldP s) (coeffA s) (coeffB s) (plen s) (memRead s addr.toNat len.toNat)) s
          fun q => writePT s r q.toReg
      else raise .ebounds s
    else raise .edomunset s := by
  change finishWith (pdecValue len addr s) s _ = _
  cases hcrv : s.dom.crv
  case false => simp [pdecValue, hlen, hcrv]
  case true => cases hb : inBounds addr.toNat len.toNat <;> simp [pdecValue, hlen, hcrv, spmAddr, hb]

theorem faults_pdec_edomunset (hcrv : s.dom.crv = false) : Faults (.pdec r len addr) s .edomunset :=
  faults_of_raise ((exec_pdec hlen).trans (if_neg (by simp [hcrv])))

theorem faults_pdec_ebounds (hcrv : s.dom.crv = true) (hb : 4096 < addr.toNat + len.toNat) :
    Faults (.pdec r len addr) s .ebounds :=
  faults_of_raise <| by rw [exec_pdec hlen, if_pos hcrv, if_neg (by simp [inBounds_eq_false hb])]

variable (hcrv : s.dom.crv = true) (hb : addr.toNat + len.toNat ≤ 4096)
include hcrv hb

/-- PDEC of a string in bounds, split into its first byte and the rest. -/
theorem exec_pdec_inBounds {n : Nat} (hn : len.toNat = n + 1) : exec (.pdec r len addr) s =
    finishWith (decodePoint (fieldP s) (coeffA s) (coeffB s) (plen s)
      (readByte s addr.toNat :: memRead s (addr.toNat + 1) n)) s fun q => writePT s r q.toReg := by
  rw [exec_pdec hlen, if_pos hcrv, if_pos (inBounds_iff.mpr hb), hn, memRead_succ]

theorem completesPoint_pdec {n : Nat} {q : Point} (hn : len.toNat = n + 1)
    (hq : decodePoint (fieldP s) (coeffA s) (coeffB s) (plen s)
      (readByte s addr.toNat :: memRead s (addr.toNat + 1) n) = .ok q) :
    CompletesPoint (.pdec r len addr) s r q.toReg :=
  completesPoint_of_writePT (by rw [exec_pdec_inBounds hlen hcrv hb hn, hq, finishWith_ok])

theorem faults_pdec {n : Nat} {c : Cause} (hn : len.toNat = n + 1)
    (hc : decodePoint (fieldP s) (coeffA s) (coeffB s) (plen s)
      (readByte s addr.toNat :: memRead s (addr.toNat + 1) n) = .error c) :
    Faults (.pdec r len addr) s c :=
  faults_of_raise (by rw [exec_pdec_inBounds hlen hcrv hb hn, hc, finishWith_error])

end

/-- Settles O40: one case for each form of the string; the compressed one by the answer of the square root and the
parity of the root. -/
theorem pdecFollowsDecode : Obligations.PdecFollowsDecode := by
  refine fun r len addr => ⟨fun hlen => (decode_packM_pdec r len addr).trans (if_neg (mt pointLenOk_iff.mp hlen)),
    fun hlen => ?_⟩
  have hok : pointLenOk len = true := pointLenOk_iff.mpr hlen
  refine ⟨encodedAs_pdec r addr hok, fun s => ⟨faults_pdec_edomunset hok, faults_pdec_ebounds hok, ?_⟩⟩
  rintro _ pl _ _ _ hs hcrv hb rfl hpl rfl rfl rfl
  obtain ⟨-, hp, -⟩ := selectedModulus_odd (sel := .p) hs ⟨hcrv, rfl⟩
  obtain rfl : pl = plen s := hpl.trans (plen_eq_size s).symm
  have completes {n : Nat} {q : Point} := completesPoint_pdec (r := r) (n := n) (q := q) hok hcrv hb
  have faults {n : Nat} {c : Cause} := faults_pdec (r := r) (n := n) (c := c) hok hcrv hb
  refine ⟨fun h1 h0 => completes h1 (decodePoint_inf (memRead_length ..) h0), fun hn hfirst => ?compressed,
    fun hn hfirst => ?uncompressed, fun hinf hcompressed huncompressed => ?other⟩
  case compressed =>
    rw [Nat.add_comm] at hn
    have hdecode := decodePoint_compressed (p := fieldP s) (a := coeffA s) (b := coeffB s)
      (memRead_length s (addr.toNat + 1) (plen s)) hfirst
    refine ⟨fun hx => faults hn (hdecode.trans (decodeCompressed_ge hx)), fun hx out hout => ⟨?_, ?_⟩⟩
    · rintro c rfl
      exact faults hn (hdecode.trans (decodeCompressed_noRoot hp hx hout))
    · rintro root rfl
      have hroot := hdecode.trans (decodeCompressed_root hp hx hout)
      have hparity {out : Except Cause Nat} (h : parityRoot (fieldP s) root _ = out) :=
        hroot.trans (congrArg (Except.map (Point.aff _)) h)
      exact ⟨fun hsame => completes (q := .aff _ root) hn (hparity (parityRoot_same hsame)),
        fun hother h0 => faults hn (hparity (parityRoot_zero hother h0)),
        fun hother h0 => completes (q := .aff _ (fieldP s - root)) hn (hparity (parityRoot_other hother h0))⟩
  case uncompressed =>
    have hn : len.toNat = plen s + plen s + 1 := by omega
    have hdecode := decodePoint_uncompressed (p := fieldP s) (a := coeffA s) (b := coeffB s)
      (memRead_length s (addr.toNat + 1) (plen s)) (memRead_length s (addr.toNat + 1 + plen s) (plen s)) hfirst
    rw [← memRead_add] at hdecode
    exact ⟨fun hge => faults hn (hdecode.trans (decodeUncompressed_ge hge)),
      fun hx hy => completes hn (hdecode.trans (decodeUncompressed_lt hx hy))⟩
  case other =>
    have hn : len.toNat = (len.toNat - 1) + 1 := by omega
    refine faults hn (decodePoint_other ?_ ?_ ?_)
    all_goals rw [memRead_length]; omega

/-! ## PENC -/

/-- The length of the encoding (R188). -/
theorem encodePoint_aff_length (pl x y : Nat) : (encodePoint pl (.aff x y)).length = 1 + pl := by
  rw [encodePoint, List.length_cons, beBytes_length, Nat.add_comm]

section
variable {s : State} {r : Reg} {addr : BitVec 12} {q : Point} (hcrv : s.dom.crv = true) (hq : ptPoint s r = some q)
include hcrv hq

/-- What PENC does with a point (R188): the bounds check on the actual length, then the store. -/
theorem exec_penc : exec (.penc r addr) s =
    if inBounds addr.toNat (encodePoint (plen s) q).length = true then
      retire (memWrite s (spmAddr addr) (encodePoint (plen s) q))
    else raise .ebounds s := by
  change finishWith (pencBytes r addr s) s _ = _
  rw [pencBytes, curvePoint_ok hcrv hq]
  cases hb : inBounds addr.toNat (encodePoint (plen s) q).length <;> simp [spmAddr, hb]

theorem completesStore_penc (hb : addr.toNat + (encodePoint (plen s) q).length ≤ 4096) :
    CompletesStore (.penc r addr) s (spmAddr addr) (encodePoint (plen s) q) :=
  completesStore_of_memWrite ((exec_penc hcrv hq).trans (if_pos (inBounds_iff.mpr hb)))

theorem faults_penc_ebounds (hb : 4096 < addr.toNat + (encodePoint (plen s) q).length) :
    Faults (.penc r addr) s .ebounds :=
  faults_of_raise ((exec_penc hcrv hq).trans (if_neg (by simp [inBounds_eq_false hb])))

end

/-- Settles O41: the one byte of INF fits at every address, an affine value has the prefix byte and plen more. -/
theorem pencStoresCompressedForm : Obligations.PencStoresCompressedForm := by
  refine fun r addr => ⟨encodedAs_penc r addr, fun s pl hpl =>
    ⟨checksPoints_penc s r addr, fun hcrv hr => ?inf, fun x y _ hcrv hr => ?aff⟩⟩
  case inf => exact completesStore_penc hcrv (ptPoint_of_inf hr) (Nat.succ_le_of_lt addr.isLt)
  case aff =>
    obtain rfl : pl = plen s := hpl.trans (plen_eq_size s).symm
    have hq := ptPoint_of_aff hr
    rw [← encodePoint_aff_length (plen s) x.toNat y.toNat, ← beBytes_eq]
    exact ⟨completesStore_penc hcrv hq, faults_penc_ebounds hcrv hq⟩

end Sys2Proof.Machine
end

section
/-! PROOFS for 46_hash.md: padding and truncation (R204, R205), HINIT (R209), HUPD (R210), HFIN (R211), HTOE (R212) and
streaming (R213). Streaming is the invariant `Digesting` of a digest in progress: HINIT starts it with no bytes, every
retiring HUPD of complete bytes keeps it, and from it HFIN stores the hash of the bytes (`digest_stream`,
`digest_stream_bits`). -/

namespace Sys2Proof.Machine

/-! ## Padding and truncation -/

section
variable {buf : Vector Byte 128} {bpos k : Fin 128} {rb : Nat}

theorem pad_before (h : k < bpos) : (pad buf bpos rb)[k] = buf[k] := by
  simp [pad, h]

theorem pad_after (h : bpos < k) : (pad buf bpos rb)[k] = 0 := by
  simp [pad, h.not_gt, h.ne']

/-- The byte of the set bit: the message bits stay before it, zeros follow it. -/
theorem pad_getMsbD {i : Nat} (hrb : rb < 8) (hi : i < 8) :
    (pad buf bpos rb)[bpos].getMsbD i = if i < rb then buf[bpos].getMsbD i else decide (i = rb) := by
  have hbyte : (pad buf bpos rb)[bpos] =
      if rb = 0 then 0x80 else keepHighBits rb buf[bpos] ||| (0x80#8 >>> rb) := by
    simp [pad]
  rw [hbyte]
  split
  case isTrue h0 =>
    subst h0
    exact bit80 0 i hrb hi
  case isFalse =>
    rw [BitVec.getMsbD_or, keep_bit rb _ i hrb hi, bit80 rb i hrb hi]
    by_cases hlt : i < rb
    · simp [hlt, hlt.ne]
    · simp [hlt]

end

section
variable {cv : Words16} {len k i : Nat}

/-- The folded words in little-endian byte order, before truncation (R205). -/
def foldedBytes (cv : Words16) : List Byte := (fold8 cv).toList.flatMap leBytes

/-- One folded word in `foldedBytes`, bit by bit. -/
theorem foldedBytes_getMsbD (w : Fin 8) {n : Nat} (hn : n < 32) :
    ((foldedBytes cv).getD (4 * w.val + n / 8) 0).getMsbD (n % 8) =
      (cv[w.val] ^^^ cv[w.val + 8]).getLsbD (8 * (n / 8) + (7 - n % 8)) := by
  rw [foldedBytes, flat_getD _ _ _ (by simp) (by omega), leBytes_bit _ n hn]
  simp [fold8]

/-- `finish` in the words of `foldedBytes`. -/
theorem finish_eq (cv : Words16) (len : Nat) : finish cv len =
    if len % 8 = 0 then (foldedBytes cv).take (ceil8 len)
    else ((foldedBytes cv).take (ceil8 len)).modify (ceil8 len - 1) (keepHighBits (len % 8)) := rfl

/-- One byte of the digest: the last one of a length that is no multiple of 8 is masked. -/
theorem finish_getD (hk : k < ceil8 len) : (finish cv len).getD k 0 =
    if len % 8 ≠ 0 ∧ ceil8 len - 1 = k then keepHighBits (len % 8) ((foldedBytes cv).getD k 0)
    else (foldedBytes cv).getD k 0 := by
  have htake : ((foldedBytes cv).take (ceil8 len))[k]? = (foldedBytes cv)[k]? := List.getElem?_take_of_lt hk
  have hzero : keepHighBits (len % 8) 0#8 = 0#8 := by simp [keepHighBits]
  rw [finish_eq]
  by_cases heven : len % 8 = 0
  · simp [heven, htake]
  · by_cases hlast : ceil8 len - 1 = k
    · cases hbyte : (foldedBytes cv)[k]? <;> simp [heven, hlast, htake, hbyte, hzero]
    · simp [heven, hlast, htake]

/-- The digest, bit by bit: the bits past the first L are 0 (R205). -/
theorem finish_getMsbD (hk : k < ceil8 len) (hi : i < 8) : ((finish cv len).getD k 0).getMsbD i =
    (decide (8 * k + i < len) && ((foldedBytes cv).getD k 0).getMsbD i) := by
  rw [finish_getD hk]
  rw [ceil8] at hk ⊢
  split
  case isTrue h =>
    have hbit : i < len % 8 ↔ 8 * k + i < len := by omega
    rw [keep_bit _ _ _ (by omega) hi, Bool.and_comm, decide_eq_decide.mpr hbit]
  case isFalse h =>
    have hlt : 8 * k + i < len := by omega
    simp [hlt]

end

/-- Settles O48: the three cases of `pad`, and each bit of the digest as a bit of the folded words. -/
theorem paddingAndTruncation : Obligations.PaddingAndTruncation := by
  refine ⟨fun buf bpos rb k i hrb hi => ⟨pad_before, pad_after, pad_getMsbD hrb hi⟩,
    fun cv len n _ hlen => ⟨finish_length cv len hlen, fun w hn hin => ?_⟩⟩
  have hbit : 8 * (4 * w.val + n / 8) + n % 8 = 32 * w.val + n := by omega
  rw [finish_getMsbD (by rw [ceil8]; omega) (by omega), foldedBytes_getMsbD w hn, hbit]

/-! ## The words of the hash commands -/

theorem encodedAs_hinit (imm : BitVec 22) : EncodedAs (.hinit imm) (packI 0x30 0 imm) :=
  encodedAs_of_decode (by simp [decode, decodeZero_ok])

theorem encodedAs_hupd (r : Reg) (addr : BitVec 12) : EncodedAs (.hupd r addr) (packM 0x31 (regBits r) 0 0 addr) :=
  encodedAs_of_decode ((decode_packM_hupd r 0 addr).trans (if_pos rfl))

theorem encodedAs_hfin (addr : BitVec 12) : EncodedAs (.hfin addr) (packM 0x32 0 0 0 addr) :=
  encodedAs_of_decode ((decode_packM_hfin 0 0 addr).trans ((if_pos rfl).trans (if_pos rfl)))

theorem encodedAs_htoe (rd : Reg) : EncodedAs (.htoe rd) (packR 0x33 (regBits rd) 0 0 0 0 0 0) :=
  encodedAs_of_decode (by simp [decode, decodeZero_ok, zeroFromRs1, zeroFromRs2, zeroFromRs3])

/-! ## HINIT -/

section
variable {s t : State} {imm : BitVec 22}

theorem exec_hinit_started (h : 1 ≤ imm.toNat ∧ imm.toNat ≤ 256) :
    exec (.hinit imm) s = retire (writeHash s (startedHash ⟨imm.toNat, by omega⟩)) :=
  dif_pos h

theorem exec_hinit_ehashlen (h : ¬(1 ≤ imm.toNat ∧ imm.toNat ≤ 256)) : exec (.hinit imm) s = raise .ehashlen s :=
  dif_neg h

/-- A retiring HINIT had a legal length, and started its digest (R209). -/
theorem hash_of_hinit_retires (h : exec (.hinit imm) s = .next t) (hret : Retires s t) :
    ∃ hl : Fin 257, hl.val = imm.toNat ∧ t.hash = startedHash hl := by
  by_cases hlen : 1 ≤ imm.toNat ∧ imm.toNat ≤ 256
  · rw [exec_hinit_started hlen] at h
    cases h
    exact ⟨⟨imm.toNat, by omega⟩, rfl, by simp⟩
  · rw [exec_hinit_ehashlen hlen] at h
    cases h
    exact absurd hret (not_retires_takeFault _ s)

end

/-- Settles O43: the two outcomes of the length check. -/
theorem hinitStartsDigest : Obligations.HinitStartsDigest := by
  refine fun imm => ⟨encodedAs_hinit imm, fun s =>
    ⟨fun hbad => faults_of_raise (exec_hinit_ehashlen (by omega)), fun hlow hhigh => ?_⟩⟩
  refine completes_of_writeHash (exec_hinit_started ⟨hlow, hhigh⟩) ?_
  simp [startedHash, iv, ivSeed]

/-! ## HUPD -/

section
variable {s t : State} {r : Reg} {addr : BitVec 12}

/-- What HUPD does (R210): EHASHSEQ before EBOUNDS, then the write of the hash state. -/
theorem exec_hupd (r : Reg) (addr : BitVec 12) (s : State) : exec (.hupd r addr) s =
    if s.hash.phase = .absorb then
      if inBounds addr.toNat ((xNat s r + 7) / 8) = true then
        retire (writeHash s (absorbMessage s addr.toNat (xNat s r)))
      else raise .ebounds s
    else raise .ehashseq s := by
  change execHupd r addr s = _
  cases hb : inBounds addr.toNat ((xNat s r + 7) / 8) <;> simp [execHupd, spmAddr, ceil8, hb]

theorem faults_hupd_ehashseq (hphase : s.hash.phase ≠ .absorb) : Faults (.hupd r addr) s .ehashseq :=
  faults_of_raise ((exec_hupd r addr s).trans (if_neg hphase))

theorem faults_hupd_ebounds (hphase : s.hash.phase = .absorb) (hb : 4096 < addr.toNat + (xNat s r + 7) / 8) :
    Faults (.hupd r addr) s .ebounds :=
  faults_of_raise <| by rw [exec_hupd, if_pos hphase, if_neg (by simp [inBounds_eq_false hb])]

theorem completes_hupd (hphase : s.hash.phase = .absorb) (hb : addr.toNat + (xNat s r + 7) / 8 ≤ 4096) :
    Completes (.hupd r addr) s [.hash] fun t => t.hash = absorbMessage s addr.toNat (xNat s r) :=
  completes_of_writeHash (by rw [exec_hupd, if_pos hphase, if_pos (inBounds_iff.mpr hb)]) (by simp)

/-- A retiring HUPD found a digest in progress, and absorbed its message (R210). -/
theorem hash_of_hupd_retires (h : exec (.hupd r addr) s = .next t) (hret : Retires s t) :
    s.hash.phase = .absorb ∧ t.hash = absorbMessage s addr.toNat (xNat s r) := by
  rw [exec_hupd] at h
  split at h
  case isFalse =>
    cases h
    exact absurd hret (not_retires_takeFault _ s)
  case isTrue hphase =>
    split at h
    case isFalse =>
      cases h
      exact absurd hret (not_retires_takeFault _ s)
    case isTrue =>
      cases h
      exact ⟨hphase, by simp⟩

/-- A message of complete bytes. -/
theorem absorbMessage_whole {a n : Nat} (h : n % 8 = 0) :
    absorbMessage s a n = absorbAll s.hash (memRead s a (n / 8)) := if_pos h

/-- A message with a partial last byte. -/
theorem absorbMessage_partial {a n : Nat} (h : n % 8 ≠ 0) : absorbMessage s a n =
    absorbBits (absorbAll s.hash (memRead s a (n / 8))) (readByte s (a + n / 8)) (Fin.ofNat 8 n) := if_neg h

/-- The buffer with the partial last byte at BUF[BPOS] (R210). -/
theorem absorbBits_buf (h : HashState) (v : Byte) (bits : Fin 8) (k : Fin 128) : (absorbBits h v bits).buf[k] =
    if k = h.bpos then v &&& (0xFF#8 <<< (8 - bits.val)) else h.buf[k] := by
  simp only [absorbBits, keepHighBits, Fin.getElem_fin, Vector.getElem_set, Fin.ext_iff, eq_comm]

end

/-- Where a command completes, it completes with all that follows. -/
theorem Completes.imp {i : Instr} {s : State} {parts : List Part} {post post' : State → Prop}
    (h : Completes i s parts post) (himp : ∀ t, post t → post' t) : Completes i s parts post' := by
  obtain ⟨t, hexec, hret, hframe, hpost⟩ := h
  exact ⟨t, hexec, hret, hframe, himp t hpost⟩

/-- Settles O44: the two checks, then the two forms of a message. -/
theorem hupdAbsorbsBits : Obligations.HupdAbsorbsBits := by
  refine fun r addr => ⟨encodedAs_hupd r addr, ?_⟩
  rintro s _ _ rfl rfl
  refine ⟨faults_hupd_ehashseq, faults_hupd_ebounds, fun hphase hb => ⟨fun hwhole => ?_, fun hpartial => ?_⟩⟩
  all_goals refine (completes_hupd hphase hb).imp fun t ht => ?_
  · rw [ht, absorbMessage_whole hwhole]
  · rw [ht, absorbMessage_partial hpartial]
    exact ⟨rfl, rfl, rfl, rfl, rfl, absorbBits_buf _ _ _⟩

/-! ## HFIN -/

theorem sameSequencing_writeDigest (s : State) (bytes : List Byte) (len : Fin 257) :
    SameSequencing s (writeDigest s bytes len) := by
  constructor <;> simp

theorem onlyChanges_writeDigest (s : State) (bytes : List Byte) (len : Fin 257) :
    OnlyChanges [.digest] s (writeDigest s bytes len) := by
  intro part hp
  cases part
  case digest => simp at hp
  case x => exact fun r => readX_congr rfl r
  case points => exact fun r => readPT_congr rfl r
  case memory => exact fun a => readByte_congr rfl rfl a
  all_goals simp [Part.unchanged]

/-- The state HFIN leaves before it retires: the digest in the SPM and in HD, the hash state consumed (R211). -/
def storeDigest (s : State) (a : Nat) (bytes : List Byte) : State :=
  writeHash (writeDigest (memWrite s a bytes) bytes s.hash.hl) idleHash

theorem sameSequencing_storeDigest (s : State) (a : Nat) (bytes : List Byte) :
    SameSequencing s (storeDigest s a bytes) :=
  ((sameSequencing_memWrite s a bytes).trans (sameSequencing_writeDigest _ _ _)).trans (sameSequencing_writeHash _ _)

theorem onlyChanges_storeDigest (s : State) (a : Nat) (bytes : List Byte) :
    OnlyChanges [.hash, .digest, .memory] s (storeDigest s a bytes) :=
  (((onlyChanges_memWrite s a bytes).trans (onlyChanges_writeDigest _ _ _)).trans
    (onlyChanges_writeHash _ _)).mono (by simp)

theorem bytesStored_storeDigest (s : State) (a : Nat) (bytes : List Byte) :
    BytesStored s a bytes (retired (storeDigest s a bytes)) := fun k => by
  rw [readByte_congr (t := retired (storeDigest s a bytes)) (s := memWrite s a bytes) rfl rfl, readByte_memWrite]

/-- HD[k] after a digest is written: its bytes, then zeros (R30). -/
theorem hdOf_getElem (bytes : List Byte) (k : Fin 32) :
    (hdOf bytes)[k] = if k.val < bytes.length then bytes.getD k.val 0 else 0 := by
  unfold hdOf
  split
  case isTrue => simp
  case isFalse h => simp [List.getElem?_eq_none (not_lt.mp h)]

/-- The digest of a hash state has ceil8(HL) bytes (R205). -/
theorem digestBytes_length (h : HashState) : (digestBytes h).length = (h.hl.val + 7) / 8 :=
  finish_length _ _ (by omega)

section
variable {s : State} {addr : BitVec 12}

/-- What HFIN does (R211): EHASHSEQ before EBOUNDS, then the digest is stored. -/
theorem exec_hfin (addr : BitVec 12) (s : State) : exec (.hfin addr) s =
    if s.hash.phase = .idle then raise .ehashseq s
    else if inBounds addr.toNat ((s.hash.hl.val + 7) / 8) = true then
      retire (storeDigest s (spmAddr addr) (digestBytes s.hash))
    else raise .ebounds s := by
  change finishWith (hfinBytes addr s) s (storeDigest s (spmAddr addr)) = _
  by_cases hphase : s.hash.phase = .idle
  · simp [hfinBytes, hphase]
  · cases hb : inBounds addr.toNat ((s.hash.hl.val + 7) / 8) <;> simp [hfinBytes, hphase, spmAddr, ceil8, hb]

theorem faults_hfin_ehashseq (hphase : s.hash.phase = .idle) : Faults (.hfin addr) s .ehashseq :=
  faults_of_raise ((exec_hfin addr s).trans (if_pos hphase))

theorem faults_hfin_ebounds (hphase : s.hash.phase ≠ .idle) (hb : 4096 < addr.toNat + (s.hash.hl.val + 7) / 8) :
    Faults (.hfin addr) s .ebounds :=
  faults_of_raise <| by rw [exec_hfin, if_neg hphase, if_neg (by simp [inBounds_eq_false hb])]

theorem completes_hfin {post : State → Prop} (hphase : s.hash.phase ≠ .idle)
    (hb : addr.toNat + (s.hash.hl.val + 7) / 8 ≤ 4096)
    (hpost : post (retired (storeDigest s (spmAddr addr) (digestBytes s.hash)))) :
    Completes (.hfin addr) s [.hash, .digest, .memory] post :=
  completes_of_retire (by rw [exec_hfin, if_neg hphase, if_pos (inBounds_iff.mpr hb)])
    (sameSequencing_storeDigest s _ _) (onlyChanges_storeDigest s _ _) hpost

end

/-- Settles O45: the two checks, then the three writes of `storeDigest`. -/
theorem hfinFinalizesDigest : Obligations.HfinFinalizesDigest := by
  refine fun addr => ⟨encodedAs_hfin addr, ?_⟩
  rintro s _ _ rfl rfl
  refine ⟨faults_hfin_ehashseq, faults_hfin_ebounds, fun hphase hb => completes_hfin hphase hb ?_⟩
  refine ⟨bytesStored_storeDigest s _ _, rfl, rfl, fun k => ?_, rfl, rfl, rfl, rfl, rfl, rfl⟩
  rw [← digestBytes_length s.hash]
  exact hdOf_getElem (digestBytes s.hash) k

/-! ## HTOE -/

/-- The leftmost bits of the digest as a quotient (R212). -/
theorem digestInteger_eq (d : Digest) (n : Nat) : digestInteger d n =
    bigEndian (d.hd.toList.take ((d.hdlen.val + 7) / 8)) /
      2 ^ (8 * ((d.hdlen.val + 7) / 8) - min d.hdlen.val (Nat.size n)) := by
  rw [digestInteger, beNat_eq, bitlen_eq_size, Nat.shiftRight_eq_div_pow, ceil8]

/-- The 32 bytes of HD hold an integer that fits an X register. -/
theorem digestInteger_lt (d : Digest) (n : Nat) : digestInteger d n < 2 ^ 256 := by
  rw [digestInteger_eq]
  calc _ ≤ bigEndian (d.hd.toList.take ((d.hdlen.val + 7) / 8)) := Nat.div_le_self _ _
    _ < 256 ^ (d.hd.toList.take ((d.hdlen.val + 7) / 8)).length := bigEndian_lt _
    _ ≤ 256 ^ 32 := Nat.pow_le_pow_right (by omega) (by simp)
    _ = 2 ^ 256 := by norm_num

/-- What HTOE does (R212): EDOMUNSET before EHASHSEQ, then the write. -/
theorem exec_htoe (rd : Reg) (s : State) : exec (.htoe rd) s =
    if s.dom.ord = true then
      if s.digest.hdv = true then retire (writeXNat s rd (digestInteger s.digest s.dom.dn.toNat))
      else raise .ehashseq s
    else raise .edomunset s := by
  change execHtoe rd s = _
  cases hord : s.dom.ord <;> cases hhdv : s.digest.hdv <;> simp [execHtoe, hord, hhdv]

/-- Settles O46: the outcomes of the two checks; the integer is `digestInteger_eq`. -/
theorem htoeTakesLeftmostBits : Obligations.HtoeTakesLeftmostBits := by
  refine fun rd => ⟨encodedAs_htoe rd, ?_⟩
  rintro s _ rfl
  refine ⟨fun hord => faults_of_raise ((exec_htoe rd s).trans (if_neg (by simp [hord]))),
    fun hord hhdv => faults_of_raise ?_, fun hord hhdv => ?_⟩
  · rw [exec_htoe, if_pos hord, if_neg (by simp [hhdv])]
  · rw [← digestInteger_eq]
    exact completesX_of_writeXNat (digestInteger_lt _ _) (by rw [exec_htoe, if_pos hord, if_pos hhdv])

/-! ## Streaming -/

/-- The hash state has absorbed these complete bytes since an HINIT of this length, and no partial byte (R213). -/
structure Digesting (len : Nat) (bytes : List Byte) (h : HashState) : Prop where
  phase : h.phase = .absorb
  rb : h.rb = 0
  hl : h.hl.val = len
  streams : Streams h (iv len) bytes

theorem digesting_startedHash (len : Fin 257) : Digesting len.val [] (startedHash len) where
  phase := rfl
  rb := rfl
  hl := rfl
  streams := ⟨[], rfl, rfl, by simp⟩

section
variable {len : Nat} {bytes : List Byte} {h : HashState}

theorem Digesting.absorbAll (hd : Digesting len bytes h) (vs : List Byte) :
    Digesting len (bytes ++ vs) (absorbAll h vs) := by
  obtain ⟨hphase, hrb, hhl⟩ := absorbAll_frame h vs
  exact ⟨hphase.trans hd.phase, hrb.trans hd.rb, by rw [hhl, hd.hl], streams_absorbAll hd.streams vs⟩

/-- Absorbing whole bytes keeps the invariant, whatever happens between the commands. -/
theorem digesting_of_absorbs {h0 : HashState} (h0d : Digesting len [] h0) (habs : Absorbs h0 bytes h) :
    Digesting len bytes h := by
  induction habs with
  | start => exact h0d
  | hupd bytes r addr n s t _ hn hexec hret ih =>
    obtain ⟨-, hhash⟩ := hash_of_hupd_retires hexec hret
    rw [hhash, hn, absorbMessage_whole (by omega), Nat.mul_div_cancel_left n (by omega)]
    exact ih.absorbAll _

/-- HFIN stores the hash of the bytes absorbed (R211, R207). -/
theorem Digesting.completes_hfin {s : State} {addr : BitVec 12} (hd : Digesting len bytes s.hash)
    (hb : addr.toNat + (len + 7) / 8 ≤ 4096) : Completes (.hfin addr) s [.hash, .digest, .memory]
      (BytesStored s (spmAddr addr) (hashMessage bytes 0 0 len)) := by
  rw [← digest_stream hd.streams hd.rb hd.hl]
  exact Machine.completes_hfin (by simp [hd.phase]) (by rwa [hd.hl]) (bytesStored_storeDigest s _ _)

/-- HFIN after a partial last byte stores the hash of the bytes and the bits absorbed (R211, R207). -/
theorem Digesting.completes_hfin_bits {s : State} {addr : BitVec 12} {v : Byte} {rb : Fin 8}
    (hd : Digesting len bytes h) (hrb : rb ≠ 0) (hs : s.hash = absorbBits h v rb)
    (hb : addr.toNat + (len + 7) / 8 ≤ 4096) : Completes (.hfin addr) s [.hash, .digest, .memory]
      (BytesStored s (spmAddr addr) (hashMessage bytes rb.val v len)) := by
  have hl : s.hash.hl.val = len := by rw [hs]; exact hd.hl
  rw [← digest_stream_bits hd.streams hd.hl v rb hrb, ← hs]
  exact Machine.completes_hfin (by simp [hs, absorbBits]) (by rwa [hl]) (bytesStored_storeDigest s _ _)

end

/-- The hash state after a retiring HUPD of n complete bytes and rb bits more. -/
theorem hash_of_hupd_bits {s t : State} {r : Reg} {addr : BitVec 12} {n rb : Nat} (hn : xNat s r = 8 * n + rb)
    (hrb : 1 ≤ rb) (hlt : rb < 8) (h : exec (.hupd r addr) s = .next t) (hret : Retires s t) :
    t.hash = absorbBits (absorbAll s.hash (memRead s addr.toNat n)) (readByte s (addr.toNat + n)) ⟨rb, hlt⟩ := by
  obtain ⟨-, hhash⟩ := hash_of_hupd_retires h hret
  have hbits : Fin.ofNat 8 (8 * n + rb) = ⟨rb, hlt⟩ := Fin.ext (show (8 * n + rb) % 8 = rb by omega)
  rw [hhash, hn, absorbMessage_partial (by omega), hbits, show (8 * n + rb) / 8 = n by omega]

/-- Settles O49: `Digesting` from the HINIT to the last HUPD of complete bytes, and HFIN from there, with or without a
partial byte between. -/
theorem streamingGivesTheHash : Obligations.StreamingGivesTheHash := by
  intro imm s0 t0 bytes s hinit hret habs
  obtain ⟨hl, hlen, hstart⟩ := hash_of_hinit_retires hinit hret
  rw [← hlen]
  rw [hstart] at habs
  have hd : Digesting hl.val bytes s.hash := digesting_of_absorbs (digesting_startedHash hl) habs
  refine ⟨fun addr hb => hd.completes_hfin hb, fun r addr n rb t u hn hrb hlt hupd hret' hu addr' hb => ?_⟩
  have hne : (⟨rb, hlt⟩ : Fin 8) ≠ 0 := Fin.ne_of_val_ne (show rb ≠ 0 by omega)
  have hhash := hu.trans (hash_of_hupd_bits hn hrb hlt hupd hret')
  exact (hd.absorbAll _).completes_hfin_bits (rb := ⟨rb, hlt⟩) hne hhash hb

end Sys2Proof.Machine
end

section
/-! PROOFS for 47_ecdsa.md: ECDSAV (R230) ends with the flag or the fault of Verify (R231). The range check and the
inverse come first; what is left, u1·G + u2·Q, is `verificationPoint`, and F is read off that point. -/

namespace Sys2Proof.Machine

/-! ## The word and the checks of ECDSAV -/

section
variable {s : State} (rd rs1 rs2 rs3 : Reg)

theorem encodedAs_ecdsav : EncodedAs (.ecdsav rd rs1 rs2 rs3)
    (packR 0x38 (regBits rd) (regBits rs1) (regBits rs2) (regBits rs3) 0 0 0) :=
  encodedAs_of_decode (by simp [decode, decodeZero_ok])

/-- ECDSAV without the curve, the order or the base point (R230). -/
theorem faults_ecdsav_edomunset (hunset : s.dom.crv = false ∨ s.dom.ord = false ∨ s.dom.gen = false) :
    Faults (.ecdsav rd rs1 rs2 rs3) s .edomunset := by
  have hvalue : ecdsavValue rd rs1 rs2 rs3 s = .error .edomunset := by
    obtain hcrv | hord | hgen := hunset
    · simp [ecdsavValue, hcrv]
    · simp [ecdsavValue, hord]
    · simp [ecdsavValue, hgen]
  exact faults_of_raise (congrArg (finishWith · s (writeF s)) hvalue)

/-- With the domain configured and a key, ECDSAV ends with what Verify answers (R230). -/
theorem exec_ecdsav {g q : Point} (hcrv : s.dom.crv = true) (hord : s.dom.ord = true) (hgen : s.dom.gen = true)
    (hg : s.dom.dg.toPoint = some g) (hq : ptPoint s rd = some q) : exec (.ecdsav rd rs1 rs2 rs3) s =
    finishWith (verifySignature (fieldP s) (coeffA s) s.dom.dn.toNat g (xNat s rs1) (xNat s rs2) (xNat s rs3) q) s
      (writeF s) := by
  change finishWith (ecdsavValue rd rs1 rs2 rs3 s) s _ = _
  simp only [ecdsavValue, hcrv, hord, hgen, hg, hq, Bool.not_true, Bool.or_self, Bool.false_eq_true, if_false]

/-- A command that ends by writing the flag it computes completes with that flag. -/
theorem completesFlag_of_finishWith {i : Instr} {v : Except Cause Bool} {b : Bool}
    (h : exec i s = finishWith v s (writeF s)) (hv : v = .ok b) : CompletesFlag i s b :=
  completesFlag_of_writeF (by rw [h, hv, finishWith_ok])

/-- A command that ends by writing the flag it computes takes the fault of the computation. -/
theorem faults_of_finishWith {i : Instr} {v : Except Cause Bool} {c : Cause}
    (h : exec i s = finishWith v s (writeF s)) (hv : v = .error c) : Faults i s c :=
  faults_of_raise (by rw [h, hv, finishWith_error])

end

/-! ## The inverse of s -/

/-- The reduced inverse is the one that `inverse` answers (R11). -/
theorem inverse_eq_ok {c w n : Nat} (hn : 2 ≤ n) (hw : w < n) (h : c * w % n = 1) : inverse c n = .ok w := by
  have hone : c * w ≡ 1 [MOD n] := h.trans (Nat.mod_eq_of_lt (by omega)).symm
  have hgcd : Nat.Coprime c n := Nat.coprime_of_mul_modEq_one w hone
  obtain ⟨-, x, hx, hmul, -, hlt⟩ | ⟨hne, -⟩ := inverse_cases (v := c) hn
  · have hxw : x ≡ w [MOD n] := Nat.ModEq.cancel_left_of_coprime hgcd.symm (hmul.trans h.symm)
    rw [hx, hxw.eq_of_lt_of_lt hlt hw]
  · exact absurd hgcd hne

/-! ## The point of the verification -/

/-- u1·G + u2·Q in the order of R231: the two products, then the sum. -/
def verificationPoint (p a : Nat) (g q : Point) (u1 u2 : Nat) : Except Cause Point := do
  let p1 ← scalarMul p a g u1
  let p2 ← scalarMul p a q u2
  pointAdd p a p1 p2

/-- The signature is accepted: the point is affine and its x mod n is r (R231). -/
def acceptsPoint (n r : Nat) : Point → Bool
  | .inf => false
  | .aff x _ => decide (x % n = r)

section
variable {p a n e r c w u1 u2 : Nat} {g q p1 p2 v : Point}

theorem verificationPoint_eq (h1 : scalarMul p a g u1 = .ok p1) (h2 : scalarMul p a q u2 = .ok p2) :
    verificationPoint p a g q u1 u2 = pointAdd p a p1 p2 := by
  simp [verificationPoint, h1, h2, bind, Except.bind]

/-- A product or the sum that fails is the fault of the verification, and always ENOINV (R155, R158). -/
theorem verificationPoint_enoinv (h : (∃ f, scalarMul p a g u1 = .error f) ∨ (∃ f, scalarMul p a q u2 = .error f) ∨
    ∃ p1 p2 f, scalarMul p a g u1 = .ok p1 ∧ scalarMul p a q u2 = .ok p2 ∧ pointAdd p a p1 p2 = .error f) :
    verificationPoint p a g q u1 u2 = .error .enoinv := by
  cases h1 : scalarMul p a g u1 with
  | error f =>
    obtain rfl := scalarMul_error h1
    rw [verificationPoint, h1]
    rfl
  | ok p1 =>
    cases h2 : scalarMul p a q u2 with
    | error f =>
      obtain rfl := scalarMul_error h2
      rw [verificationPoint, h1, h2]
      rfl
    | ok p2 =>
      obtain ⟨f, hsum⟩ : ∃ f, pointAdd p a p1 p2 = .error f := by simpa [h1, h2] using h
      rw [verificationPoint_eq h1 h2, hsum, pointAdd_error hsum]

/-- Over a prime field no step of the verification fails (R157, R158). -/
theorem verificationPoint_prime (hp : p.Prime) (h3 : 3 ≤ p) (hg : Below p g) (hq : Below p q) (u1 u2 : Nat) :
    ∃ v, verificationPoint p a g q u1 u2 = .ok v := by
  obtain ⟨p1, h1, hp1⟩ := scalarMul_prime (a := a) hp h3 hg u1
  obtain ⟨p2, h2, hp2⟩ := scalarMul_prime (a := a) hp h3 hq u2
  obtain ⟨v, hv, -⟩ := pointAdd_prime (a := a) hp h3 hp1 hp2
  exact ⟨v, (verificationPoint_eq h1 h2).trans hv⟩

/-! ## What Verify answers -/

theorem verifySignature_outside (h : ¬(1 ≤ r ∧ r ≤ n - 1 ∧ 1 ≤ c ∧ c ≤ n - 1)) :
    verifySignature p a n g e r c q = .ok false := if_neg h

theorem verifySignature_noInverse (h : 1 ≤ r ∧ r ≤ n - 1 ∧ 1 ≤ c ∧ c ≤ n - 1) (hinv : inverse c n = .error .enoinv) :
    verifySignature p a n g e r c q = .error .enoinv := by
  rw [verifySignature, if_pos h, hinv]

/-- In range and with the inverse w of s, Verify looks at u1·G + u2·Q (R231). -/
theorem verifySignature_inverse (h : 1 ≤ r ∧ r ≤ n - 1 ∧ 1 ≤ c ∧ c ≤ n - 1) (hinv : inverse c n = .ok w) :
    verifySignature p a n g e r c q =
      (verificationPoint p a g q (e * w % n) (r * w % n)).map (acceptsPoint n r) := by
  rw [verifySignature, if_pos h, hinv]
  cases h1 : scalarMul p a g (e * w % n) with
  | error f => simp only [verificationPoint, h1]; rfl
  | ok p1 =>
    cases h2 : scalarMul p a q (r * w % n) with
    | error f => simp only [verificationPoint, h1, h2]; rfl
    | ok p2 =>
      rw [verificationPoint_eq h1 h2]
      cases hsum : pointAdd p a p1 p2 with
      | error f => simp only [h1, h2, hsum]; rfl
      | ok v => cases v <;> simp only [h1, h2, hsum] <;> rfl

end

/-! ## ECDSAV -/

/-- A register value below p holds a point below p. -/
theorem below_of_toPoint {p : Nat} {v : PointReg} {q : Point} (hb : v.below p = true) (h : v.toPoint = some q) :
    Below p q := by
  cases v with
  | empty => cases h
  | inf =>
    obtain rfl := Option.some.inj h
    exact fun _ _ hq => by cases hq
  | aff x y =>
    obtain rfl := Option.some.inj h
    intro x' y' hq
    obtain ⟨rfl, rfl⟩ := Point.aff.inj hq
    simpa [PointReg.below] using hb

/-- Settles O50: the checks of `ecdsavValue`, then the range check, the inverse, and the point of the verification. -/
theorem ecdsavVerifies : Obligations.EcdsavVerifies := by
  refine fun rd rs1 rs2 rs3 => ⟨encodedAs_ecdsav rd rs1 rs2 rs3, fun s =>
    ⟨faults_ecdsav_edomunset rd rs1 rs2 rs3, ecdsav_faults_epoint rs1 rs2 rs3, ?_⟩⟩
  rintro _ _ _ _ g q hok hcrv hord hgen rfl rfl rfl rfl hg hq
  have hexec := exec_ecdsav rd rs1 rs2 rs3 hcrv hord hgen hg hq
  obtain ⟨-, hn, -⟩ := selectedModulus_odd hok (sel := .n) ⟨hord, rfl⟩
  obtain ⟨-, hp, -⟩ := selectedModulus_odd hok (sel := .p) ⟨hcrv, rfl⟩
  refine ⟨fun hout => completesFlag_of_finishWith hexec (verifySignature_outside hout), fun hin =>
    ⟨fun hgcd => ?noInverse, fun w hw hmul => ?inverse⟩⟩
  case noInverse =>
    obtain ⟨heq, -⟩ | ⟨-, hinv⟩ := inverse_cases (v := xNat s rs3) (m := s.dom.dn.toNat) (by omega)
    · exact absurd heq hgcd
    · exact faults_of_finishWith hexec (verifySignature_noInverse hin hinv)
  case inverse =>
    rw [verifySignature_inverse hin (inverse_eq_ok (by omega) hw hmul)] at hexec
    have completes : ∀ v, verificationPoint (fieldP s) (coeffA s) g q _ _ = .ok v →
        CompletesFlag (.ecdsav rd rs1 rs2 rs3) s (acceptsPoint s.dom.dn.toNat (xNat s rs2) v) :=
      fun v hv => completesFlag_of_finishWith hexec (congrArg (Except.map _) hv)
    refine ⟨fun p1 p2 v h1 h2 hsum => ?point, fun hfail => ?fails, fun hprime => ?prime⟩
    case point =>
      have hv := completes v ((verificationPoint_eq h1 h2).trans hsum)
      exact ⟨fun h => by subst h; exact hv, fun x y h => by subst h; exact hv⟩
    case fails => exact faults_of_finishWith hexec (congrArg (Except.map _) (verificationPoint_enoinv hfail))
    case prime =>
      have hgb : Below (fieldP s) g := below_of_toPoint hok.domain.baseBelow hg
      obtain ⟨v, hv⟩ := verificationPoint_prime hprime hp hgb (below_of_pt hok.points hq) _ _
      exact ⟨_, completes v hv⟩

end Sys2Proof.Machine
end

section
/-! PROOFS for 60_exceptions.md: fault entry is precise (R244, R245, R251), and no host access but a soft reset touches
a command in execution (R253). That every command ends in one of two ways is shown once for all 39 (`exec_ends`); that a
host access works on the host's side of the state only is shown once for every access (`keepsCommand_performAccess`). -/

namespace Sys2Proof.Machine

/-! ## The two ends of a command -/

/-- The two ways a command that starts in `s` can end: it retires on effects that touch no sequencing state, or it
takes a fault in `s` itself (R244). -/
inductive CommandEnds (s : State) : Result → Prop where
  | retires {u : State} (h : SameSequencing s u) : CommandEnds s (retire u)
  | faults (c : Cause) : CommandEnds s (raise c s)

namespace CommandEnds

variable {s : State}

/-- A command that ends with a value which may raise. -/
theorem ofFinishWith {α : Type} {r : Except Cause α} {k : α → State} (h : ∀ v, SameSequencing s (k v)) :
    CommandEnds s (finishWith r s k) :=
  match r with
  | .ok v => .retires (h v)
  | .error c => .faults c

/-- A command that makes a check first. -/
theorem ofIte {p : Prop} [Decidable p] {a b : Result} (ha : CommandEnds s a) (hb : CommandEnds s b) :
    CommandEnds s (if p then a else b) := by
  split
  · exact ha
  · exact hb

end CommandEnds

/-- Every command ends in one of the two ways, in every state: by the kind of its write and the number of its checks. -/
theorem exec_ends (i : Instr) (s : State) : CommandEnds s (exec i s) := by
  cases i with
  | nop => exact .retires (sameSequencing_refl s)
  | ldi | movx => exact .retires (sameSequencing_writeX ..)
  | cmpx => exact .retires (sameSequencing_writeF ..)
  | ldn => exact .ofIte (.faults _) (.ofIte (.faults _) (.retires (sameSequencing_writeX ..)))
  | stn | penc => exact .ofFinishWith fun _ => sameSequencing_memWrite ..
  | setm => exact .ofIte (.retires (sameSequencing_writeModulus ..)) (.faults _)
  | modadd | modsub | modneg | modred | modmul | montmul | montred | tomont | modinv | modsqrt =>
    exact .ofFinishWith fun _ => sameSequencing_writeX ..
  | domcrv =>
    exact .ofIte (.faults _) (.ofIte (.faults _)
      (.retires ((sameSequencing_writeDomain ..).trans (sameSequencing_emptyPoints _))))
  | domord | domgen => exact .ofIte (.faults _) (.ofIte (.faults _) (.retires (sameSequencing_writeDomain ..)))
  | pinf => exact .ofIte (.retires (sameSequencing_writePT ..)) (.faults _)
  | pgen | pset => exact .ofIte (.faults _) (.ofIte (.faults _) (.retires (sameSequencing_writePT ..)))
  | pgetx | pgety => exact .ofFinishWith fun _ => (sameSequencing_writeX ..).trans (sameSequencing_writeF ..)
  | pmov | padd | pdbl | pneg | pmul | pdec => exact .ofFinishWith fun _ => sameSequencing_writePT ..
  | peq | pisinf | ecdsav => exact .ofFinishWith fun _ => sameSequencing_writeF ..
  | hinit imm =>
    change CommandEnds s (execHinit imm s)
    unfold execHinit
    split
    case isTrue => exact .retires (sameSequencing_writeHash ..)
    case isFalse => exact .faults _
  | hupd => exact .ofIte (.faults _) (.ofIte (.faults _) (.retires (sameSequencing_writeHash ..)))
  | hfin => exact .ofFinishWith fun _ => sameSequencing_storeDigest ..
  | htoe => exact .ofIte (.faults _) (.ofIte (.faults _) (.retires (sameSequencing_writeX ..)))

/-- A command answers the state in which it retired or the state of its fault entry. -/
theorem exec_cases {i : Instr} {s t : State} (h : exec i s = .next t) :
    (∃ u, SameSequencing s u ∧ t = retired u) ∨ ∃ c, t = takeFault c s := by
  have hends := exec_ends i s
  rw [h] at hends
  cases hends with
  | retires hu => exact .inl ⟨_, hu, rfl⟩
  | faults c => exact .inr ⟨c, rfl⟩

/-! ## Fault entry -/

namespace FaultEntry

variable {c : Cause} {s t : State}

/-- No command is queued or in execution after a fault (R245). -/
theorem busy_eq_false (h : FaultEntry c s t) : busy t = false := by simp [busy, h.queue, h.inExec]

theorem qlevel_eq_zero (h : FaultEntry c s t) : qlevel t = 0 := by simp [qlevel, h.queue]

end FaultEntry

/-- Settles O12: retiring leaves ERR at 0, so ERR = 1 is the other end of `exec_cases`. -/
theorem faultsArePrecise : Obligations.FaultsArePrecise := by
  intro i s t hclear hexec herr
  obtain ⟨u, hu, rfl⟩ | ⟨c, rfl⟩ := exec_cases hexec
  · rw [retired_errs, hu.errs, hclear] at herr
    exact absurd herr Bool.false_ne_true
  · have hentry := faultEntry_takeFault c s
    exact ⟨hentry.busy_eq_false, hentry.qlevel_eq_zero, c, hentry⟩

/-! ## What a host access leaves alone -/

/-- The two states agree but for the host's side: the queue, the error and interrupt registers, and the bus. -/
def KeepsCommand (s t : State) : Prop :=
  t = { s with queue := t.queue, errs := t.errs, irqEn := t.irqEn, irqStatus := t.irqStatus, bus := t.bus }

section
variable {s t : State}

theorem KeepsCommand.inExec (h : KeepsCommand s t) : t.inExec = s.inExec := (congrArg State.inExec h :)

theorem KeepsCommand.cmdidx (h : KeepsCommand s t) : t.cmdidx = s.cmdidx := (congrArg State.cmdidx h :)

/-- Everything a command reads or writes is outside the host's side. -/
theorem KeepsCommand.onlyChanges (h : KeepsCommand s t) : OnlyChanges [] s t := by
  have hdom : t.dom = s.dom := (congrArg State.dom h :)
  intro part _
  cases part with
  | x => exact readX_congr (congrArg State.x h :)
  | points => exact readPT_congr (congrArg State.pt h :)
  | flag => exact (congrArg State.f h :)
  | curve | order | base => simp [Part.unchanged, hdom]
  | modulus => exact (congrArg State.gmod h :)
  | hash => exact (congrArg State.hash h :)
  | digest => exact (congrArg State.digest h :)
  | memory => exact readByte_congr (congrArg State.spm h :) (congrArg State.free h :)

/-- A write to a CSR stays on the host's side, but for CTRL.SRST (R35). -/
theorem keepsCommand_writeCsr {offset : Nat} {w : Word} (hsrst : offset = 0x008 → w.getLsbD 0 = false) :
    KeepsCommand s (writeCsr s offset w) := by
  unfold writeCsr
  split
  case h_1 =>
    rw [writeCtrl, hsrst rfl, if_neg Bool.false_ne_true]
    split <;> rfl
  case h_4 =>
    unfold writeCmd
    split <;> rfl
  all_goals rfl

/-- A legal access outside the SPM part is 4 bytes wide (R58). -/
theorem width_eq_word_of_legalCsr {o : BitVec 13} {width : AccessWidth} (hlegal : accessLegal o width = true)
    (hcsr : ¬inSpmPart o = true) : width = .word := by
  simpa [accessLegal, hcsr] using And.right (Bool.and_eq_true_iff.mp hlegal)

/-- A read changes nothing (R61). -/
theorem performAccess_read (s : State) (o : BitVec 13) (width : AccessWidth) :
    (performAccess s (.read o width)).1 = s := by
  simp only [performAccess]
  split_ifs <;> rfl

/-- While BUSY = 1, an access that does not have to wait is not a write to the SPM part (R65), so it stays on the
host's side, but for CTRL.SRST. -/
theorem keepsCommand_performAccess {a : BusAccess} (hbusy : busy s = true) (hnow : ¬MustWait s a)
    (hsrst : ∀ data, a = .write 0x008 .word data → data.getLsbD 0 = false) :
    KeepsCommand s (performAccess s a).1 := by
  cases a with
  | read o width =>
    rw [performAccess_read]
    rfl
  | write o width data =>
    have hcsr : ¬inSpmPart o = true := fun hspm => hnow (.inl ⟨of_decide_eq_true hspm, hbusy⟩)
    by_cases hlegal : accessLegal o width = true
    · obtain rfl := width_eq_word_of_legalCsr hlegal hcsr
      simp only [performAccess, hlegal, hcsr, Bool.not_true, Bool.false_eq_true, if_false]
      refine keepsCommand_writeCsr fun ho => hsrst data ?_
      rw [BitVec.eq_of_toNat_eq (y := 0x008) ho]
    · simp only [performAccess, hlegal, Bool.not_false, if_true]
      rfl

/-- Recording the answer of an access writes only the bus. -/
theorem keepsCommand_completeRequest {req : BusRequest} (h : KeepsCommand s (performAccess s req.access).1) :
    KeepsCommand s (completeRequest s req) :=
  (congrArg (fun u : State => { u with bus := (completeRequest s req).bus }) h :)

/-- A host access that does not write 1 to CTRL.SRST, while a word is queued or a command executes: it joins the
waiting ones, or is made at once. -/
theorem keepsCommand_hostAccess {m : Nat} {a : BusAccess} {rest : List Input} (hacc : HostAccess s m a rest)
    (hbusy : busy s = true) (hsrst : ∀ data, a = .write 0x008 .word data → data.getLsbD 0 = false)
    (hstep : step s = .next t) : KeepsCommand s t := by
  by_cases hwait : MustWait s a
  · rw [step_of_mustWait hacc hwait] at hstep
    cases hstep
    rfl
  · rw [step_of_access hacc hwait] at hstep
    cases hstep
    have hnow : ¬MustWait (setInputs s rest) a := by cases a <;> exact hwait
    have hkeeps : KeepsCommand (setInputs s rest) (completeRequest (setInputs s rest) ⟨m, a⟩) :=
      keepsCommand_completeRequest (keepsCommand_performAccess hbusy hnow hsrst)
    exact hkeeps

end

/-- Settles O59: a command in execution makes BUSY = 1, so the access keeps to the host's side. -/
theorem nothingInterruptsACommand : Obligations.NothingInterruptsACommand := by
  intro s t m access rest w hacc hexec hsrst hstep
  have hbusy : busy s = true := by simp [busy, hexec]
  have hkeeps := keepsCommand_hostAccess hacc hbusy hsrst hstep
  exact ⟨hkeeps.inExec.trans hexec, hkeeps.cmdidx, hkeeps.onlyChanges⟩

end Sys2Proof.Machine
end

section
/-! PROOFS for the round trips of 30_encoding.md: decoding an encoding (R87, R89), encoding a decoded word, and the
unassigned opcodes (R88). -/

namespace Sys2Proof

open Machine

theorem encodedAs_pmul (rd rs1 rs2 : Reg) (neg : Bool) : EncodedAs (.pmul rd rs1 rs2 neg)
    (packR 0x2B (regBits rd) (regBits rs1) (regBits rs2) 0 0 (if neg then 1 else 0) 0) := by
  cases neg <;> exact encodedAs_of_decode (by simp [decode, decodeZero_ok])

/-- Decoding undoes encoding: the word of each command is the one its rule names. -/
theorem decode_encode {i : Instr} (h : i.wellFormed = true) : decode (encode i) = .ok i := by
  cases i with
  | nop => exact (encodedAs_nop _).mpr rfl
  | ldi => exact (encodedAs_ldi ..).mpr rfl
  | movx => exact (encodedAs_movx ..).mpr rfl
  | cmpx => exact (encodedAs_cmpx ..).mpr rfl
  | ldn => exact (encodedAs_ldn _ _ h _).mpr rfl
  | stn => exact (encodedAs_stn _ _ h _).mpr rfl
  | setm => exact (encodedAs_setm ..).mpr rfl
  | modadd | modsub | modmul | montmul | montred => simp [encode, decode, encodeSel, decodeSel_ok, zeroSel3]
  | modneg | modred | tomont => simp [encode, decode, encodeSel, decodeSel_ok, zeroSel2, zeroSel3]
  | modinv => exact (encodedAs_modinv ..).mpr rfl
  | modsqrt => exact (encodedAs_modsqrt ..).mpr rfl
  | domcrv => exact (encodedAs_domcrv ..).mpr rfl
  | domord => exact (encodedAs_domord ..).mpr rfl
  | domgen => exact (encodedAs_domgen ..).mpr rfl
  | pinf => exact (encodedAs_pinf ..).mpr rfl
  | pgen => exact (encodedAs_pgen ..).mpr rfl
  | pset => exact (encodedAs_pset ..).mpr rfl
  | pgetx => exact (encodedAs_pgetx ..).mpr rfl
  | pgety => exact (encodedAs_pgety ..).mpr rfl
  | pmov => exact (encodedAs_pmov ..).mpr rfl
  | peq => exact (encodedAs_peq ..).mpr rfl
  | pisinf => exact (encodedAs_pisinf ..).mpr rfl
  | padd => exact (encodedAs_padd ..).mpr rfl
  | pdbl => exact (encodedAs_pdbl ..).mpr rfl
  | pneg => exact (encodedAs_pneg ..).mpr rfl
  | pmul => exact (encodedAs_pmul ..).mpr rfl
  | pdec => exact (encodedAs_pdec _ _ h _).mpr rfl
  | penc => exact (encodedAs_penc ..).mpr rfl
  | hinit => exact (encodedAs_hinit ..).mpr rfl
  | hupd => exact (encodedAs_hupd ..).mpr rfl
  | hfin => exact (encodedAs_hfin ..).mpr rfl
  | htoe => exact (encodedAs_htoe ..).mpr rfl
  | ecdsav => exact (encodedAs_ecdsav ..).mpr rfl

/-- Settles O1: `decode_encode`, command by command. -/
theorem decodeEncodeRoundTrip : Obligations.DecodeEncodeRoundTrip := fun _ => decode_encode

/-- The decoder checks the byte count of LDN, STN and PDEC (R85); no other command restricts its operands. -/
theorem wellFormed_of_decode {w : Word} {i : Instr} (h : decode w = .ok i) : i.wellFormed = true := by
  unfold decode at h
  split at h
  case h_40 => cases h
  case h_2 => cases h; rfl
  case h_37 =>
    split at h
    case isTrue => obtain ⟨-, -, rfl⟩ := decodeLen_ok.mp h; rfl
    case isFalse => cases h
  case h_5 | h_6 | h_33 =>
    obtain ⟨-, hlen, rfl⟩ := decodeLen_ok.mp h
    exact hlen
  case h_34 | h_36 =>
    obtain ⟨-, -, rfl⟩ := decodeLen_ok.mp h
    rfl
  case h_8 | h_9 | h_10 | h_11 | h_12 | h_13 | h_14 | h_15 | h_16 | h_17 =>
    obtain ⟨-, sel, -, rfl⟩ := decodeSel_ok.mp h
    rfl
  all_goals
    obtain ⟨-, rfl⟩ := decodeZero_ok.mp h
    rfl

/-- Settles O2: the decoder's checks make the instruction well formed, and `encode_of_decode` gives the word back. -/
theorem encodeDecodeRoundTrip : Obligations.EncodeDecodeRoundTrip := fun _ _ h =>
  ⟨wellFormed_of_decode h, encode_of_decode h⟩

/-! ## Unassigned opcodes -/

section
variable {zero lenOk : Bool} {w : Word} {i : Instr} {k : ModSel → Instr}

theorem decodeZero_ne_unassigned : decodeZero zero i ≠ .error .unassignedOpcode := by
  cases zero <;> simp [decodeZero]

theorem decodeSel_ne_unassigned : decodeSel zero w k ≠ .error .unassignedOpcode := by
  unfold decodeSel
  split
  · split <;> simp
  · simp

theorem decodeLen_ne_unassigned : decodeLen w lenOk i ≠ .error .unassignedOpcode := by
  unfold decodeLen
  split
  · split <;> simp
  · simp

end

/-- The opcodes of R88 that no command has. -/
def Unassigned (op : Nat) : Prop :=
  op = 0x07 ∨ (0x12 ≤ op ∧ op ≤ 0x17) ∨ (0x1B ≤ op ∧ op ≤ 0x1F) ∨ op = 0x2E ∨ op = 0x2F ∨
    (0x34 ≤ op ∧ op ≤ 0x37) ∨ 0x39 ≤ op

/-- An assigned arm refuses a word for one of its fields only, and the arms leave exactly the opcodes of R88. -/
theorem decode_eq_unassigned_iff {w : Word} :
    decode w = .error .unassignedOpcode ↔ Unassigned (opField w).toNat := by
  have hlt : (opField w).toNat < 64 := (opField w).isLt
  unfold decode Unassigned
  split
  case h_40 =>
    simp only [imp_false, true_iff] at *
    omega
  all_goals
    rename_i hop
    rw [hop]
    simp [decodeZero_ne_unassigned, decodeSel_ne_unassigned, decodeLen_ne_unassigned]
  split
  · exact decodeLen_ne_unassigned
  · simp

/-- Settles O5: the arms of the decoder, and the one word of NOP. -/
theorem unassignedOpcodesAreIllegal : Obligations.UnassignedOpcodesAreIllegal :=
  ⟨fun _ => decode_eq_unassigned_iff, encodedAs_nop⟩

end Sys2Proof
end

section
/-! PROOFS for the invariant of the state (R22 to R33 10_state.md): reset has it and every step keeps it. What a command
works on is `DataOk`; each write keeps it under the condition its rule establishes, and every command ends with writes
whose conditions hold (`exec_dataOk`). -/

namespace Sys2Proof.Machine

/-! ## How a command ends -/

/-- A command that starts in `s` retires on effects with the property P, or raises a cause with the property C. -/
inductive EndsWith (s : State) (P : State → Prop) (C : Cause → Prop) : Result → Prop where
  | retires {u : State} (h : P u) : EndsWith s P C (retire u)
  | faults {c : Cause} (h : C c) : EndsWith s P C (raise c s)

namespace EndsWith

variable {s t : State} {P : State → Prop} {C : Cause → Prop}

/-- A command that ends with a value which may raise. -/
theorem ofFinishWith {α : Type} {r : Except Cause α} {k : α → State} (hok : ∀ v, r = .ok v → P (k v))
    (herror : ∀ c, r = .error c → C c) : EndsWith s P C (finishWith r s k) :=
  match r with
  | .ok v => .retires (hok v rfl)
  | .error c => .faults (herror c rfl)

/-- A command that makes a check first. -/
theorem ofIte {p : Prop} [Decidable p] {a b : Result} (ha : p → EndsWith s P C a) (hb : ¬p → EndsWith s P C b) :
    EndsWith s P C (if p then a else b) := by
  split
  case isTrue h => exact ha h
  case isFalse h => exact hb h

/-- The state it answers. -/
theorem next (h : EndsWith s P C (.next t)) : (∃ u, P u ∧ t = retired u) ∨ ∃ c, C c ∧ t = takeFault c s := by
  generalize hr : (Host.Outcome.next t : Result) = r at h
  cases h with
  | retires hu => exact .inl ⟨_, hu, Host.Outcome.next.inj hr⟩
  | faults hc => exact .inr ⟨_, hc, Host.Outcome.next.inj hr⟩

end EndsWith

/-! ## What the writes keep -/

/-- The part of the invariant that speaks of what commands work on. -/
structure DataOk (s : State) : Prop where
  domain : DomainOk s.dom
  gmod : GenModOk s.gmod
  points : PointsOk s
  hash : HashOk s.hash
  digest : DigestOk s.digest
  memory : s.spm.wf = true

theorem StateOk.dataOk {s : State} (h : StateOk s) : DataOk s :=
  ⟨h.domain, h.gmod, h.points, h.hash, h.digest, h.memory⟩

theorem fieldP_le (s : State) : fieldP s ≤ 2 ^ 256 := (BitVec.isLt _).le

namespace DataOk

variable {s : State} (h : DataOk s)
include h

theorem stateOk (hseq : SequenceOk s) (herrs : ErrorsOk s.errs) : StateOk s :=
  ⟨h.domain, h.gmod, h.points, h.hash, h.digest, hseq, herrs, h.memory⟩

/-- Neither end of a command writes more of it. -/
theorem retired : DataOk (retired s) := ⟨h.domain, h.gmod, h.points, h.hash, h.digest, h.memory⟩

theorem takeFault (c : Cause) : DataOk (takeFault c s) :=
  ⟨h.domain, h.gmod, h.points, h.hash, h.digest, h.memory⟩

theorem writeF (b : Bool) : DataOk (writeF s b) := ⟨h.domain, h.gmod, h.points, h.hash, h.digest, h.memory⟩

/-- The X registers are under no condition (R20). -/
theorem writeX (r : Reg) (v : Big) : DataOk (writeX s r v) := by
  unfold Machine.writeX
  split
  · exact h
  · exact ⟨h.domain, h.gmod, h.points, h.hash, h.digest, h.memory⟩

theorem writePT {r : Reg} {v : PointReg} (hcrv : s.dom.crv = true) (hv : v.below (fieldP s) = true) :
    DataOk (writePT s r v) where
  domain := h.domain
  gmod := h.gmod
  points q := by
    rw [readPT_writePT]
    split
    · exact ⟨fun _ => hcrv, hv⟩
    · exact h.points q
  hash := h.hash
  digest := h.digest
  memory := h.memory

/-- A point with coordinates below p may be written (R22). -/
theorem writePoint {r : Reg} {q : Point} (hcrv : s.dom.crv = true) (hq : Below (fieldP s) q) :
    DataOk (Machine.writePT s r q.toReg) :=
  h.writePT hcrv (toReg_below (fieldP_le s) hq)

theorem memWrite {a : Nat} {bytes : List Byte} (hb : a + bytes.length ≤ Config.spmSize) :
    DataOk (memWrite s a bytes) where
  domain := h.domain
  gmod := h.gmod
  points := h.points
  hash := h.hash
  digest := h.digest
  memory := wf_memStoreAll hb h.memory

theorem writeModulus {v : Big} (hv : modulusOk v.toNat = true) : DataOk (writeModulus s v) :=
  ⟨h.domain, fun _ => modulusOk_iff.mp hv, h.points, h.hash, h.digest, h.memory⟩

theorem writeHash {g : HashState} (hg : HashOk g) : DataOk (writeHash s g) :=
  ⟨h.domain, h.gmod, h.points, hg, h.digest, h.memory⟩

/-- HD gets the bytes of a digest of the given length, and zeros after them (R30). -/
theorem writeDigest {bytes : List Byte} {len : Fin 257} (hlen : 1 ≤ len.val) (hbytes : bytes.length = ceil8 len.val) :
    DataOk (writeDigest s bytes len) where
  domain := h.domain
  gmod := h.gmod
  points := h.points
  hash := h.hash
  digest := ⟨iff_of_true rfl hlen, fun i hi =>
    (hdOf_getElem bytes i).trans (if_neg (not_lt.mpr (hbytes.le.trans hi)))⟩
  memory := h.memory

theorem writeOrder {n d : Big} (hcrv : s.dom.crv = true) (hn : modulusOk n.toNat = true) :
    DataOk (writeDomain s { s.dom with dn := n, dh := d, ord := true }) where
  domain := ⟨h.domain.curve, fun _ => ⟨hcrv, modulusOk_iff.mp hn⟩, h.domain.base, h.domain.noBase, h.domain.baseBelow⟩
  gmod := h.gmod
  points := h.points
  hash := h.hash
  digest := h.digest
  memory := h.memory

theorem writeBase {g : PointReg} (hcrv : s.dom.crv = true) (hg : g ≠ .empty) (hbelow : g.below (fieldP s) = true) :
    DataOk (writeDomain s { s.dom with dg := g, gen := true }) where
  domain := ⟨h.domain.curve, h.domain.order, fun _ => ⟨hcrv, hg⟩, fun hgen => absurd hgen (by simp), hbelow⟩
  gmod := h.gmod
  points := h.points
  hash := h.hash
  digest := h.digest
  memory := h.memory

/-- A domain that is fine by itself, once no point register belongs to the old curve (R146). -/
theorem replaceDomain {d : Domain} (hd : DomainOk d) : DataOk (emptyPoints (writeDomain s d)) where
  domain := hd
  gmod := h.gmod
  points r := by rw [readPT_emptyPoints]; exact ⟨fun hne => absurd rfl hne, rfl⟩
  hash := h.hash
  digest := h.digest
  memory := h.memory

end DataOk

/-- What DOMCRV writes after its checks (R145). -/
theorem domainOk_curveDomain {p a b : Nat} (hp : p < 2 ^ 256) (hmod : modulusOk p = true)
    (hsing : singular p (a % p) (b % p) = false) : DomainOk (curveDomain p (a % p) (b % p)) := by
  obtain ⟨hodd, hge⟩ := modulusOk_iff.mp hmod
  have hstored : ∀ v ≤ p, (BitVec.ofNat 256 v).toNat = v := fun v hv => by
    rw [BitVec.toNat_ofNat, Nat.mod_eq_of_lt (hv.trans_lt hp)]
  have hlt : ∀ v, v % p < p := fun v => Nat.mod_lt v (by omega)
  have hcurve : (4 * (a % p) ^ 3 + 27 * (b % p) ^ 2) % p ≠ 0 := fun h0 => by
    rw [singular_iff.mpr h0] at hsing
    exact absurd hsing (by simp)
  refine ⟨fun _ => ?_, fun h => absurd h (by simp [curveDomain]), fun h => absurd h (by simp [curveDomain]),
    fun _ => rfl, rfl⟩
  simp only [curveDomain, hstored p le_rfl, hstored _ (hlt a).le, hstored _ (hlt b).le]
  exact ⟨hodd, hge, hlt a, hlt b, hcurve⟩

/-! ## The hash state -/

theorem hashOk_startedHash {len : Fin 257} (hlen : 1 ≤ len.val) : HashOk (startedHash len) :=
  ⟨by simp [startedHash], fun h => by simp [startedHash] at h, fun _ => hlen⟩

theorem hashOk_idleHash : HashOk idleHash := ⟨by simp [idleHash], fun _ => rfl, fun h => absurd rfl h⟩

/-- HUPD keeps ABSORB with RB = 0, or goes to FINALBITS with the count of its partial byte (R210). -/
theorem hashOk_absorbMessage {s : State} {a n : Nat} (h : HashOk s.hash) (hphase : s.hash.phase = .absorb) :
    HashOk (absorbMessage s a n) := by
  obtain ⟨hph, hrb, hhl⟩ := absorbAll_frame s.hash (memRead s a (n / 8))
  have hlen : 1 ≤ s.hash.hl.val := h.length (by simp [hphase])
  by_cases hn : n % 8 = 0
  · have hrb0 : s.hash.rb = 0 := by simpa [hphase] using h.bits
    rw [absorbMessage_whole hn]
    exact ⟨by simp [hph, hrb, hrb0, hphase], fun hi => by simp [hph, hphase] at hi, fun _ => by rwa [hhl]⟩
  · have hbits : Fin.ofNat 8 n ≠ 0 := Fin.ne_of_val_ne (show n % 8 ≠ 0 from hn)
    rw [absorbMessage_partial hn]
    exact ⟨iff_of_true hbits rfl, fun hi => by simp [absorbBits] at hi, fun _ => by simpa [absorbBits, hhl] using hlen⟩

/-! ## What the values of the commands establish -/

/-- A check that raises when it fails, read as the condition it establishes. -/
theorem eq_true_of_not_not {b : Bool} (h : ¬(!b) = true) : b = true := by simpa using h

section
variable {s : State} {r rs1 rs2 : Reg} {len : BitVec 7} {addr : BitVec 12} {bytes : List Byte} {q : Point}

theorem stnBytes_inBounds (h : stnBytes r len addr s = .ok bytes) :
    spmAddr addr + bytes.length ≤ Config.spmSize := by
  unfold stnBytes at h
  split_ifs at h with hlen hb hv
  cases h
  rw [beBytes_length]
  simpa [inBounds] using hb

theorem pencBytes_inBounds (h : pencBytes r addr s = .ok bytes) :
    spmAddr addr + bytes.length ≤ Config.spmSize := by
  unfold pencBytes at h
  split at h
  · cases h
  · split_ifs at h with hb
    cases h
    simpa [inBounds] using hb

/-- HFIN stores a digest of a started hash state, in bounds (R211). -/
theorem hfinBytes_ok (h : hfinBytes addr s = .ok bytes) : s.hash.phase ≠ .idle ∧ bytes = digestBytes s.hash ∧
    spmAddr addr + bytes.length ≤ Config.spmSize := by
  unfold hfinBytes at h
  split_ifs at h with hphase hb
  cases h
  rw [digestBytes_length]
  exact ⟨hphase, rfl, of_decide_eq_true (eq_true_of_not_not hb)⟩

theorem pointNeg_below {p : Nat} (hp : p ≠ 0) (hq : Below p q) : Below p (pointNeg p q) := by
  cases q with
  | inf => exact hq
  | aff x y =>
    intro x' y' heq
    cases heq
    exact ⟨(hq x y rfl).1, subMod_lt _ _ hp⟩

variable (hs : DataOk s)
include hs

/-- With a curve, p is a modulus. -/
theorem DataOk.three_le_fieldP (hcrv : s.dom.crv = true) : 3 ≤ fieldP s := (hs.domain.curve hcrv).2.1

theorem curvePoint_below (h : curvePoint s r = .ok q) : s.dom.crv = true ∧ Below (fieldP s) q := by
  obtain ⟨hcrv, hq⟩ := curvePoint_eq_ok h
  exact ⟨hcrv, below_of_pt hs.points hq⟩

theorem pdecValue_below (h : pdecValue len addr s = .ok q) : s.dom.crv = true ∧ Below (fieldP s) q := by
  unfold pdecValue at h
  split_ifs at h with hlen hcrv hb
  have hcrv : s.dom.crv = true := by simpa using hcrv
  exact ⟨hcrv, decode_below (hs.three_le_fieldP hcrv) h⟩

theorem paddValue_below (h : paddValue rs1 rs2 s = .ok q) : s.dom.crv = true ∧ Below (fieldP s) q := by
  unfold paddValue at h
  split at h
  case h_1 => cases h
  case h_2 hqs =>
    obtain ⟨hcrv, h1, h2⟩ := curvePoints_eq_ok hqs
    have hp := hs.three_le_fieldP hcrv
    exact ⟨hcrv, pointAdd_below (by omega) (below_of_pt hs.points h1) (below_of_pt hs.points h2) h⟩

theorem pdblValue_below (h : pdblValue rs1 s = .ok q) : s.dom.crv = true ∧ Below (fieldP s) q := by
  unfold pdblValue at h
  split at h
  case h_1 => cases h
  case h_2 hq =>
    obtain ⟨hcrv, hbelow⟩ := curvePoint_below hs hq
    have hp := hs.three_le_fieldP hcrv
    exact ⟨hcrv, pointAdd_below (by omega) hbelow hbelow h⟩

theorem pmulValue_below (h : pmulValue rs1 rs2 s = .ok q) : s.dom.crv = true ∧ Below (fieldP s) q := by
  unfold pmulValue at h
  split at h
  case h_1 => cases h
  case h_2 hq =>
    obtain ⟨hcrv, hbelow⟩ := curvePoint_below hs hq
    exact ⟨hcrv, scalarMul_below (hs.three_le_fieldP hcrv) hbelow h⟩

end

/-! ## Every command keeps the invariant -/

/-- Every command ends with the data in order, in every state whose data are. -/
theorem exec_dataOk (i : Instr) {s : State} (h : DataOk s) : EndsWith s DataOk (fun _ => True) (exec i s) := by
  have faults (c : Cause) : EndsWith s DataOk (fun _ => True) (raise c s) := .faults trivial
  have finish {α : Type} {r : Except Cause α} {k : α → State} (hok : ∀ v, r = .ok v → DataOk (k v)) :
      EndsWith s DataOk (fun _ => True) (finishWith r s k) := .ofFinishWith hok fun _ _ => trivial
  cases i with
  | nop => exact .retires h
  | ldi | movx => exact .retires (h.writeX ..)
  | cmpx => exact .retires (h.writeF _)
  | ldn => exact .ofIte (fun _ => faults _) fun _ => .ofIte (fun _ => faults _) fun _ => .retires (h.writeX ..)
  | stn => exact finish fun _ hv => h.memWrite (stnBytes_inBounds hv)
  | setm => exact .ofIte (fun hv => .retires (h.writeModulus hv)) fun _ => faults _
  | modadd | modsub | modneg | modred | modmul | montmul | montred | tomont | modinv | modsqrt =>
    exact finish fun _ _ => h.writeX ..
  | domcrv =>
    refine .ofIte (fun _ => faults _) fun hmod => .ofIte (fun _ => faults _) fun hsing => .retires ?_
    exact h.replaceDomain (domainOk_curveDomain (BitVec.isLt _) (eq_true_of_not_not hmod) (Bool.not_eq_true _ ▸ hsing))
  | domord =>
    exact .ofIte (fun _ => faults _) fun hcrv => .ofIte (fun _ => faults _) fun hmod =>
      .retires (h.writeOrder (eq_true_of_not_not hcrv) (eq_true_of_not_not hmod))
  | domgen rs1 =>
    exact .ofIte (fun _ => faults _) fun hcrv => .ofIte (fun _ => faults _) fun hne =>
      .retires (h.writeBase (eq_true_of_not_not hcrv) hne (h.points rs1).2)
  | pinf => exact .ofIte (fun hcrv => .retires (h.writePT hcrv rfl)) fun _ => faults _
  | pgen =>
    exact .ofIte (fun _ => faults _) fun hcrv => .ofIte (fun _ => faults _) fun _ =>
      .retires (h.writePT (eq_true_of_not_not hcrv) h.domain.baseBelow)
  | pset =>
    refine .ofIte (fun _ => faults _) fun hcrv => .ofIte (fun _ => faults _) fun hlt => .retires ?_
    obtain ⟨hx, hy⟩ := not_or.mp hlt
    exact h.writePT (eq_true_of_not_not hcrv) (by simpa [PointReg.below] using ⟨lt_of_not_ge hx, lt_of_not_ge hy⟩)
  | pgetx | pgety => exact finish fun _ _ => (h.writeX ..).writeF _
  | pmov rd rs1 => exact finish fun _ hq => h.writePT (curvePoint_eq_ok hq).1 (h.points rs1).2
  | peq | pisinf | ecdsav => exact finish fun _ _ => h.writeF _
  | padd => exact finish fun _ hv => h.writePoint (paddValue_below h hv).1 (paddValue_below h hv).2
  | pdbl => exact finish fun _ hv => h.writePoint (pdblValue_below h hv).1 (pdblValue_below h hv).2
  | pneg =>
    refine finish fun _ hq => ?_
    obtain ⟨hcrv, hbelow⟩ := curvePoint_below h hq
    have hp := h.three_le_fieldP hcrv
    exact h.writePoint hcrv (pointNeg_below (by omega) hbelow)
  | pmul rd rs1 rs2 neg =>
    refine finish fun _ hv => ?_
    obtain ⟨hcrv, hbelow⟩ := pmulValue_below h hv
    have hp := h.three_le_fieldP hcrv
    cases neg with
    | true => exact h.writePoint hcrv (pointNeg_below (by omega) hbelow)
    | false => exact h.writePoint hcrv hbelow
  | pdec => exact finish fun _ hv => h.writePoint (pdecValue_below h hv).1 (pdecValue_below h hv).2
  | penc => exact finish fun _ hv => h.memWrite (pencBytes_inBounds hv)
  | hinit imm =>
    change EndsWith s _ _ (execHinit imm s)
    unfold execHinit
    split
    case isTrue hlen => exact .retires (h.writeHash (hashOk_startedHash hlen.1))
    case isFalse => exact faults _
  | hupd =>
    exact .ofIte (fun _ => faults _) fun hphase => .ofIte (fun _ => faults _) fun _ =>
      .retires (h.writeHash (hashOk_absorbMessage h.hash (not_not.mp hphase)))
  | hfin =>
    refine finish fun bytes hv => ?_
    obtain ⟨hphase, rfl, hb⟩ := hfinBytes_ok hv
    exact ((h.memWrite hb).writeDigest (h.hash.length hphase) (digestBytes_length _)).writeHash hashOk_idleHash
  | htoe => exact .ofIte (fun _ => faults _) fun _ => .ofIte (fun _ => faults _) fun _ => .retires (h.writeX ..)

theorem causeCode_range (c : Cause) : 1 ≤ (causeCode c).toNat ∧ (causeCode c).toNat ≤ 13 := by
  cases c <;> decide

theorem stateOk_takeFault (c : Cause) {s : State} (h : StateOk s) : StateOk (takeFault c s) :=
  (h.dataOk.takeFault c).stateOk ⟨Nat.zero_le _, fun _ => ⟨rfl, rfl⟩⟩
    ⟨(causeCode_range c).2, fun _ => (causeCode_range c).1⟩

/-- A command keeps the invariant: the data by `exec_dataOk`, the rest by the two ends of a command. -/
theorem stateOk_exec {i : Instr} {s t : State} (h : StateOk s) (hexec : exec i s = .next t) : StateOk t := by
  have hdata := exec_dataOk i h.dataOk
  rw [hexec] at hdata
  have htdata : DataOk t := by
    obtain ⟨u, hu, rfl⟩ | ⟨c, -, rfl⟩ := hdata.next
    · exact hu.retired
    · exact h.dataOk.takeFault c
  obtain ⟨u, hu, rfl⟩ | ⟨c, rfl⟩ := exec_cases hexec
  · have herrs : (retired u).errs = s.errs := hu.errs
    have hqueue : (retired u).queue = s.queue := hu.queue
    refine htdata.stateOk ⟨by rw [hqueue]; exact h.sequence.depth, fun herr => ?_⟩ (herrs ▸ h.errors)
    rw [herrs] at herr
    exact ⟨hqueue.trans (h.sequence.halted herr).1, rfl⟩
  · exact stateOk_takeFault c h

theorem stateOk_runCommand {w : Word} {s t : State} (h : StateOk s) (hrun : runCommand w s = .next t) : StateOk t := by
  unfold runCommand at hrun
  split at hrun
  · exact stateOk_exec h hrun
  · cases hrun
    exact stateOk_takeFault _ h

/-! ## The engine's moves -/

section
variable {s t : State} (h : StateOk s)
include h

/-- The interrupt bits and the bus are under no condition. -/
theorem StateOk.hostSide (irqEn irqStatus : IrqBits) (bus : BusState) :
    StateOk { s with irqEn := irqEn, irqStatus := irqStatus, bus := bus } :=
  ⟨h.domain, h.gmod, h.points, h.hash, h.digest, ⟨h.sequence.depth, h.sequence.halted⟩, h.errors, h.memory⟩

theorem stateOk_setInputs (inputs : List Input) : StateOk (setInputs s inputs) := h.hostSide _ _ _

theorem stateOk_setStalled (waiting : List BusRequest) : StateOk (setStalled s waiting) := h.hostSide _ _ _

/-- A command starts only while ERR = 0 (R248). -/
theorem stateOk_startCommand {w : Word} {rest : List Word} (hclear : s.errs.err = false) (hq : s.queue = w :: rest) :
    StateOk (startCommand s w rest) := by
  have hdepth := h.sequence.depth
  rw [hq, List.length_cons] at hdepth
  exact ⟨h.domain, h.gmod, h.points, h.hash, h.digest,
    ⟨(Nat.le_succ _).trans hdepth, fun herr => absurd (hclear.symm.trans herr) (by simp)⟩, h.errors, h.memory⟩

theorem stateOk_engineMove (hmove : engineMove s = .next t) : StateOk t := by
  unfold engineMove at hmove
  split at hmove
  case isTrue => cases hmove; exact h
  case isFalse hclear =>
    split at hmove
    case h_1 => exact stateOk_runCommand h hmove
    case h_2 =>
      split at hmove
      case h_1 => cases hmove; exact h
      case h_2 hq => cases hmove; exact stateOk_startCommand h (Bool.not_eq_true _ ▸ hclear) hq

theorem stateOk_engineRun (hrun : engineRun s = .next t) : StateOk t := by
  unfold engineRun at hrun
  split at hrun
  case isTrue => cases hrun; exact h
  case isFalse hclear =>
    split at hrun
    case h_1 => exact stateOk_runCommand h hrun
    case h_2 =>
      split at hrun
      case h_1 => cases hrun; exact h
      case h_2 hq => exact stateOk_runCommand (stateOk_startCommand h (Bool.not_eq_true _ ▸ hclear) hq) hrun

end

/-! ## Resets -/

/-- Settles O10: every condition of the invariant holds of the cleared registers. -/
theorem resetStateOk : Obligations.ResetStateOk where
  domain := ⟨fun h => by simp [State.reset] at h, fun h => by simp [State.reset] at h,
    fun h => by simp [State.reset] at h, fun _ => rfl, rfl⟩
  gmod h := by simp [State.reset] at h
  points r := by rw [readPT_reset]; exact ⟨fun hne => absurd rfl hne, rfl⟩
  hash := hashOk_idleHash
  digest := ⟨by simp [State.reset], fun i _ => by simp [State.reset]⟩
  sequence := ⟨Nat.zero_le _, fun h => by simp [State.reset] at h⟩
  errors := ⟨Nat.zero_le _, fun h => by simp [State.reset] at h⟩
  memory := reset_memory_wf

/-- The store a reset abandons lies inside the scratchpad. -/
theorem storeOf_inBounds {i : Instr} {s : State} {a : Nat} {bytes : List Byte} (h : storeOf i s = some (a, bytes)) :
    a + bytes.length ≤ Config.spmSize := by
  have stored {r : Except Cause (List Byte)} {addr : Nat}
      (hr : r.toOption.map (fun bytes => (addr, bytes)) = some (a, bytes)) : r = .ok bytes ∧ addr = a := by
    cases r with
    | error c => simp [Except.toOption] at hr
    | ok v => simpa [Except.toOption, and_comm] using hr
  unfold storeOf at h
  split at h
  case h_1 => obtain ⟨hv, rfl⟩ := stored h; exact stnBytes_inBounds hv
  case h_2 => obtain ⟨hv, rfl⟩ := stored h; exact pencBytes_inBounds hv
  case h_3 => obtain ⟨hv, rfl⟩ := stored h; exact (hfinBytes_ok hv).2.2
  case h_4 => cases h

theorem pendingStore_inBounds {s : State} {a : Nat} {bytes : List Byte} (h : pendingStore s = some (a, bytes)) :
    a + bytes.length ≤ Config.spmSize := by
  unfold pendingStore at h
  split at h
  case h_1 => cases h
  case h_2 =>
    split at h
    case h_1 => exact storeOf_inBounds h
    case h_2 => cases h

theorem wf_resetSpm {s : State} (h : s.spm.wf = true) : Memory.wf (resetSpm s) = true := by
  unfold resetSpm
  split
  case h_1 => exact h
  case h_2 hstore => exact wf_abandonedStore (pendingStore_inBounds hstore) h

/-- The reset registers with any SPM in canonical form. -/
theorem stateOk_reset_with {spm : Memory} (h : spm.wf = true) (free : FreeDraws) (bus : BusState) :
    StateOk { State.reset with spm := spm, free := free, bus := bus } :=
  ⟨resetStateOk.domain, resetStateOk.gmod, resetStateOk.points, resetStateOk.hash, resetStateOk.digest,
    ⟨resetStateOk.sequence.depth, resetStateOk.sequence.halted⟩, resetStateOk.errors, h⟩

theorem stateOk_softReset {s : State} (h : StateOk s) : StateOk (softReset s) :=
  stateOk_reset_with (wf_resetSpm h.memory) _ _

theorem stateOk_powerOn (s : State) : StateOk (powerOn s) := stateOk_reset_with rfl _ _

/-! ## Host accesses -/

/-- An aligned access to the SPM part stays inside it (R53). -/
theorem spmOffset_inBounds {o : BitVec 13} {width : AccessWidth} (hlegal : accessLegal o width = true)
    (hspm : inSpmPart o = true) : spmOffset o + width.size ≤ Config.spmSize := by
  have hlt := o.isLt
  have hge : 0x1000 ≤ o.toNat := of_decide_eq_true hspm
  have halign : o.toNat % width.size = 0 := by simpa using (Bool.and_eq_true_iff.mp hlegal).1
  unfold spmOffset Config.spmSize
  cases width <;> simp only [AccessWidth.size] at halign ⊢ <;> omega

section
variable {s t : State} (h : StateOk s)
include h

theorem stateOk_clearError : StateOk (clearError s) :=
  ⟨h.domain, h.gmod, h.points, h.hash, h.digest,
    ⟨h.sequence.depth, fun herr => by simp [clearError] at herr⟩,
    ⟨h.errors.code, fun herr => by simp [clearError] at herr⟩, h.memory⟩

/-- A CMD write finds an entry free, or is discarded (R39, R246). -/
theorem stateOk_writeCmd {w : Word} (hroom : s.errs.err = false → s.queue.length < Config.queueDepth) :
    StateOk (writeCmd s w) := by
  unfold writeCmd
  split
  case isTrue => exact h
  case isFalse hclear =>
    refine ⟨h.domain, h.gmod, h.points, h.hash, h.digest, ⟨?_, fun herr => absurd herr hclear⟩, h.errors, h.memory⟩
    rw [List.length_append]
    exact hroom (Bool.not_eq_true _ ▸ hclear)

theorem stateOk_writeCsr {offset : Nat} {w : Word}
    (hroom : offset = 0x018 → s.errs.err = false → s.queue.length < Config.queueDepth) :
    StateOk (writeCsr s offset w) := by
  unfold writeCsr
  split
  case h_1 =>
    unfold writeCtrl
    split
    · exact stateOk_softReset h
    · split
      · exact stateOk_clearError h
      · exact h
  case h_2 => exact h.hostSide _ _ _
  case h_3 => exact h.hostSide _ _ _
  case h_4 => exact stateOk_writeCmd h (hroom rfl)
  case h_5 => exact h

theorem stateOk_performAccess {a : BusAccess} (hnow : ¬MustWait s a) : StateOk (performAccess s a).1 := by
  cases a with
  | read o width => rw [performAccess_read]; exact h
  | write o width data =>
    simp only [performAccess]
    split_ifs with hlegal hspm
    · exact h
    · have hlegal := eq_true_of_not_not hlegal
      have hsize : ((leBytes data).take width.size).length = width.size := by cases width <;> rfl
      have hb : spmOffset o + ((leBytes data).take width.size).length ≤ Config.spmSize := by
        rw [hsize]; exact spmOffset_inBounds hlegal hspm
      exact (h.dataOk.memWrite hb).stateOk ⟨h.sequence.depth, h.sequence.halted⟩ h.errors
    · have hlegal := eq_true_of_not_not hlegal
      obtain rfl := width_eq_word_of_legalCsr hlegal hspm
      refine stateOk_writeCsr h fun ho hclear => lt_of_not_ge fun hfull => hnow (.inr ⟨?_, rfl, hclear, hfull⟩)
      exact BitVec.eq_of_toNat_eq ho

/-- An access that does not have to wait keeps the invariant. -/
theorem stateOk_completeRequest {req : BusRequest} (hnow : ¬MustWait s req.access) : StateOk (completeRequest s req) :=
  (stateOk_performAccess h hnow).hostSide _ _ _

end

/-! ## The step -/

theorem mustWait_setInputs {s : State} {inputs : List Input} {a : BusAccess} :
    MustWait (setInputs s inputs) a ↔ MustWait s a := by cases a <;> rfl

theorem mustWait_setStalled {s : State} {waiting : List BusRequest} {a : BusAccess} :
    MustWait (setStalled s waiting) a ↔ MustWait s a := by cases a <;> rfl

/-- The access taken from the waiting ones does not have to wait. -/
theorem not_mustWait_of_takeReady {s : State} {l others : List BusRequest} {req : BusRequest}
    (h : takeReady s l = some (req, others)) : ¬MustWait s req.access := by
  induction l generalizing others with
  | nil => cases h
  | cons head rest ih =>
    unfold takeReady at h
    split at h
    case isTrue hready =>
      cases h
      rw [← stalls_iff]
      simpa using hready
    case isFalse =>
      obtain ⟨⟨req', others'⟩, hfound, heq⟩ := Option.map_eq_some_iff.mp h
      cases heq
      exact ih hfound

theorem stateOk_nextInput {s t : State} (h : StateOk s) (hnext : nextInput s = .next t) : StateOk t := by
  unfold nextInput at hnext
  split at hnext
  case h_1 =>
    split at hnext
    · exact stateOk_engineRun h hnext
    · exact stateOk_engineMove h hnext
  case h_2 req rest _ =>
    split_ifs at hnext with hheld hstall
    · exact stateOk_engineMove h hnext
    · cases hnext
      exact stateOk_setStalled (stateOk_setInputs h _) _
    · cases hnext
      have hnow : ¬MustWait s req.access := mt stalls_iff.mpr hstall
      exact stateOk_completeRequest (stateOk_setInputs h rest) (mt mustWait_setInputs.mp hnow)
  case h_3 => exact stateOk_engineMove (stateOk_setInputs h _) hnext
  case h_4 => cases hnext; exact stateOk_softReset (stateOk_setInputs h _)
  case h_5 => cases hnext; exact stateOk_powerOn _

/-- Settles O9: the step makes a waiting access that is ready, or takes the next input; both keep the invariant. -/
theorem stateOkKeptByStep : Obligations.StateOkKeptByStep := by
  intro s t h hstep
  change advance s = .next t at hstep
  unfold advance at hstep
  split at hstep
  case h_1 req others hready =>
    cases hstep
    exact stateOk_completeRequest (stateOk_setStalled h others)
      (mt mustWait_setStalled.mp (not_mustWait_of_takeReady hready))
  case h_2 => exact stateOk_nextInput h hstep

end Sys2Proof.Machine
end

section
/-! PROOFS for the summaries of writers (R46 10_state.md) and of causes (R241 60_exceptions.md), for the count of
retired commands (R32, R250), and for the two registers no command reads (R24, R27). Each is one case split over the commands
with a lemma per kind of write and per value that may raise. -/

namespace Sys2Proof.Machine

/-! ## What a retiring command changes -/

/-- The effects a command retires with: they touch no sequencing state and only the parts listed. -/
structure Effects (parts : List Part) (s u : State) : Prop where
  sequencing : SameSequencing s u
  frame : OnlyChanges parts s u

namespace Effects

variable (s : State)

theorem none (parts : List Part) : Effects parts s s := ⟨sameSequencing_refl s, onlyChanges_refl parts s⟩

theorem writeX (r : Reg) (v : Big) : Effects [.x] s (writeX s r v) :=
  ⟨sameSequencing_writeX s r v, onlyChanges_writeX s r v⟩

theorem writePT (r : Reg) (v : PointReg) : Effects [.points] s (writePT s r v) :=
  ⟨sameSequencing_writePT s r v, onlyChanges_writePT s r v⟩

theorem writeF (b : Bool) : Effects [.flag] s (writeF s b) := ⟨sameSequencing_writeF s b, onlyChanges_writeF s b⟩

theorem memWrite (a : Nat) (bytes : List Byte) : Effects [.memory] s (memWrite s a bytes) :=
  ⟨sameSequencing_memWrite s a bytes, onlyChanges_memWrite s a bytes⟩

theorem writeHash (h : HashState) : Effects [.hash] s (writeHash s h) :=
  ⟨sameSequencing_writeHash s h, onlyChanges_writeHash s h⟩

variable {s} {u v : State} {p q : List Part}

theorem trans (h : Effects p s u) (h' : Effects q u v) : Effects (p ++ q) s v :=
  ⟨h.sequencing.trans h'.sequencing, h.frame.trans h'.frame⟩

theorem retires (h : Effects p s u) : Retires s (retired u) := h.sequencing.retires

theorem onlyChanges (h : Effects p s u) : OnlyChanges p s (retired u) :=
  fun part hp => unchanged_retired (h.frame part hp)

end Effects

/-! ## What the values of the commands raise -/

section
variable {s : State} {r rs1 rs2 rs3 rd : Reg} {sel : ModSel} {len : BitVec 7} {addr : BitVec 12} {c : Cause}

theorem stnBytes_error (h : stnBytes r len addr s = .error c) : c = .eillegal ∨ c = .ebounds ∨ c = .erange := by
  unfold stnBytes at h
  split_ifs at h <;> cases h <;> simp

theorem modinvValue_error (h : modinvValue s rs1 sel = .error c) : c = .edomunset ∨ c = .enoinv := by
  unfold modinvValue at h
  split at h
  case h_1 hm => cases h; exact .inl (modulus_error hm)
  case h_2 => exact .inr (inverse_error h)

theorem modsqrtValue_error (h : modsqrtValue s rs1 sel = .error c) :
    c = .edomunset ∨ c = .enonresidue ∨ c = .esqrt := by
  unfold modsqrtValue at h
  split at h
  case h_1 hm => cases h; exact .inl (modulus_error hm)
  case h_2 => exact .inr (sqrt_error h)

theorem paddValue_error (h : paddValue rs1 rs2 s = .error c) : c = .edomunset ∨ c = .epoint ∨ c = .enoinv := by
  unfold paddValue at h
  split at h
  case h_1 hq => cases h; exact (curvePoints_error hq).imp_right .inl
  case h_2 => exact .inr (.inr (pointAdd_error h))

theorem pdblValue_error (h : pdblValue rs1 s = .error c) : c = .edomunset ∨ c = .epoint ∨ c = .enoinv := by
  unfold pdblValue at h
  split at h
  case h_1 hq => cases h; exact (curvePoint_error hq).imp_right .inl
  case h_2 => exact .inr (.inr (pointAdd_error h))

theorem pmulValue_error (h : pmulValue rs1 rs2 s = .error c) : c = .edomunset ∨ c = .epoint ∨ c = .enoinv := by
  unfold pmulValue at h
  split at h
  case h_1 hq => cases h; exact (curvePoint_error hq).imp_right .inl
  case h_2 => exact .inr (.inr (scalarMul_error h))

theorem pdecValue_error (h : pdecValue len addr s = .error c) :
    c = .eillegal ∨ c = .edomunset ∨ c = .ebounds ∨ c = .edecode ∨ c = .enonresidue ∨ c = .esqrt := by
  unfold pdecValue at h
  split_ifs at h
  case neg => exact .inr (.inr (.inr (decode_error h)))
  all_goals cases h; simp

theorem pencBytes_error (h : pencBytes r addr s = .error c) : c = .edomunset ∨ c = .epoint ∨ c = .ebounds := by
  unfold pencBytes at h
  split at h
  case h_1 hq => cases h; exact (curvePoint_error hq).imp_right .inl
  case h_2 =>
    split_ifs at h
    cases h
    exact .inr (.inr rfl)

theorem hfinBytes_error (h : hfinBytes addr s = .error c) : c = .ehashseq ∨ c = .ebounds := by
  unfold hfinBytes at h
  split_ifs at h <;> cases h <;> simp

/-- The point of the verification raises ENOINV only (R155, R158). -/
theorem verificationPoint_error {p a u1 u2 : Nat} {g q : Point} (h : verificationPoint p a g q u1 u2 = .error c) :
    c = .enoinv := by
  cases h1 : scalarMul p a g u1 with
  | error f =>
    rw [verificationPoint, h1] at h
    exact Except.error.inj h ▸ scalarMul_error h1
  | ok p1 =>
    cases h2 : scalarMul p a q u2 with
    | error f =>
      rw [verificationPoint, h1, h2] at h
      exact Except.error.inj h ▸ scalarMul_error h2
    | ok p2 => exact pointAdd_error ((verificationPoint_eq h1 h2).symm.trans h)

/-- Verify raises what the inverse and the point functions raise (R231). -/
theorem verifySignature_error {p a n e r s : Nat} {g q : Point} (h : verifySignature p a n g e r s q = .error c) :
    c = .enoinv := by
  by_cases hin : 1 ≤ r ∧ r ≤ n - 1 ∧ 1 ≤ s ∧ s ≤ n - 1
  case neg => rw [verifySignature_outside hin] at h; cases h
  case pos =>
    cases hinv : inverse s n with
    | error f =>
      obtain rfl := inverse_error hinv
      rw [verifySignature_noInverse hin hinv] at h
      exact (Except.error.inj h).symm
    | ok w =>
      rw [verifySignature_inverse hin hinv] at h
      cases hv : verificationPoint p a g q (e * w % n) (r * w % n) with
      | ok v => rw [hv] at h; cases h
      | error f =>
        rw [hv] at h
        exact Except.error.inj h ▸ verificationPoint_error hv

theorem ecdsavValue_error (h : ecdsavValue rd rs1 rs2 rs3 s = .error c) :
    c = .edomunset ∨ c = .epoint ∨ c = .enoinv := by
  unfold ecdsavValue at h
  split_ifs at h
  case neg =>
    split at h
    case h_1 => cases h; simp
    case h_2 => cases h; simp
    case h_3 => exact .inr (.inr (verifySignature_error h))
  all_goals cases h; simp

end

/-- A command that makes two checks before it retires. -/
theorem EndsWith.twoChecks {s u : State} {P : State → Prop} {C : Cause → Prop} {c c' : Cause} {p q : Prop}
    [Decidable p] [Decidable q] (hc : C c) (hc' : C c') (hu : P u) :
    EndsWith s P C (if p then raise c s else if q then raise c' s else retire u) :=
  .ofIte (fun _ => .faults hc) fun _ => .ofIte (fun _ => .faults hc') fun _ => .retires hu

/-! ## Every command -/

/-- Every command retires with its effects on the parts listed for it, or raises a cause listed for it. -/
theorem exec_listed (i : Instr) (s : State) :
    EndsWith s (Effects (writesOf i) s) (· ∈ Cause.eillegal :: causesOf i) (exec i s) := by
  have finish {α : Type} {r : Except Cause α} {k : α → State} (hok : ∀ v, Effects (writesOf i) s (k v))
      (herror : ∀ c, r = .error c → c ∈ causesOf i) :
      EndsWith s (Effects (writesOf i) s) (· ∈ Cause.eillegal :: causesOf i) (finishWith r s k) :=
    .ofFinishWith (fun v _ => hok v) fun c h => List.mem_cons_of_mem _ (herror c h)
  cases i with
  | nop => exact .retires (.none s _)
  | ldi | movx => exact .retires (.writeX ..)
  | cmpx => exact .retires (.writeF ..)
  | ldn => exact .twoChecks (by simp [causesOf]) (by simp [causesOf]) (.writeX ..)
  | stn => exact .ofFinishWith (fun _ _ => .memWrite ..) fun _ h => by simpa [causesOf] using stnBytes_error h
  | setm =>
    exact .ofIte (fun _ => .retires ⟨sameSequencing_writeModulus .., onlyChanges_writeModulus _ _⟩)
      fun _ => .faults (by simp [causesOf])
  | modadd | modsub | modneg | modred | modmul | montmul | montred | tomont =>
    exact finish (fun _ => .writeX ..) fun _ h => by simp [causesOf, modulus_error h]
  | modinv => exact finish (fun _ => .writeX ..) fun _ h => by simpa [causesOf] using modinvValue_error h
  | modsqrt => exact finish (fun _ => .writeX ..) fun _ h => by simpa [causesOf] using modsqrtValue_error h
  | domcrv =>
    exact .twoChecks (by simp [causesOf]) (by simp [causesOf])
      ⟨(sameSequencing_writeDomain ..).trans (sameSequencing_emptyPoints _), onlyChanges_domcrv _ _⟩
  | domord =>
    exact .twoChecks (by simp [causesOf]) (by simp [causesOf])
      ⟨sameSequencing_writeDomain .., onlyChanges_writeOrder _ _ _ _⟩
  | domgen =>
    exact .twoChecks (by simp [causesOf]) (by simp [causesOf])
      ⟨sameSequencing_writeDomain .., onlyChanges_writeBase _ _ _⟩
  | pinf => exact .ofIte (fun _ => .retires (.writePT ..)) fun _ => .faults (by simp [causesOf])
  | pgen | pset => exact .twoChecks (by simp [causesOf]) (by simp [causesOf]) (.writePT ..)
  | pgetx | pgety =>
    exact finish (fun _ => (Effects.writeX ..).trans (.writeF ..)) fun _ h => by
      simpa [causesOf] using curvePoint_error h
  | pmov | pneg => exact finish (fun _ => .writePT ..) fun _ h => by simpa [causesOf] using curvePoint_error h
  | peq => exact finish (fun _ => .writeF ..) fun _ h => by simpa [causesOf] using curvePoints_error h
  | pisinf => exact finish (fun _ => .writeF ..) fun _ h => by simpa [causesOf] using curvePoint_error h
  | padd => exact finish (fun _ => .writePT ..) fun _ h => by simpa [causesOf] using paddValue_error h
  | pdbl => exact finish (fun _ => .writePT ..) fun _ h => by simpa [causesOf] using pdblValue_error h
  | pmul => exact finish (fun _ => .writePT ..) fun _ h => by simpa [causesOf] using pmulValue_error h
  | pdec => exact .ofFinishWith (fun _ _ => .writePT ..) fun _ h => by simpa [causesOf] using pdecValue_error h
  | penc => exact finish (fun _ => .memWrite ..) fun _ h => by simpa [causesOf] using pencBytes_error h
  | hinit imm =>
    change EndsWith s _ _ (execHinit imm s)
    unfold execHinit
    split
    case isTrue => exact .retires (.writeHash ..)
    case isFalse => exact .faults (by simp [causesOf])
  | hupd => exact .twoChecks (by simp [causesOf]) (by simp [causesOf]) (.writeHash ..)
  | hfin =>
    exact finish (fun _ => ⟨sameSequencing_storeDigest .., onlyChanges_storeDigest _ _ _⟩) fun _ h => by
      simpa [causesOf] using hfinBytes_error h
  | htoe => exact .twoChecks (by simp [causesOf]) (by simp [causesOf]) (.writeX ..)
  | ecdsav => exact finish (fun _ => .writeF ..) fun _ h => by simpa [causesOf] using ecdsavValue_error h

/-- Settles O11: the two ends of `exec_listed`. -/
theorem commandsWriteAndFaultAsListed : Obligations.CommandsWriteAndFaultAsListed := by
  intro i s
  have hends := exec_listed i s
  cases hexec : exec i s with
  | next t =>
    rw [hexec] at hends
    obtain ⟨u, hu, rfl⟩ | ⟨c, hc, rfl⟩ := hends.next
    · exact ⟨_, rfl, .inl ⟨hu.retires, hu.onlyChanges⟩⟩
    · exact ⟨_, rfl, .inr ⟨c, hc, faultEntry_takeFault c s⟩⟩
  | fault r => cases r
  | refused r => rw [hexec] at hends; cases hends

/-- Settles O13: CMDIDX, ERRIDX and DONE at the two ends of a command. -/
theorem retiringIsCounted : Obligations.RetiringIsCounted := by
  intro i s t hclear hexec
  obtain ⟨u, hu, rfl⟩ | ⟨c, rfl⟩ := exec_cases hexec
  · have hret := hu.retires
    have herr : (retired u).errs.err = false := by rw [hret.errs, hclear]
    refine ⟨fun _ => ?_, fun h => absurd (herr.symm.trans h) (by simp), fun hdone => ?_⟩
    · rw [hret.cmdidx, BitVec.toNat_add]
      rfl
    · rw [hret.done, hdone, herr, Bool.false_or, List.isEmpty_iff]
      simp
  · have hentry := faultEntry_takeFault c s
    refine ⟨fun h => absurd (hentry.err.symm.trans h) (by simp), fun _ => ⟨hentry.cmdidx, hentry.idx⟩, fun hdone => ?_⟩
    rw [hentry.done, hdone, hentry.err]
    simp

/-! ## The cofactor and the flag -/

/-- The state with another flag and another cofactor. -/
def withUnread (s : State) (f : Bool) (h : Big) : State := { s with f := f, dom := { s.dom with dh := h } }

/-- The two answers of a command that writes these parts, in states that differ in DH and F only: the same fault, or
two retirements that differ in DH and F only, with the same F and the same DH where the command writes them. -/
inductive EndAlike (s s' : State) (parts : List Part) : Result → Result → Prop where
  | retires {u u' : State} (same : SameButCofactorAndFlag u u') (flag : .flag ∈ parts → u'.f = u.f)
    (order : .order ∈ parts → u'.dom.dh = u.dom.dh) : EndAlike s s' parts (retire u) (retire u')
  | faults (c : Cause) : EndAlike s s' parts (raise c s) (raise c s')

namespace EndAlike

section
variable {s s' : State} {parts : List Part}

/-- A command that ends with a value which may raise, the same in both states. -/
theorem finish {α : Type} {r : Except Cause α} {k k' : α → State}
    (h : ∀ v, EndAlike s s' parts (retire (k v)) (retire (k' v))) :
    EndAlike s s' parts (finishWith r s k) (finishWith r s' k') :=
  match r with
  | .ok v => h v
  | .error c => .faults c

/-- A command that makes a check first, the same in both states. -/
theorem ofIte {p : Prop} [Decidable p] {a a' b b' : Result} (ha : EndAlike s s' parts a a')
    (hb : EndAlike s s' parts b b') : EndAlike s s' parts (if p then a else b) (if p then a' else b') := by
  split
  · exact ha
  · exact hb

end

section
variable (s : State) (f : Bool) (h : Big)

theorem writeX (r : Reg) (v : Big) :
    EndAlike s (withUnread s f h) [.x] (retire (writeX s r v)) (retire (writeX (withUnread s f h) r v)) := by
  refine .retires ?_ (by simp) (by simp)
  unfold Machine.writeX
  split <;> rfl

theorem writePT (r : Reg) (v : PointReg) :
    EndAlike s (withUnread s f h) [.points] (retire (writePT s r v)) (retire (writePT (withUnread s f h) r v)) :=
  .retires rfl (by simp) (by simp)

theorem writeF (b : Bool) :
    EndAlike s (withUnread s f h) [.flag] (retire (writeF s b)) (retire (writeF (withUnread s f h) b)) :=
  .retires rfl (fun _ => rfl) (by simp)

/-- PGETX and PGETY write F after X[rd] (R162, R163). -/
theorem writeX_writeF (r : Reg) (v : Big) (b : Bool) : EndAlike s (withUnread s f h) [.x, .flag]
    (retire (Machine.writeF (Machine.writeX s r v) b))
    (retire (Machine.writeF (Machine.writeX (withUnread s f h) r v) b)) := by
  refine .retires ?_ (fun _ => rfl) (by simp)
  unfold Machine.writeX
  split <;> rfl

theorem memWrite (a : Nat) (bytes : List Byte) : EndAlike s (withUnread s f h) [.memory]
    (retire (memWrite s a bytes)) (retire (memWrite (withUnread s f h) a bytes)) :=
  .retires rfl (by simp) (by simp)

theorem writeHash (g : HashState) :
    EndAlike s (withUnread s f h) [.hash] (retire (writeHash s g)) (retire (writeHash (withUnread s f h) g)) :=
  .retires rfl (by simp) (by simp)

end

end EndAlike

section
variable {s s' t t' : State}

theorem sameButCofactorAndFlag_takeFault (c : Cause) (h : SameButCofactorAndFlag s s') :
    SameButCofactorAndFlag (takeFault c s) (takeFault c s') := by
  rw [h]
  rfl

/-- Whether a command has retired does not depend on F or DH. -/
theorem retires_congr (hs : SameButCofactorAndFlag s s') (ht : SameButCofactorAndFlag t t') :
    Retires s t ↔ Retires s' t' := by
  rw [hs, ht]
  exact ⟨fun ⟨h1, h2, h3, h4, h5, h6, h7, h8, h9⟩ => ⟨h1, h2, h3, h4, h5, h6, h7, h8, h9⟩,
    fun ⟨h1, h2, h3, h4, h5, h6, h7, h8, h9⟩ => ⟨h1, h2, h3, h4, h5, h6, h7, h8, h9⟩⟩

/-- From the next state in the one state to the next state in the other. -/
theorem EndAlike.next {parts : List Part} {r' : Result} (hs : SameButCofactorAndFlag s s')
    (h : EndAlike s s' parts (.next t) r') : ∃ t', r' = .next t' ∧ SameButCofactorAndFlag t t' ∧
      (Retires s t ∧ .flag ∈ parts → t'.f = t.f) ∧ (Retires s t ∧ .order ∈ parts → t'.dom.dh = t.dom.dh) := by
  generalize hr : (Host.Outcome.next t : Result) = r at h
  cases h with
  | retires same flag order =>
    cases hr
    refine ⟨_, rfl, ?_, fun ⟨_, h⟩ => flag h, fun ⟨_, h⟩ => order h⟩
    rw [same]
    rfl
  | faults c =>
    cases hr
    have hnot := not_retires_takeFault c s
    exact ⟨_, rfl, sameButCofactorAndFlag_takeFault c hs, fun ⟨h, _⟩ => absurd h hnot, fun ⟨h, _⟩ => absurd h hnot⟩

end

/-- No command reads F or DH: what it computes, and the checks it makes, are the same in the two states. -/
theorem exec_endAlike (i : Instr) (s : State) (f : Bool) (h : Big) :
    EndAlike s (withUnread s f h) (writesOf i) (exec i s) (exec i (withUnread s f h)) := by
  cases i with
  | nop => exact .retires rfl (by simp [writesOf]) (by simp [writesOf])
  | ldi | movx => exact .writeX ..
  | cmpx => exact .writeF ..
  | ldn | htoe => exact .ofIte (.faults _) (.ofIte (.faults _) (.writeX ..))
  | stn | penc => exact .finish fun _ => .memWrite ..
  | setm => exact .ofIte (.retires rfl (by simp [writesOf]) (by simp [writesOf])) (.faults _)
  | modadd | modsub | modneg | modred | modmul | montmul | montred | tomont | modinv | modsqrt =>
    exact .finish fun _ => .writeX ..
  | domcrv => exact .ofIte (.faults _) (.ofIte (.faults _) (.retires rfl (by simp [writesOf]) fun _ => rfl))
  | domord => exact .ofIte (.faults _) (.ofIte (.faults _) (.retires rfl (by simp [writesOf]) fun _ => rfl))
  | domgen =>
    exact .ofIte (.faults _) (.ofIte (.faults _) (.retires rfl (by simp [writesOf]) (by simp [writesOf])))
  | pinf => exact .ofIte (.writePT ..) (.faults _)
  | pgen | pset => exact .ofIte (.faults _) (.ofIte (.faults _) (.writePT ..))
  | pgetx | pgety => exact .finish fun _ => .writeX_writeF ..
  | pmov | padd | pdbl | pneg | pmul | pdec => exact .finish fun _ => .writePT ..
  | peq | pisinf | ecdsav => exact .finish fun _ => .writeF ..
  | hinit imm =>
    change EndAlike s _ _ (execHinit imm s) (execHinit imm _)
    unfold execHinit
    split
    · exact .writeHash ..
    · exact .faults _
  | hupd => exact .ofIte (.faults _) (.ofIte (.faults _) (.writeHash ..))
  | hfin => exact .finish fun _ => .retires rfl (by simp [writesOf]) (by simp [writesOf])

/-- A part that a command does not write when it retires is what it was; a command that faults writes none. -/
theorem unchanged_of_exec {i : Instr} {s t : State} {part : Part} (h : exec i s = .next t)
    (hpart : ¬(Retires s t ∧ part ∈ writesOf i)) : part.unchanged s t := by
  obtain ⟨t', ht', hends⟩ := commandsWriteAndFaultAsListed i s
  obtain rfl : t' = t := Host.Outcome.next.inj (ht'.symm.trans h)
  obtain ⟨hret, hframe⟩ | ⟨c, -, hentry⟩ := hends
  · exact hframe part fun hmem => hpart ⟨hret, hmem⟩
  · exact hentry.parts part (by simp)

/-- Settles O52: the two answers by `exec_endAlike`, what stays by `unchanged_of_exec`. -/
theorem cofactorAndFlagAreNotRead : Obligations.CofactorAndFlagAreNotRead := by
  intro i s s' t hsame hexec
  have halike := exec_endAlike i s s'.f s'.dom.dh
  rw [← show s' = withUnread s s'.f s'.dom.dh from hsame, hexec] at halike
  obtain ⟨t', hexec', hsame', hflag, horder⟩ := halike.next hsame
  have hret := retires_congr hsame hsame'
  have unchanged (part : Part) (h : ¬(Retires s t ∧ part ∈ writesOf i)) :
      part.unchanged s t ∧ part.unchanged s' t' :=
    ⟨unchanged_of_exec hexec h, unchanged_of_exec hexec' (by rwa [← hret])⟩
  refine ⟨t', hexec', hsame', hret, hflag, unchanged .flag, horder, fun h => ?_⟩
  obtain ⟨⟨-, hdh, -⟩, -, hdh', -⟩ := unchanged .order h
  exact ⟨hdh, hdh'⟩

end Sys2Proof.Machine
end

section
/-! PROOFS for LDN after STN (40_data_movement.md), the modulus selector (R112 41_modular.md) and MODSQRT with a prime
modulus (42_sqrt.md): there every residue has its root, and for m ≡ 3 (mod 4) the loop of R137 ends at once. -/

namespace Sys2Proof.Machine

/-! ## LDN after STN -/

/-- A string just stored by a command that retired is read back. -/
theorem memRead_retired_memWrite (s : State) (a : Nat) (bytes : List Byte) :
    memRead (retired (memWrite s a bytes)) a bytes.length = bytes := memRead_memWrite s a bytes

/-- Settles O19: the bytes STN stores are read back, and their integer is the value stored. -/
theorem ldnAfterStnLoadsTheValue : Obligations.LdnAfterStnLoadsTheValue := by
  intro s t r rd len addr hlow hhigh hb hv hexec
  have hlen : integerLenOk len = true := integerLenOk_iff.mpr ⟨hlow, hhigh⟩
  rw [exec_stn s r hlen, if_pos (inBounds_iff.mpr hb), if_pos hv] at hexec
  cases hexec
  have hfits : xNat s r < 256 ^ len.toNat := by rwa [show 256 = 2 ^ 8 from rfl, ← pow_mul]
  have hread := memRead_retired_memWrite s (spmAddr addr) (beBytes len.toNat (xNat s r))
  rw [beBytes_length] at hread
  have hload := completesX_ldn (retired (memWrite s (spmAddr addr) (beBytes len.toNat (xNat s r)))) rd hlen hb
  rw [← beBytes_eq]
  rwa [← spmAddr, hread, bigEndian_beBytes _ _ hfits] at hload

/-! ## The modulus selector -/

/-- Settles O25: eight commands end with `modularResult`, MODINV and MODSQRT read the modulus themselves. -/
theorem modulusSelection : Obligations.ModulusSelection := by
  refine fun s sel => ⟨fun hno rd rs1 rs2 => ?_, fun m hok hsel => ?_⟩
  · have faults {i : Instr} {f : Nat → Nat} (h : exec i s = modularResult s rd sel f) : Faults i s .edomunset :=
      faults_of_modularResult hno h
    simp only [List.forall_mem_cons, List.not_mem_nil, false_imp_iff, implies_true, and_true]
    exact ⟨faults rfl, faults rfl, faults rfl, faults rfl, faults rfl, faults rfl, faults rfl, faults rfl,
      faults_of_raise (exec_modinv_noModulus rd rs1 hno), faults_of_raise (exec_modsqrt_noModulus rd rs1 hno)⟩
  · obtain ⟨hodd, hge, hlt⟩ := selectedModulus_odd hok hsel
    exact ⟨hodd, hge, hlt, fun rd rs1 => completesX_of_modularResult (fun m => xNat s rs1 % m) hsel rfl
      (Nat.mod_lt _ (by omega)) hlt⟩

/-! ## MODSQRT with a prime modulus -/

section
variable {m v : Nat} (hm : 3 ≤ m) (h4 : m % 4 = 3)
include hm h4

/-- The square of a^((m + 1)/4) is a · a^((m − 1)/2). -/
theorem sq_pow_of_three_mod_four (heuler : (v % m) ^ ((m - 1) / 2) % m = 1) :
    ((v % m) ^ ((m + 1) / 4) % m) ^ 2 % m = v % m := by
  have hone : (v % m) ^ ((m - 1) / 2) ≡ 1 [MOD m] := heuler.trans (Nat.mod_eq_of_lt (by omega)).symm
  have hexp : (m + 1) / 4 * 2 = (m - 1) / 2 + 1 := by omega
  have hsq : ((v % m) ^ ((m + 1) / 4) % m) ^ 2 ≡ v [MOD m] :=
    calc ((v % m) ^ ((m + 1) / 4) % m) ^ 2
        ≡ ((v % m) ^ ((m + 1) / 4)) ^ 2 [MOD m] := (Nat.mod_modEq _ m).pow 2
      _ = (v % m) ^ ((m - 1) / 2) * (v % m) := by rw [← pow_mul, hexp, pow_succ]
      _ ≡ 1 * (v % m) [MOD m] := hone.mul_right _
      _ = v % m := one_mul _
      _ ≡ v [MOD m] := Nat.mod_modEq v m
  exact hsq

variable [Fact m.Prime]

/-- For m ≡ 3 (mod 4), m − 1 has one factor 2, so a residue starts the loop of R137 with t = 1. -/
theorem startedLoop_of_three_mod_four (heuler : (v % m) ^ ((m - 1) / 2) % m = 1) :
    ∃ z, StartedLoop m (v % m) z ((m - 1) / 2) 1 (.ok ((v % m) ^ ((m + 1) / 4) % m)) := by
  obtain ⟨z, hz⟩ := exists_lnr hm
  refine ⟨z, hz, by omega, by omega, ?_⟩
  rw [heuler, show ((m - 1) / 2 + 1) / 2 = (m + 1) / 4 by omega]
  exact .done _ _ _

/-- The root of a residue modulo a prime m ≡ 3 (mod 4) (R139). -/
theorem squareRoot_of_three_mod_four (h : ∃ y, y ^ 2 % m = v % m) : SquareRoot v m (.ok (v ^ ((m + 1) / 4) % m)) := by
  rw [Nat.pow_mod]
  by_cases h0 : v % m = 0
  · rw [h0, zero_pow (by omega), Nat.zero_mod]
    exact .zero h0
  · have heuler := (euler hm h0).mpr h
    obtain ⟨z, hloop⟩ := startedLoop_of_three_mod_four hm h4 heuler
    exact .root z _ _ _ h0 heuler hloop (sq_pow_of_three_mod_four hm h4 heuler)

end

/-- Settles O27: Sqrt finds the root of a residue (`sqrt_prime`) and refuses a non-residue (`sqrt_prime_none`). -/
theorem modsqrtOfPrimeResidue : Obligations.ModsqrtOfPrimeResidue := by
  intro s rd rs1 sel m hok hsel hprime
  have : Fact m.Prime := ⟨hprime⟩
  obtain ⟨-, hge, -⟩ := selectedModulus_odd hok hsel
  refine ⟨fun hres => ⟨?_, fun h4 => ?_⟩, fun hnon => ?_⟩
  · obtain ⟨r, hr, hlt, hsq⟩ := sqrt_prime hge hres
    exact ⟨r, hlt, hsq, completesX_modsqrt rd rs1 hok hsel ((squareRoot_iff hge).mpr hr)⟩
  · exact completesX_modsqrt rd rs1 hok hsel (squareRoot_of_three_mod_four hge h4 hres)
  · exact faults_modsqrt rd rs1 hok hsel ((squareRoot_iff hge).mpr (sqrt_prime_none hge hnon))

end Sys2Proof.Machine
end

section
/-! PROOFS for 44_point.md sections 1 to 3: PointAdd, ScalarMul and PMUL for every point value (R157, R158, R170, R171),
and their laws on the points of a curve over a prime field, read off Mathlib's group through `Represents`; from there
the genuine signatures of 47_ecdsa.md. -/

namespace Sys2Proof.Machine

/-! ## Sums with the negative and with INF -/

/-- A residue modulo an odd p is its own negative only when it is 0. -/
theorem ne_subMod_zero {p y : Nat} (hodd : p % 2 = 1) (hy : y < p) : y ≠ subMod 0 y p ∨ y = 0 := by
  rw [subMod_zero_left hy]
  split <;> omega

/-- Settles O35: the chord of a value and its negative is vertical. -/
theorem pointPlusNegativeIsInfinity : Obligations.PointPlusNegativeIsInfinity := fun p a _ _ _ hodd _ hy =>
  ⟨pointAdd_vertical (ne_subMod_zero hodd hy), pointAdd_inf_right p a _, pointAdd_inf_left p a _,
    pointAdd_inf_left p a _⟩

/-! ## ScalarMul bit by bit -/

section
variable (p a : Nat) (q : Point)

theorem scalarMul_zero : scalarMul p a q 0 = .ok .inf := rfl

/-- A scalar doubled: also 0, for which nothing is added. -/
theorem scalarMul_double (k : Nat) : scalarMul p a q (2 * k) =
    match scalarMul p a q k with
    | .error c => .error c
    | .ok r => pointAdd p a r r := by
  by_cases hk : k = 0
  · subst hk
    rfl
  · have h := scalarMul_succ p a q k 0 (by omega) (by omega)
    rw [Nat.add_zero] at h
    rw [h]
    cases scalarMul p a q k with
    | error c => rfl
    | ok r => cases hr : pointAdd p a r r <;> simp [hr]

/-- A scalar doubled and increased. -/
theorem scalarMul_double_succ (k : Nat) : scalarMul p a q (2 * k + 1) =
    match scalarMul p a q k with
    | .error c => .error c
    | .ok r =>
      match pointAdd p a r r with
      | .error c => .error c
      | .ok r2 => pointAdd p a r2 q :=
  scalarMul_succ p a q k 1 (by omega) (by omega)

theorem scalarMul_one : scalarMul p a q 1 = .ok q :=
  (scalarMul_double_succ p a q 0).trans (pointAdd_inf_left p a q)

end

/-- Settles O36: the two bits of `scalarMul_double` and `scalarMul_double_succ`. -/
theorem scalarMulDoublesAndAdds : Obligations.ScalarMulDoublesAndAdds := by
  refine fun p a q => ⟨scalarMul_zero p a q, fun k => ⟨fun c hc => ?_, fun r hr => ?_⟩⟩
  · rw [scalarMul_double, scalarMul_double_succ, hc]
    exact ⟨rfl, rfl⟩
  · rw [scalarMul_double, scalarMul_double_succ, hr]
    exact ⟨rfl, fun c hc => by simp [hc], fun r2 hr2 => by simp [hr2]⟩

/-! ## PMUL -/

/-- A point with coordinates that fit a register is held by its register value. -/
theorem toPoint_toReg {p : Nat} (hp : p ≤ 2 ^ 256) {q : Point} (hq : Below p q) : q.toReg.toPoint = some q := by
  cases q with
  | inf => rfl
  | aff x y =>
    obtain ⟨hx, hy⟩ := hq x y rfl
    simp only [Point.toReg, PointReg.toPoint, BitVec.toNat_ofNat, Nat.mod_eq_of_lt (hx.trans_le hp),
      Nat.mod_eq_of_lt (hy.trans_le hp)]

section
variable {s : State} (hcrv : s.dom.crv = true) (rd : Reg) {rs1 rx : Reg} (neg : Bool) {q : Point}
  (hq : ptPoint s rs1 = some q)
include hcrv hq

/-- With a curve and a point PMUL ends with what ScalarMul answers (R170). -/
theorem exec_pmul : exec (.pmul rd rs1 rx neg) s =
    finishWith (scalarMul (fieldP s) (coeffA s) q (xNat s rx)) s fun v =>
      writePT s rd (if neg then pointNeg (fieldP s) v else v).toReg := by
  change finishWith (pmulValue rs1 rx s) s _ = _
  rw [pmulValue, curvePoint_ok hcrv hq]

theorem faults_pmul {c : Cause} (hc : scalarMul (fieldP s) (coeffA s) q (xNat s rx) = .error c) :
    Faults (.pmul rd rs1 rx neg) s c :=
  faults_of_raise (by rw [exec_pmul hcrv rd neg hq, hc, finishWith_error])

/-- PMUL.NEG writes the mirrored value: the coordinates of the product are below p. -/
theorem completesPoint_pmul (hok : StateOk s) {v : Point}
    (hv : scalarMul (fieldP s) (coeffA s) q (xNat s rx) = .ok v) :
    CompletesPoint (.pmul rd rs1 rx neg) s rd (if neg then mirror (fieldP s) v.toReg else v.toReg) := by
  have hp := hok.dataOk.three_le_fieldP hcrv
  have hbelow : Below (fieldP s) v := scalarMul_below hp (below_of_pt hok.points hq) hv
  have hmirror : (pointNeg (fieldP s) v).toReg = mirror (fieldP s) v.toReg :=
    mirror_toReg (fieldP_le s) (by omega) (toPoint_toReg (fieldP_le s) hbelow) (toReg_below (fieldP_le s) hbelow)
  rw [← hmirror, ← apply_ite Point.toReg]
  exact completesPoint_of_writePT (by rw [exec_pmul hcrv rd neg hq, hv, finishWith_ok])

end

/-- Settles O37: PMUL ends with ScalarMul, whose values for the scalars 0 and 1 are known. -/
theorem pmulMultipliesByScalar : Obligations.PmulMultipliesByScalar := by
  refine fun rd rs1 rs2 neg => ⟨encodedAs_pmul rd rs1 rs2 neg, fun s =>
    ⟨checksPoints_pmul s rd rs1 rs2 neg, fun q hok hcrv hq => ?_⟩⟩
  have completes {v : Point} := completesPoint_pmul hcrv rd (rx := rs2) neg hq hok (v := v)
  refine ⟨fun v => completes, fun c hc => ?_, fun h0 => ?_, fun h1 => ?_⟩
  · obtain rfl := scalarMul_error hc
    exact ⟨rfl, faults_pmul hcrv rd neg hq hc⟩
  · have hinf := completes (h0 ▸ scalarMul_zero (fieldP s) (coeffA s) q)
    cases neg <;> exact hinf
  · rw [← toReg_of_toPoint hq]
    exact completes (h1 ▸ scalarMul_one (fieldP s) (coeffA s) q)

/-- Settles O34: over a prime field the values of PADD, PDBL and PMUL exist. -/
theorem primeFieldPointsComplete : Obligations.PrimeFieldPointsComplete := by
  intro s rd rs1 rs2 rx neg hok hcrv hprime h1 h2
  have hp := hok.dataOk.three_le_fieldP hcrv
  obtain ⟨q, hq, -⟩ := ptPoint_of_ne_empty h1
  obtain ⟨r, hr, -⟩ := ptPoint_of_ne_empty h2
  have hqb : Below (fieldP s) q := below_of_pt hok.points hq
  have hrb : Below (fieldP s) r := below_of_pt hok.points hr
  obtain ⟨sum, hsum, -⟩ := pointAdd_prime (a := coeffA s) hprime hp hqb hrb
  obtain ⟨double, hdouble, -⟩ := pointAdd_prime (a := coeffA s) hprime hp hqb hqb
  obtain ⟨product, hproduct, -⟩ := scalarMul_prime (a := coeffA s) hprime hp hqb (xNat s rx)
  exact ⟨⟨_, (endsWithSum_padd hcrv rd rs1 rs2).completes hq hr hsum⟩,
    ⟨_, (endsWithSum_pdbl hcrv rd rs1).completes hq hq hdouble⟩,
    ⟨_, completesPoint_pmul hcrv rd neg hq hok hproduct⟩⟩

/-! ## The group of a curve over a prime field -/

section
variable {p a b : Nat} (hc : PrimeCurve p a b) [Fact p.Prime] {q r : Point} {P Q : (weierstrass p a b).Point}
include hc

/-- The sum of two represented points, by the point it represents. -/
theorem pointAdd_eq_of_represents {v : Point} (hq : Represents p a b q P) (hr : Represents p a b r Q)
    (hv : Represents p a b v (P + Q)) : pointAdd p a q r = .ok v := by
  obtain ⟨v', hadd, hv'⟩ := hq.add hc.odd hr
  rw [hadd, hv'.unique hv]

/-- A multiple that ScalarMul computes stands for the multiple of the group. -/
theorem represents_of_scalarMul {v : Point} {k : Nat} (hq : Represents p a b q P) (hv : scalarMul p a q k = .ok v) :
    Represents p a b v (k • P) := by
  obtain ⟨v', hmul, hv'⟩ := hq.scalarMul hc.odd k
  rwa [← Except.ok.inj (hmul.symm.trans hv)]

/-- The k-fold sum is the multiple of the group. -/
theorem repeatedAdd_eq_of_represents {v : Point} {k : Nat} (hq : Represents p a b q P)
    (hv : Represents p a b v (k • P)) : repeatedAdd p a q k = .ok v := by
  induction k generalizing v with
  | zero =>
    rw [zero_nsmul] at hv
    rw [hv.unique .inf]
    rfl
  | succ k ih =>
    obtain ⟨w, -, hw⟩ := hq.scalarMul hc.odd k
    rw [succ_nsmul] at hv
    simp only [repeatedAdd, ih hw, pointAdd_eq_of_represents hc hw hq hv]

end

/-- INF stands for the neutral element only. -/
theorem Represents.eq_zero {p a b : Nat} {P : (weierstrass p a b).Point} (h : Represents p a b .inf P) : P = 0 := by
  cases h
  rfl

/-- Settles O38: both are the multiple in the group. -/
theorem scalarMulIsRepeatedAddition : Obligations.ScalarMulIsRepeatedAddition := by
  intro p a b q k hc hq
  have : Fact p.Prime := ⟨hc.prime⟩
  obtain ⟨P, hP⟩ := exists_represents hc hq
  obtain ⟨v, hmul, hv⟩ := hP.scalarMul hc.odd k
  exact ⟨v, hmul, repeatedAdd_eq_of_represents hc hP hv, hv.onCurve hc⟩

/-- Settles O39: each law is the one of the group, on represented points. -/
theorem pointsFormAGroup : Obligations.PointsFormAGroup := by
  intro p a b hc q r u hq hr hu
  have : Fact p.Prime := ⟨hc.prime⟩
  obtain ⟨Q, hQ⟩ := exists_represents hc hq
  obtain ⟨R, hR⟩ := exists_represents hc hr
  obtain ⟨U, hU⟩ := exists_represents hc hu
  obtain ⟨qr, hqr, hQR⟩ := hQ.add hc.odd hR
  obtain ⟨ru, hru, hRU⟩ := hR.add hc.odd hU
  refine ⟨⟨qr, hQR.onCurve hc, hqr, ?comm⟩, ?assoc, ⟨hQ.neg.onCurve hc, ?neg⟩, fun k => ?distrib⟩
  case comm => exact pointAdd_eq_of_represents hc hR hQ (add_comm Q R ▸ hQR)
  case assoc =>
    obtain ⟨v, hv, hV⟩ := hQR.add hc.odd hU
    exact ⟨qr, ru, v, hqr, hru, hv, pointAdd_eq_of_represents hc hQ hRU (add_assoc Q R U ▸ hV)⟩
  case neg =>
    refine pointAdd_eq_of_represents hc hQ hQ.neg ?_
    rw [add_neg_cancel]
    exact .inf
  case distrib =>
    obtain ⟨v, hv, hV⟩ := hQR.scalarMul hc.odd k
    obtain ⟨kq, hkq, hKQ⟩ := hQ.scalarMul hc.odd k
    obtain ⟨kr, hkr, hKR⟩ := hR.scalarMul hc.odd k
    exact ⟨qr, kq, kr, v, hqr, hv, hkq, hkr, pointAdd_eq_of_represents hc hKQ hKR (nsmul_add Q R k ▸ hV)⟩

/-! ## Genuine signatures -/

/-- The curve of a state with the invariant whose p is prime. -/
theorem primeCurve_of_stateOk {s : State} (hok : StateOk s) (hcrv : s.dom.crv = true) (hp : (fieldP s).Prime) :
    PrimeCurve (fieldP s) (coeffA s) (coeffB s) := by
  obtain ⟨-, hge, -, -, hsing⟩ := hok.domain.curve hcrv
  exact ⟨hp, hge, hsing⟩

/-- The exponents of the verification add up to k: u1 + u2·d ≡ w·(e + r·d) ≡ w·k·s ≡ k modulo n. -/
theorem verification_exponent {n e r d k c w : Nat} (hsig : k * c % n = (e + r * d) % n) (hw : c * w ≡ 1 [MOD n]) :
    e * w % n + r * w % n * d ≡ k [MOD n] :=
  calc e * w % n + r * w % n * d
      ≡ e * w + r * w * d [MOD n] := (Nat.mod_modEq _ n).add ((Nat.mod_modEq _ n).mul_right d)
    _ = (e + r * d) * w := by ring
    _ ≡ k * c * w [MOD n] := Nat.ModEq.mul_right w (Nat.ModEq.symm hsig)
    _ = k * (c * w) := by ring
    _ ≡ k * 1 [MOD n] := hw.mul_left k
    _ = k := mul_one k

/-- With G of order n, u1·G + u2·(d·G) is the point k·G of the signature. -/
theorem verificationPoint_genuine {p a b n d k u1 u2 : Nat} {g q v : Point} (hc : PrimeCurve p a b)
    (hg : OnCurve p a b g) (horder : scalarMul p a g n = .ok .inf) (hq : scalarMul p a g d = .ok q)
    (hv : scalarMul p a g k = .ok v) (hexp : u1 + u2 * d ≡ k [MOD n]) : verificationPoint p a g q u1 u2 = .ok v := by
  have : Fact p.Prime := ⟨hc.prime⟩
  obtain ⟨G, hG⟩ := exists_represents hc hg
  have hdvd : addOrderOf G ∣ n :=
    addOrderOf_dvd_of_nsmul_eq_zero (represents_of_scalarMul hc hG horder).eq_zero
  obtain ⟨p1, h1, hP1⟩ := hG.scalarMul hc.odd u1
  obtain ⟨p2, h2, hP2⟩ := (represents_of_scalarMul hc hG hq).scalarMul hc.odd u2
  have hsum : u1 • G + u2 • d • G = k • G := by
    rw [← mul_nsmul', ← add_nsmul, nsmul_eq_nsmul_iff_modEq]
    exact hexp.of_dvd hdvd
  rw [verificationPoint_eq h1 h2]
  exact pointAdd_eq_of_represents hc hP1 hP2 (hsum ▸ represents_of_scalarMul hc hG hv)

/-- Settles O51: the range check passes, s has an inverse modulo the prime n, and the point of the verification is the
one of the signature. -/
theorem ecdsavAcceptsGenuineSignatures : Obligations.EcdsavAcceptsGenuineSignatures := by
  intro s rd rs1 rs2 rs3 n d k g q x y hok hcrv hord hgen hp hn hnprime hg hq hcurve horder hd hk hr hr1 hs1 hsn hsig
  subst hn
  have hexec := exec_ecdsav rd rs1 rs2 rs3 hcrv hord hgen hg hq
  have hlt : x % s.dom.dn.toNat < s.dom.dn.toNat := Nat.mod_lt x hnprime.pos
  have hcoprime : Nat.gcd (xNat s rs3) s.dom.dn.toNat = 1 :=
    (Nat.coprime_of_lt_prime (by omega) hsn hnprime).symm
  obtain ⟨-, w, hw, hmul, -⟩ | ⟨hne, -⟩ := inverse_cases (v := xNat s rs3) hnprime.two_le
  case inr => exact absurd hcoprime hne
  have hone : xNat s rs3 * w ≡ 1 [MOD s.dom.dn.toNat] :=
    hmul.trans (Nat.mod_eq_of_lt hnprime.one_lt).symm
  have hpoint := verificationPoint_genuine (primeCurve_of_stateOk hok hcrv hp) hcurve horder hd hk
    (verification_exponent hsig hone)
  refine completesFlag_of_finishWith hexec ?_
  rw [hr, verifySignature_inverse (by omega) hw, hpoint]
  simp [Except.map, acceptsPoint]

end Sys2Proof.Machine
end

section
/-! PROOFS for the round trip of the point codec (R189 45_point_codec.md) and for the schedule of the compression
function (R196 to R200 46_hash.md). -/

namespace Sys2Proof.Machine

/-! ## The root of the requested parity -/

section
variable {p a b x y root odd : Nat}

/-- Over a prime field a square has the roots ±y. -/
theorem eq_or_add_eq_of_sq_eq (hp : p.Prime) (hr : root < p) (hy : y < p) (h : root ^ 2 % p = y ^ 2 % p) :
    root = y ∨ root + y = p := by
  have : Fact p.Prime := ⟨hp⟩
  have hsq : (root : ZMod p) ^ 2 = (y : ZMod p) ^ 2 := by exact_mod_cast cast_mod_eq.mp h
  obtain hsame | hneg := sq_eq_sq_iff_eq_or_eq_neg.mp hsq
  · exact .inl ((cast_eq_iff hr hy).mp hsame)
  · have hzero : ((root + y : Nat) : ZMod p) = 0 := by rw [Nat.cast_add, hneg, neg_add_cancel]
    obtain ⟨k, hk⟩ := (ZMod.natCast_eq_zero_iff _ p).mp hzero
    have hlt : k < 2 := by
      by_contra hge
      have := Nat.mul_le_mul_left p (not_lt.mp hge)
      omega
    interval_cases k <;> omega

/-- Of the two roots the parity picks y (R185, R188). -/
theorem parityRoot_of_sq_eq (hp : p.Prime) (h3 : 3 ≤ p) (hr : root < p) (hy : y < p)
    (h : root ^ 2 % p = y ^ 2 % p) : parityRoot p root (y % 2) = .ok y := by
  have hodd := hp.eq_two_or_odd
  obtain rfl | hsum := eq_or_add_eq_of_sq_eq hp hr hy h
  · exact parityRoot_same rfl
  · rw [parityRoot_other (by omega) (by omega), show p - root = y by omega]

/-- Whatever root the parity picks, its square is the same. -/
theorem sq_of_parityRoot (hr : root < p) (h : parityRoot p root odd = .ok y) : y < p ∧ y ^ 2 ≡ root ^ 2 [MOD p] := by
  unfold parityRoot at h
  split_ifs at h with hsame hzero
  · obtain rfl := Except.ok.inj h
    exact ⟨hr, Nat.ModEq.refl _⟩
  · obtain rfl := Except.ok.inj h
    refine ⟨by omega, Int.natCast_modEq_iff.mp ?_⟩
    rw [Nat.cast_pow, Nat.cast_pow, Nat.cast_sub hr.le]
    exact Int.modEq_iff_dvd.mpr ⟨2 * root - p, by ring⟩

/-! ## Decode of an encoding -/

/-- A root that Sqrt answers is a root (R137). -/
theorem sq_of_squareRoot {v m r : Nat} (h : SquareRoot v m (.ok r)) : r ^ 2 % m = v % m := by
  cases h with
  | zero h0 => rw [h0, zero_pow two_ne_zero, Nat.zero_mod]
  | root _ _ _ _ _ _ _ hsq => exact hsq

/-- What the compressed form decodes to lies on the curve (R185). -/
theorem onCurve_of_decodeCompressed {v : Point} (h3 : 3 ≤ p) (h : decodeCompressed p a b odd x = .ok v) :
    OnCurve p a b v := by
  unfold decodeCompressed at h
  split at h
  case isTrue => cases h
  case isFalse hx =>
    split at h
    case h_1 => cases h
    case h_2 root hroot =>
      have hsqrt := (squareRoot_iff h3).mpr hroot
      split at h
      case h_1 => cases h
      case h_2 y hy =>
        cases h
        obtain ⟨hylt, hsq⟩ := sq_of_parityRoot (squareRoot_lt h3 hsqrt) hy
        have hrhs : root ^ 2 ≡ x ^ 3 + a * x + b [MOD p] := (sq_of_squareRoot hsqrt).trans (Nat.mod_mod _ _)
        exact ⟨lt_of_not_ge hx, hylt, hsq.trans hrhs⟩

/-- The first byte of a compressed form holds the parity (R188). -/
theorem parityByte_toNat (y : Nat) : (BitVec.ofNat 8 (2 + y % 2)).toNat = 2 + y % 2 := by
  rw [BitVec.toNat_ofNat]
  omega

/-- Decode of an affine encoding is the compressed form of its x and parity (R185, R188). -/
theorem decodePoint_encodePoint_aff {pl : Nat} (hx : x < 256 ^ pl) :
    decodePoint p a b pl (encodePoint pl (.aff x y)) = decodeCompressed p a b (y % 2) x := by
  have hfirst := parityByte_toNat y
  rw [encodePoint, decodePoint_compressed (beBytes_length pl x) (by omega), hfirst, bigEndian_beBytes pl x hx,
    Nat.add_sub_cancel_left]

/-- Over a prime field Decode gives a point of the curve back (R189). -/
theorem decodePoint_encodePoint {pl : Nat} {q : Point} (hp : p.Prime) (h3 : 3 ≤ p) (hpl : p ≤ 256 ^ pl)
    (hq : OnCurve p a b q) : decodePoint p a b pl (encodePoint pl q) = .ok q := by
  cases q with
  | inf => exact decodePoint_inf rfl rfl
  | aff x y =>
    obtain ⟨hx, hy, heq⟩ := hq
    have : Fact p.Prime := ⟨hp⟩
    have hres : y ^ 2 % p = (x ^ 3 + a * x + b) % p % p := heq.trans (Nat.mod_mod _ _).symm
    obtain ⟨root, hroot, hlt, hsq⟩ := sqrt_prime h3 ⟨y, hres⟩
    rw [decodePoint_encodePoint_aff (hx.trans_le hpl), decodeCompressed_root h3 hx ((squareRoot_iff h3).mpr hroot),
      parityRoot_of_sq_eq hp h3 hlt hy (hsq.trans hres.symm)]
    rfl

/-- What Decode makes of an encoding lies on the curve, whatever was encoded (R189). -/
theorem onCurve_of_decodePoint_encodePoint {pl : Nat} {q v : Point} (h3 : 3 ≤ p) (hpl : p ≤ 256 ^ pl)
    (hq : Below p q) (h : decodePoint p a b pl (encodePoint pl q) = .ok v) : OnCurve p a b v := by
  cases q with
  | inf =>
    rw [encodePoint, decodePoint_inf rfl rfl] at h
    obtain rfl := Except.ok.inj h
    trivial
  | aff x y =>
    rw [decodePoint_encodePoint_aff ((hq x y rfl).1.trans_le hpl)] at h
    exact onCurve_of_decodeCompressed h3 h

end

/-! ## PDEC after PENC -/

section
variable {s : State}

theorem fieldP_le_plen (s : State) : fieldP s ≤ 256 ^ plen s := by
  calc fieldP s ≤ 2 ^ bitlen (fieldP s) := (lt_two_pow_bitlen _).le
    _ ≤ 2 ^ (8 * plen s) := Nat.pow_le_pow_right (by omega) (by rw [plen, ceil8]; omega)
    _ = 256 ^ plen s := by rw [pow_mul]; rfl

theorem plen_le (s : State) : plen s ≤ 32 := by
  have hbits : bitlen (fieldP s) ≤ 256 := bitlen_le (BitVec.isLt _)
  rw [plen, ceil8]
  omega

/-- The byte count of an encoding is one PDEC admits (R85, R188). -/
theorem encodePoint_length_range (s : State) (q : Point) :
    1 ≤ (encodePoint (plen s) q).length ∧ (encodePoint (plen s) q).length ≤ 65 := by
  have hpl := plen_le s
  cases q with
  | inf => exact ⟨le_rfl, by simp [encodePoint]⟩
  | aff x y => rw [encodePoint_aff_length]; omega

/-- A retiring PENC had room for its encoding, and stored it (R188). -/
theorem eq_of_penc_retires {t : State} {r : Reg} {addr : BitVec 12} {q : Point} (hcrv : s.dom.crv = true)
    (hq : ptPoint s r = some q) (h : exec (.penc r addr) s = .next t) (hret : Retires s t) :
    addr.toNat + (encodePoint (plen s) q).length ≤ 4096 ∧
      t = retired (memWrite s (spmAddr addr) (encodePoint (plen s) q)) := by
  rw [exec_penc hcrv hq] at h
  split at h
  case isTrue hb => exact ⟨inBounds_iff.mp hb, (Host.Outcome.next.inj h).symm⟩
  case isFalse =>
    cases h
    exact absurd hret (not_retires_takeFault _ s)

/-- PDEC of what PENC has stored ends with Decode of the encoding. -/
theorem exec_pdec_stored {t : State} {rd : Reg} {len : BitVec 7} {addr : BitVec 12} {q : Point}
    (hcrv : s.dom.crv = true) (ht : t = retired (memWrite s (spmAddr addr) (encodePoint (plen s) q)))
    (hb : addr.toNat + (encodePoint (plen s) q).length ≤ 4096)
    (hlen : len.toNat = (encodePoint (plen s) q).length) :
    exec (.pdec rd len addr) t =
      finishWith (decodePoint (fieldP s) (coeffA s) (coeffB s) (plen s) (encodePoint (plen s) q)) t
        fun v => writePT t rd v.toReg := by
  have hok : pointLenOk len = true := pointLenOk_iff.mpr (hlen ▸ encodePoint_length_range s q)
  have hread : memRead t addr.toNat len.toNat = encodePoint (plen s) q :=
    ht ▸ hlen ▸ memRead_retired_memWrite s (spmAddr addr) (encodePoint (plen s) q)
  rw [exec_pdec hok, if_pos (show t.dom.crv = true from ht ▸ hcrv), if_pos (inBounds_iff.mpr (hlen ▸ hb)), hread, ht]
  rfl

end

/-- A command that completes with a point value ended with a write of it. -/
theorem ok_of_completesPoint {i : Instr} {s : State} {rd : Reg} {v : Except Cause Point} {w : PointReg}
    (hexec : exec i s = finishWith v s fun q => writePT s rd q.toReg) (h : CompletesPoint i s rd w) :
    ∃ q, v = .ok q ∧ q.toReg = w := by
  obtain ⟨t, ht, hret, -, hpost⟩ := h
  obtain ⟨q, hq, rfl⟩ | ⟨c, -, rfl⟩ := (finishWith_eq v s t _).mp (hexec.symm.trans ht)
  · have hrd := hpost rd
    rw [readPT_congr (retired_pt _), readPT_writePT, if_pos rfl, if_pos rfl] at hrd
    exact ⟨q, hq, hrd⟩
  · exact absurd hret (not_retires_takeFault c s)

/-- Settles O42: Decode of the encoding is the point itself on the curve, and lies on the curve in any case. -/
theorem pointCodecRoundTrip : Obligations.PointCodecRoundTrip := by
  intro s t r rd len addr q hok hcrv hprime hq hexec hret hlen
  have h3 := hok.dataOk.three_le_fieldP hcrv
  have hfield : (fieldP s).Prime := hprime
  have hbelow : Below (fieldP s) q := below_of_pt hok.points hq
  obtain ⟨hb, ht⟩ := eq_of_penc_retires hcrv hq hexec hret
  have hpdec := exec_pdec_stored (rd := rd) hcrv ht hb hlen
  rw [← toReg_of_toPoint hq]
  refine ⟨fun hon => ?_, fun hoff hcompletes => hoff ?_⟩
  · rw [decodePoint_encodePoint hfield h3 (fieldP_le_plen s) hon, finishWith_ok] at hpdec
    exact completesPoint_of_writePT hpdec
  · obtain ⟨v, hv, hreg⟩ := ok_of_completesPoint hpdec hcompletes
    have hvbelow : Below (fieldP s) v := decode_below h3 hv
    have hsame : some v = some q := by
      rw [← toPoint_toReg (fieldP_le s) hvbelow, hreg, toPoint_toReg (fieldP_le s) hbelow]
    obtain rfl := Option.some.inj hsame
    exact onCurve_of_decodePoint_encodePoint h3 (fieldP_le_plen s) hbelow hv

/-! ## The schedule of Compress -/

/-- The sequences of sub-messages, step constants and words of R196 to R200. -/
structure Schedule (m t : Nat → Words16) (sc : Nat → StepConsts) : Prop where
  messages : ∀ j, m (j + 2) = nextSubMessage (m j) (m (j + 1))
  constants : ∀ j, sc (j + 1) = nextStepConst (sc j)
  words : ∀ j, t (j + 1) = hashStep j (m j) (sc j) (t j)

/-- The steps from j on run through the sequences. -/
theorem Schedule.hashSteps {m t : Nat → Words16} {sc : Nat → StepConsts} (h : Schedule m t sc) (count j : Nat) :
    hashSteps count j (m j) (m (j + 1)) (sc j) (t j) = xorWords (t (j + count)) (m (j + count)) := by
  induction count generalizing j with
  | zero => rfl
  | succ count ih =>
    rw [Machine.hashSteps, ← h.messages, ← h.constants, ← h.words, ih (j + 1), Nat.add_right_comm, Nat.add_assoc]

/-- Word l of a block in the integers of its bytes (R57, R197). -/
theorem blockWord_toNat (block : Vector Byte 128) (i : Fin 32) : (blockWord block i).toNat =
    block[4 * i.val].toNat + 2 ^ 8 * block[4 * i.val + 1].toNat + 2 ^ 16 * block[4 * i.val + 2].toNat +
      2 ^ 24 * block[4 * i.val + 3].toNat := leWord_toNat ..

/-- Settles O47: the given sequences are those the machine's steps compute. -/
theorem compressFollowsTheSchedule : Obligations.CompressFollowsTheSchedule := by
  intro cv block m t sc hm0 hm1 hm hsc0 hsc ht0 ht l
  have ext16 {v w : Words16} (h : ∀ l : Fin 16, v[l] = w[l]) : v = w := Vector.ext fun i hi => h ⟨i, hi⟩
  have schedule : Schedule m t sc := {
    messages := fun j => ext16 fun l => by simpa [nextSubMessage] using hm j l
    constants := fun j => Vector.ext fun i hi => by simpa [nextStepConst, rotl] using hsc j ⟨i, hi⟩
    words := fun j => ext16 fun l => by rw [ht, hashStep_mixed] }
  have hfirst : m 0 = subMessage0 block := ext16 fun l => BitVec.eq_of_toNat_eq (by
    rw [hm0]; simp [subMessage0, blockWord_toNat])
  have hsecond : m 1 = subMessage1 block := ext16 fun l => BitVec.eq_of_toNat_eq (by
    rw [hm1]; simp [subMessage1, blockWord_toNat, Nat.mul_add])
  rw [compress, ← hfirst, ← hsecond, ← hsc0, ← ht0, schedule.hashSteps]
  simp [xorWords]

end Sys2Proof.Machine
end

section
/-! PROOFS for the step and the host's side (10_state.md section 8, 20_memory.md, 60_exceptions.md section 2,
70_reset_and_hazards.md section 1): what the engine does next, what each kind of access does in the state in which it
is made, and the resets. An input that is an access and an access that has waited are made by the same
`completeRequest`, so each kind is described once and used for both. -/

namespace Sys2Proof.Machine

/-! ## The engine -/

section
variable {s : State} {w : Word}

theorem runCommand_of_decode {i : Instr} (hi : decode w = .ok i) : runCommand w s = exec i s := by
  rw [runCommand, hi]

theorem runCommand_of_decode_error {e : DecodeError} (he : decode w = .error e) :
    runCommand w s = raise .eillegal s := by
  rw [runCommand, he]

theorem engineMove_of_inExec (herr : s.errs.err = false) (hexec : s.inExec = some w) :
    engineMove s = runCommand w s := by
  simp [engineMove, herr, hexec]

theorem engineMove_of_queued {rest : List Word} (herr : s.errs.err = false) (hexec : s.inExec = none)
    (hq : s.queue = w :: rest) : engineMove s = .next (startCommand s w rest) := by
  simp [engineMove, herr, hexec, hq]

theorem engineRun_of_inExec (herr : s.errs.err = false) (hexec : s.inExec = some w) :
    engineRun s = runCommand w s := by
  simp [engineRun, herr, hexec]

theorem engineRun_of_queued {rest : List Word} (herr : s.errs.err = false) (hexec : s.inExec = none)
    (hq : s.queue = w :: rest) : engineRun s = runCommand w (startCommand s w rest) := by
  simp [engineRun, herr, hexec, hq]

/-- The engine stands still with ERR = 1 (R248, entry 14) and with nothing to do (R275). -/
theorem engineRun_of_idle (h : s.errs.err = true ∨ (s.inExec = none ∧ s.queue = [])) : engineRun s = .next s := by
  obtain herr | ⟨hexec, hq⟩ := h
  · simp [engineRun, herr]
  · simp [engineRun, hexec, hq]

theorem allWait_of_stalled_nil (hstalled : s.bus.stalled = []) : AllWait s := by
  simp [AllWait, hstalled]

/-- With no access waiting and no input left the engine runs. -/
theorem step_of_quiet (hstalled : s.bus.stalled = []) (hinputs : s.bus.inputs = []) : step s = engineRun s := by
  rw [step_of_allWait (allWait_of_stalled_nil hstalled), nextInput, hinputs, hstalled]
  rfl

/-- An input that gives the engine a turn (entry 2). -/
theorem step_of_engineTurn {inputs : List Input} (hstalled : s.bus.stalled = [])
    (hinputs : s.bus.inputs = .engineTurn :: inputs) :
    step s = engineMove (setInputs s inputs) := by
  rw [step_of_allWait (allWait_of_stalled_nil hstalled), nextInput, hinputs]

end

/-- Settles O7: the step is the engine's run, or its move at a turn. -/
theorem stepRunsDecodedInstruction : Obligations.StepRunsDecodedInstruction := by
  refine fun s hstalled => ⟨fun w i rest hi herr hin hexec hq => ?_, fun w i hi herr hin hexec => ?_,
    fun w i inputs hi herr hin hexec => ?_, fun w rest inputs herr hin hexec hq => ?_, fun hin hidle => ?_⟩
  · rw [step_of_quiet hstalled hin, engineRun_of_queued herr hexec hq, runCommand_of_decode hi]
  · rw [step_of_quiet hstalled hin, engineRun_of_inExec herr hexec, runCommand_of_decode hi]
  · rw [step_of_engineTurn hstalled hin, engineMove_of_inExec (s := setInputs s inputs) herr hexec,
      runCommand_of_decode hi]
  · rw [step_of_engineTurn hstalled hin, engineMove_of_queued (s := setInputs s inputs) herr hexec hq]
  · rw [step_of_quiet hstalled hin, engineRun_of_idle hidle]

/-! ## Every step answers a next state -/

/-- The outcome is a next state. -/
def GoesOn (o : Result) : Prop := ∃ t, o = .next t

theorem goesOn_next (t : State) : GoesOn (.next t) := ⟨t, rfl⟩

theorem goesOn_of_commandEnds {s : State} {o : Result} (h : CommandEnds s o) : GoesOn o := by
  cases h with
  | retires => exact goesOn_next _
  | faults => exact goesOn_next _

theorem goesOn_runCommand (w : Word) (s : State) : GoesOn (runCommand w s) := by
  unfold runCommand
  split
  · exact goesOn_of_commandEnds (exec_ends ..)
  · exact goesOn_next _

theorem goesOn_engineMove (s : State) : GoesOn (engineMove s) := by
  unfold engineMove
  split
  · exact goesOn_next _
  · split
    · exact goesOn_runCommand ..
    · split <;> exact goesOn_next _

theorem goesOn_engineRun (s : State) : GoesOn (engineRun s) := by
  unfold engineRun
  split
  · exact goesOn_next _
  · split
    · exact goesOn_runCommand ..
    · split
      · exact goesOn_next _
      · exact goesOn_runCommand ..

theorem goesOn_nextInput (s : State) : GoesOn (nextInput s) := by
  unfold nextInput
  split
  case h_1 =>
    split
    · exact goesOn_engineRun s
    · exact goesOn_engineMove s
  case h_2 =>
    split
    · exact goesOn_engineMove s
    · split <;> exact goesOn_next _
  case h_3 => exact goesOn_engineMove _
  case h_4 | h_5 => exact goesOn_next _

/-- Settles O8: a waiting access, an input and a move of the engine each answer a next state. -/
theorem stepNeverStops : Obligations.StepNeverStops := by
  intro s
  change GoesOn (advance s)
  unfold advance
  split
  · exact goesOn_next _
  · exact goesOn_nextInput s

/-! ## What an access does in the state in which it is made -/

/-- The state with one more answer given. -/
def withAnswer (s : State) (response : BusResponse) : State :=
  { s with bus := { s.bus with responses := s.bus.responses ++ [response] } }

section
variable {s u : State} {o : BitVec 13} {width : AccessWidth}

theorem completeRequest_of_performAccess {m : Nat} {a : BusAccess} {e : Bool} {d : Word}
    (h : performAccess s a = (u, e, d)) :
    completeRequest s { master := m, access := a } = withAnswer u { master := m, busError := e, data := d } := by
  rw [completeRequest, h]
  rfl

/-- A next access that does not have to wait is made in the state without that input. -/
theorem step_of_input {m : Nat} {a : BusAccess} {rest : List Input} {e : Bool} {d : Word}
    (h : HostAccess s m a rest) (hnow : ¬MustWait s a) (hp : performAccess (setInputs s rest) a = (u, e, d)) :
    step s = .next (withAnswer u { master := m, busError := e, data := d }) := by
  rw [step_of_access h hnow, completeRequest_of_performAccess hp]

/-- The first waiting access, once it may be made, is made in the state where only the others wait. -/
theorem step_of_waited {m : Nat} {a : BusAccess} {others : List BusRequest} {e : Bool} {d : Word}
    (h : s.bus.stalled = { master := m, access := a } :: others) (hnow : ¬MustWait s a)
    (hp : performAccess (setStalled s others) a = (u, e, d)) :
    step s = .next (withAnswer u { master := m, busError := e, data := d }) := by
  rw [step_of_ready h hnow, completeRequest_of_performAccess hp]

/-- The SPM part of the window and its alignment rule (R52, R53). -/
theorem inSpmPart_iff : inSpmPart o = true ↔ 0x1000 ≤ o.toNat := decide_eq_true_iff

theorem inSpmPart_eq_false (ho : o.toNat < 0x1000) : inSpmPart o = false := decide_eq_false (by omega)

theorem accessLegal_spm (ho : 0x1000 ≤ o.toNat) : accessLegal o width = true ↔ o.toNat % width.size = 0 := by
  simp [accessLegal, inSpmPart_iff.mpr ho]

/-- A CSR takes aligned 4-byte accesses only (R58). -/
theorem accessLegal_csr (ho : o.toNat < 0x1000) : accessLegal o width = true ↔ width = .word ∧ o.toNat % 4 = 0 := by
  cases width <;> simp [accessLegal, inSpmPart_eq_false ho, AccessWidth.size]

/-- A bus error changes nothing, and a read returns 0 (R54, R58, R249). -/
theorem performAccess_illegal (h : ¬accessLegal o width = true) (data : Word) :
    performAccess s (.read o width) = (s, true, 0) ∧ performAccess s (.write o width data) = (s, true, 0) := by
  simp [performAccess, h]

theorem performAccess_readCsr (ho : o.toNat < 0x1000) (halign : o.toNat % 4 = 0) :
    performAccess s (.read o .word) = (s, false, readCsr s o.toNat) := by
  simp [performAccess, (accessLegal_csr ho).mpr ⟨rfl, halign⟩, inSpmPart_eq_false ho]

theorem performAccess_writeCsr (ho : o.toNat < 0x1000) (halign : o.toNat % 4 = 0) (data : Word) :
    performAccess s (.write o .word data) = (writeCsr s o.toNat data, false, 0) := by
  simp [performAccess, (accessLegal_csr ho).mpr ⟨rfl, halign⟩, inSpmPart_eq_false ho]

theorem performAccess_readSpm (ho : 0x1000 ≤ o.toNat) (halign : o.toNat % width.size = 0) :
    performAccess s (.read o width) = (s, false, BitVec.ofNat 32 (leNat (memRead s (spmOffset o) width.size))) := by
  simp [performAccess, (accessLegal_spm ho).mpr halign, inSpmPart_iff.mpr ho]

theorem performAccess_writeSpm (ho : 0x1000 ≤ o.toNat) (halign : o.toNat % width.size = 0) (data : Word) :
    performAccess s (.write o width data) =
      (memWrite s (spmOffset o) ((leBytes data).take width.size), false, 0) := by
  simp [performAccess, (accessLegal_spm ho).mpr halign, inSpmPart_iff.mpr ho]

/-! ## Which accesses do not wait -/

theorem not_mustWait_spm (hidle : busy s = false) (ho : 0x1000 ≤ o.toNat) (data : Word) :
    ¬MustWait s (.read o width) ∧ ¬MustWait s (.write o width data) := by
  have hcmd : o ≠ 0x018 := by rintro rfl; exact absurd ho (by decide)
  simp only [MustWait, hidle, hcmd]
  tauto

/-- Of the CSR accesses only a word write to CMD can wait (R68). -/
theorem not_mustWait_csr (ho : o.toNat < 0x1000) (data : Word) (hcmd : ¬(o = 0x018 ∧ width = .word)) :
    ¬MustWait s (.read o width) ∧ ¬MustWait s (.write o width data) := by
  have hspm : ¬0x1000 ≤ o.toNat := by omega
  exact ⟨fun hwait => hspm hwait.1, fun
    | .inl ⟨hpart, _⟩ => hspm hpart
    | .inr ⟨hoff, hword, _⟩ => hcmd ⟨hoff, hword⟩⟩

theorem mustWait_cmd {w : Word} :
    MustWait s (.write 0x018 .word w) ↔ s.errs.err = false ∧ 16 ≤ s.queue.length :=
  ⟨fun
    | .inl ⟨hpart, _⟩ => absurd hpart (by decide)
    | .inr ⟨_, _, hfull⟩ => hfull,
    fun hfull => .inr ⟨rfl, rfl, hfull⟩⟩

theorem not_mustWait_cmd {w : Word} (h : s.errs.err = true ∨ s.queue.length < 16) :
    ¬MustWait s (.write 0x018 .word w) := by
  rw [mustWait_cmd]
  rintro ⟨herr, hfull⟩
  obtain hset | hfree := h
  · exact absurd (herr.symm.trans hset) Bool.false_ne_true
  · omega

/-- A CMD write that is made changes nothing while ERR = 1 (R246), … -/
theorem performAccess_cmd_discarded {w : Word} (herr : s.errs.err = true) :
    performAccess s (.write 0x018 .word w) = (s, false, 0) := by
  rw [performAccess_writeCsr (by decide) (by decide)]
  simp [writeCsr, writeCmd, herr]

/-- … and appends its word with ERR = 0 (R39). -/
theorem performAccess_cmd_appended {w : Word} (herr : s.errs.err = false) :
    performAccess s (.write 0x018 .word w) = ({ s with queue := s.queue ++ [w] }, false, 0) := by
  rw [performAccess_writeCsr (by decide) (by decide)]
  simp [writeCsr, writeCmd, herr]

end

/-! ## CSR reads -/

/-- The reserved offsets read 0 (R34). -/
theorem readCsr_reserved (s : State) {offset : Nat} (h : 0x02C ≤ offset) : readCsr s offset = 0 := by
  unfold readCsr
  split
  case h_10 => rfl
  all_goals omega

/-- A CSR read is made at once and answers what the register holds (R34, R61, R68). -/
theorem step_readCsr {s : State} {m : Nat} {rest : List Input} {o : BitVec 13} (ho : o.toNat < 0x1000)
    (halign : o.toNat % 4 = 0) (h : HostAccess s m (.read o .word) rest) :
    step s = .next (answered s rest { master := m, busError := false, data := readCsr s o.toNat }) := by
  have hnow : ¬MustWait s (.read o .word) := fun hwait => absurd hwait.1 (by omega)
  exact step_of_input h hnow (performAccess_readCsr ho halign)

/-- IRQ_EN and IRQ_STATUS hold DONE in bit 0 and ERR in bit 1 (R38). -/
theorem irqWord_eq (b : IrqBits) : irqWord b = (if b.done then 1 else 0) + if b.err then 2 else 0 := by
  obtain ⟨done, err⟩ := b
  cases done <;> cases err <;> decide

/-! ### STATUS -/

/-- Bit i of STATUS (R36): BUSY, ERR, F, CRV, ORD, GEN, MV, HDV, then HSTATE from bit 8 and QLEVEL from bit 16. -/
def statusBit (s : State) (i : Nat) : Bool :=
  if i < 8 then [busy s, s.errs.err, s.f, s.dom.crv, s.dom.ord, s.dom.gen, s.gmod.mv, s.digest.hdv].getD i false
  else if i < 16 then (phaseBits s.hash.phase).getLsbD (i - 8)
  else (qlevel s).getLsbD (i - 16)

section
variable (s : State)

theorem statusWord_getLsbD {i : Nat} (hi : i < 32) : (statusWord s).getLsbD i = statusBit s i := by
  rw [statusWord, BitVec.getLsbD_append]
  simp only [BitVec.getLsbD_append]
  interval_cases i <;> simp [statusBit]

theorem statusWord_phase : (statusWord s).extractLsb' 8 2 = phaseBits s.hash.phase := by
  apply BitVec.eq_of_getLsbD_eq
  intro i hi
  rw [BitVec.getLsbD_extractLsb', statusWord_getLsbD s (by omega)]
  simp [statusBit, hi, show 8 + i < 16 by omega]

theorem statusWord_qlevel : (statusWord s).extractLsb' 16 5 = qlevel s := by
  apply BitVec.eq_of_getLsbD_eq
  intro i hi
  rw [BitVec.getLsbD_extractLsb', statusWord_getLsbD s (by omega)]
  simp [statusBit, hi, show ¬16 + i < 8 by omega]

/-- Between and above the two fields STATUS holds zeros. -/
theorem statusWord_zeros : (statusWord s).extractLsb' 10 6 = 0 ∧ (statusWord s).extractLsb' 21 11 = 0 := by
  constructor <;> apply BitVec.eq_of_getLsbD_eq <;> intro i hi <;>
    rw [BitVec.getLsbD_extractLsb', statusWord_getLsbD s (by omega)]
  · simp [statusBit, hi, show ¬10 + i < 8 by omega, show 10 + i < 16 by omega, show 2 ≤ 10 + i - 8 by omega]
  · simp [statusBit, hi, show ¬21 + i < 8 by omega, show ¬21 + i < 16 by omega, show 5 ≤ 21 + i - 16 by omega]
end

theorem phaseBits_toNat (phase : HashPhase) :
    (phaseBits phase).toNat = match phase with | .idle => 0 | .absorb => 1 | .finalbits => 2 := by
  cases phase <;> rfl

/-- A queue that is not over-full fits into QLEVEL (R31, R36). -/
theorem qlevel_toNat {s : State} (h : s.queue.length ≤ 16) : (qlevel s).toNat = s.queue.length := by
  rw [qlevel, BitVec.toNat_ofNat]
  omega

theorem busy_eq (s : State) : busy s = (decide (s.queue ≠ []) || s.inExec.isSome) := by
  cases hq : s.queue <;> simp [busy, hq]

/-- Settles O53: `step_readCsr` for each register, and STATUS by its bits. -/
theorem csrReads : Obligations.CsrReads := by
  intro s m rest
  have made {o : BitVec 13} (ho : o.toNat < 0x1000 ∧ o.toNat % 4 = 0) :=
    step_readCsr (s := s) (m := m) (rest := rest) ho.1 ho.2
  refine ⟨made (by decide), made (by decide), made (by decide), made (by decide), made (by decide),
    irqWord_eq s.irqEn ▸ made (by decide), irqWord_eq s.irqStatus ▸ made (by decide), made (by decide),
    made (by decide), made (by decide), fun o hlow hhigh halign => ?_,
    fun hdepth => ⟨statusWord s, made (by decide), ?_⟩⟩
  · intro h
    rw [made ⟨by omega, halign⟩ h, readCsr_reserved s hlow]
  · rw [statusWord_phase, statusWord_qlevel]
    obtain ⟨hmiddle, hhigh⟩ := statusWord_zeros s
    have bit {i : Nat} (hi : i < 32) := statusWord_getLsbD s hi
    exact ⟨(bit (by decide)).trans (busy_eq s), bit (by decide), bit (by decide), bit (by decide), bit (by decide),
      bit (by decide), bit (by decide), bit (by decide), phaseBits_toNat _, hmiddle, qlevel_toNat hdepth, hhigh⟩

/-! ## CMD writes -/

/-- Settles O54: the write waits exactly with ERR = 0 and 16 queued words. -/
theorem cmdWriteQueuesTheWord : Obligations.CmdWriteQueuesTheWord := fun _ _ _ _ h =>
  ⟨fun herr => step_of_input h (not_mustWait_cmd (.inl herr)) (performAccess_cmd_discarded herr),
    fun herr hfree => step_of_input h (not_mustWait_cmd (.inr hfree)) (performAccess_cmd_appended herr),
    fun herr hfull => step_of_mustWait h (mustWait_cmd.mpr ⟨herr, hfull⟩)⟩

/-! ## Accesses to the SPM part -/

section
variable {s : State} {o : BitVec 13} {width : AccessWidth}

theorem memRead_getD (s : State) (a n k : Nat) :
    (memRead s a n).getD k 0 = if k < n then readByte s (a + k) else 0 := by
  by_cases hin : k < n <;> simp [memRead, hin]

/-- The data of a read holds the bytes read (R53). -/
theorem holdsBytes_memRead (s : State) (o : BitVec 13) (width : AccessWidth) :
    HoldsBytes s o width (BitVec.ofNat 32 (leNat (memRead s (spmOffset o) width.size))) :=
  fun _ hk => (leNat_byte _ hk).trans (memRead_getD ..)

/-- A write stores the low bytes of its data (R53). -/
theorem writtenBytes_memWrite (s : State) (o : BitVec 13) (width : AccessWidth) (data : Word) :
    WrittenBytes s o width data (memWrite s (spmOffset o) ((leBytes data).take width.size)) := by
  have hlen : ((leBytes data).take width.size).length = width.size := by cases width <;> rfl
  unfold WrittenBytes spmOffset
  intro a
  rw [readByte_memWrite, hlen]
  split_ifs with hin
  · exact leBytes_take width data (by omega)
  · rfl

/-- While BUSY = 0 an aligned access to the SPM part that has waited is made (R64, R65). -/
theorem spmAccessMade_of_idle {m : Nat} {others : List BusRequest} (hidle : busy s = false) (ho : 0x1000 ≤ o.toNat)
    (halign : o.toNat % width.size = 0) : SpmAccessMade s m o width others :=
  ⟨fun h => ⟨_, step_of_waited h (not_mustWait_spm hidle ho 0).1 (performAccess_readSpm ho halign),
      holdsBytes_memRead s o width⟩,
    fun data h => ⟨_, _, step_of_waited h (not_mustWait_spm hidle ho data).2 (performAccess_writeSpm ho halign data),
      rfl, writtenBytes_memWrite s o width data⟩⟩

end

/-- Settles O56: made at once while BUSY = 0, waiting while BUSY = 1. -/
theorem spmWindowIsLittleEndian : Obligations.SpmWindowIsLittleEndian := by
  refine fun s m rest o width data ho halign =>
    ⟨fun h => ⟨fun hbusy => step_of_mustWait h ⟨ho, hbusy⟩, fun hidle => ?_⟩,
    fun h => ⟨fun hbusy => step_of_mustWait h (.inl ⟨ho, hbusy⟩), fun hidle => ?_⟩⟩
  · exact ⟨_, step_of_input h (not_mustWait_spm hidle ho data).1 (performAccess_readSpm ho halign),
      holdsBytes_memRead s o width⟩
  · exact ⟨_, _, step_of_input h (not_mustWait_spm hidle ho data).2 (performAccess_writeSpm ho halign data), rfl,
      writtenBytes_memWrite s o width data⟩

/-! ## Bus errors -/

/-- Settles O57: neither kind of illegal access waits, and both are answered with a bus error. -/
theorem busErrorsChangeNothing : Obligations.BusErrorsChangeNothing := by
  intro s m rest o width data hbad
  have hillegal : ¬accessLegal o width = true := by
    obtain ⟨ho, halign, -⟩ | ⟨ho, hbad⟩ := hbad
    · exact fun hlegal => halign ((accessLegal_spm ho).mp hlegal)
    · rw [accessLegal_csr ho]
      tauto
  have hnow : ¬MustWait s (.read o width) ∧ ¬MustWait s (.write o width data) := by
    obtain ⟨ho, -, hidle⟩ | ⟨ho, hbad⟩ := hbad
    · exact not_mustWait_spm hidle ho data
    · refine not_mustWait_csr ho data ?_
      rintro ⟨rfl, rfl⟩
      exact absurd hbad (by decide)
  obtain ⟨hread, hwrite⟩ := performAccess_illegal (s := setInputs s rest) hillegal data
  rintro (h | h)
  · exact step_of_input h hnow.1 hread
  · exact step_of_input h hnow.2 hwrite

/-! ## Waiting accesses -/

/-- Settles O55: the first waiting access by the lemmas of its kind, the engine by `step_of_nothingOutside`. -/
theorem stalledAccessesComplete : Obligations.StalledAccessesComplete := by
  refine fun s => ⟨fun m others => ⟨fun w hs => ⟨fun herr hfree => ?_, fun herr => ?_⟩,
    fun o width ho hidle => ⟨spmAccessMade_of_idle hidle ho, fun halign data hs => ?_⟩⟩, fun hne hall hout herr => ?_⟩
  · exact step_of_waited hs (not_mustWait_cmd (.inr hfree)) (performAccess_cmd_appended herr)
  · exact step_of_waited hs (not_mustWait_cmd (.inl herr)) (performAccess_cmd_discarded herr)
  · obtain ⟨hread, hwrite⟩ := performAccess_illegal (s := setStalled s others)
      (fun hlegal => halign ((accessLegal_spm ho).mp hlegal)) data
    have hnow := not_mustWait_spm (width := width) hidle ho data
    obtain hs | hs := hs
    · exact step_of_waited hs hnow.1 hread
    · exact step_of_waited hs hnow.2 hwrite
  · rw [step_of_nothingOutside hne hall hout]
    refine ⟨fun w0 tail hexec hq => engineMove_of_queued herr hexec hq, fun w0 i hexec hi => ?_,
      fun w0 e hexec he => ?_⟩
    · rw [engineMove_of_inExec herr hexec, runCommand_of_decode hi]
    · rw [engineMove_of_inExec herr hexec, runCommand_of_decode_error he]
      exact ⟨_, rfl, faultEntry_takeFault .eillegal s⟩

/-! ## Writes to the other registers -/

section
variable (s : State) {w : Word}

/-- A write to CTRL without SRST: ERRCLR clears ERR alone (R35, R247), … -/
theorem writeCsr_errclr (hsrst : w.getLsbD 0 = false) (hclr : w.getLsbD 1 = true) :
    writeCsr s 0x008 w = clearError s := by
  simp only [writeCsr, writeCtrl, hsrst, hclr, Bool.false_eq_true, if_false, if_true]

/-- … and without either bit nothing happens (R35). -/
theorem writeCsr_ctrl_neither (hsrst : w.getLsbD 0 = false) (hclr : w.getLsbD 1 = false) : writeCsr s 0x008 w = s := by
  simp only [writeCsr, writeCtrl, hsrst, hclr, Bool.false_eq_true, if_false]

/-- Without a hardware event a 1 written to IRQ_STATUS clears its bit (R38). -/
theorem writeCsr_irqStatus (w : Word) : writeCsr s 0x014 w =
    { s with irqStatus :=
      { done := s.irqStatus.done && !w.getLsbD 0, err := s.irqStatus.err && !w.getLsbD 1 } } := by
  simp [writeCsr, irqNext, irqBitsOf]

/-- A reserved offset ignores a write (R34). -/
theorem writeCsr_reserved {offset : Nat} (h : 0x02C ≤ offset) (w : Word) : writeCsr s offset w = s := by
  unfold writeCsr
  split
  case h_5 => rfl
  all_goals omega

/-- The irq line is the enabled pending bits (R252). -/
theorem irqLine_iff : irqLine s = true ↔
    (s.irqStatus.done = true ∧ s.irqEn.done = true) ∨ (s.irqStatus.err = true ∧ s.irqEn.err = true) := by
  simp [irqLine]

end

/-- Settles O58: none of these writes waits; what each leaves is `writeCsr` at its offset. -/
theorem controlAndInterruptWrites : Obligations.ControlAndInterruptWrites := by
  intro s m w rest
  have made {o : BitVec 13} {u : State} (ho : o.toNat < 0x1000 ∧ o.toNat % 4 = 0 ∧ o ≠ 0x018)
      (hu : writeCsr (setInputs s rest) o.toNat w = u) (h : HostAccess s m (.write o .word w) rest) :
      step s = .next (withAnswer u { master := m, busError := false, data := 0 }) := by
    obtain ⟨hcsr, halign, hcmd⟩ := ho
    exact step_of_input h (not_mustWait_csr hcsr w fun hc => hcmd hc.1).2 (hu ▸ performAccess_writeCsr hcsr halign w)
  refine ⟨fun h hsrst hclr => made (o := 0x008) (by decide) (writeCsr_errclr _ hsrst hclr) h,
    fun h hsrst hclr => made (o := 0x008) (by decide) (writeCsr_ctrl_neither _ hsrst hclr) h,
    made (o := 0x010) (by decide) rfl, made (o := 0x014) (by decide) (writeCsr_irqStatus _ w),
    fun o hlow hhigh halign => ?_, ?_, irqLine_iff s⟩
  · have hcmd : o ≠ 0x018 := by rintro rfl; exact absurd hlow (by decide)
    exact made ⟨by omega, halign, hcmd⟩ (writeCsr_reserved _ hlow w)
  · simp only [List.forall_mem_cons, List.not_mem_nil, false_imp_iff, implies_true, and_true]
    exact ⟨made (by decide) rfl, made (by decide) rfl, made (by decide) rfl, made (by decide) rfl,
      made (by decide) rfl, made (by decide) rfl, made (by decide) rfl⟩

/-! ## Resets -/

section
variable {s : State} {rest : List Input}

/-- The range of a store in execution does not depend on the inputs to come. -/
theorem resetSpm_setInputs (s : State) (rest : List Input) : resetSpm (setInputs s rest) = resetSpm s := by
  rfl

theorem step_of_hardwareReset (hall : AllWait s) (hin : s.bus.inputs = .hardwareReset :: rest) :
    step s = .next (hardwareReset (setInputs s rest)) := by
  rw [step_of_allWait hall, nextInput, hin]

theorem step_of_powerOn (hall : AllWait s) (hin : s.bus.inputs = .powerOn :: rest) :
    step s = .next (powerOn (setInputs s rest)) := by
  rw [step_of_allWait hall, nextInput, hin]

theorem writeCsr_srst {w : Word} (s : State) (h : w.getLsbD 0 = true) : writeCsr s 0x008 w = softReset s := by
  simp only [writeCsr, writeCtrl, h, if_true]

end

/-- A state that has the reset table is idle, without an error. -/
theorem ResetTable.busy_eq_false {t : State} (h : ResetTable t) : busy t = false := by
  obtain ⟨hq, hexec, -⟩ := h.commands
  simp [busy, hq, hexec]

/-- Settles O60: all three resets are `softReset` in the state without the input; afterwards the engine is idle. -/
theorem softResetRestoresTheTable : Obligations.SoftResetRestoresTheTable := by
  refine ⟨fun s rest hall => ⟨fun m w hfree hsrst hin => ?_, fun hin => ?_, fun hin => ?_⟩, fun t m others hreset => ?_⟩
  · have hnow : ¬MustWait s (.write 0x008 .word w) :=
      (not_mustWait_csr (by decide) w fun hcmd => absurd hcmd.1 (by decide)).2
    have hsoft : writeCsr (setInputs s rest) (0x008 : BitVec 13).toNat w = softReset (setInputs s rest) :=
      writeCsr_srst _ hsrst
    have hmade := performAccess_writeCsr (s := setInputs s rest) (o := 0x008) (by decide) (by decide) w
    rw [hsoft] at hmade
    exact ⟨_, step_of_input ⟨hall, hfree, hin⟩ hnow hmade, resetTable_reset _ _ _,
      spmAfterReset_of_resetSpm (resetSpm_setInputs s rest) rfl, rfl, rfl, rfl⟩
  · exact ⟨_, step_of_hardwareReset hall hin, resetTable_reset _ _ _,
      spmAfterReset_of_resetSpm (resetSpm_setInputs s rest) rfl, rfl⟩
  · exact ⟨_, step_of_powerOn hall hin, resetTable_reset _ _ _, fun a => rfl, rfl⟩
  · obtain ⟨hq, -, -⟩ := hreset.commands
    obtain ⟨herr, -⟩ := hreset.errors
    refine ⟨fun w hs => ?_, fun o width ho halign => spmAccessMade_of_idle hreset.busy_eq_false ho halign⟩
    have hmade := performAccess_cmd_appended (s := setStalled t others) (w := w) herr
    rw [setStalled_queue, hq, List.nil_append] at hmade
    exact step_of_waited hs (not_mustWait_cmd (.inr (by simp [hq]))) hmade

end Sys2Proof.Machine
end
